-- ==== Sys2Proof/Word.lean ====
section
/-! DEFINITION. The words of the block: bytes, command words, source addresses, colours (spec/00_scope.md R5, R7). -/

namespace Sys2Proof

/-- A byte, bit 0 least significant (R5). -/
abbrev Byte := BitVec 8

/-- One command word, bit 0 least significant (R5, R70). -/
abbrev CommandWord := BitVec 64

/-- An address of source memory SRC (R4: `SRC_AW` = 16). -/
abbrev SrcAddr := BitVec 16

/-- A colour: `true` is 1, set (drawn); `false` is 0, clear (R7). -/
abbrev Colour := Bool

/-- The byte whose eight bits all have one colour: 0xFF or 0x00 (R100, phase (b) of R121). -/
def solidByte (c : Colour) : Byte := if c then 0xFF else 0x00

end Sys2Proof
end

