-- ==== Sys2Proof/Config.lean ====
section
/-! DEFINITION. The parameters of the block (spec/00_scope.md R4): its fixed constants, its OPEN parameters as plain
data, and the free values, which are opaque constants without a body. -/

namespace Sys2Proof

/-- What the TRANSPORT answers to one `Send` (spec/20_memory.md R55). -/
inductive SendResult where
  | ok
  | fail
deriving DecidableEq, Repr, Inhabited

/-- The nine OPEN controller command bytes `CMD_*` (R4, R200). -/
structure CommandBytes where
  ext : Byte
  bias : Byte
  vop : Byte
  normal : Byte
  setX : Byte
  setY : Byte
  dispNormal : Byte
  dispInverse : Byte
  powerDown : Byte
deriving DecidableEq, Repr, Inhabited

/-- The OPEN parameters of R4, fixed at construction. The ROM of a font holds `NGLYPH` = 95 groups of 3, 5 or 6
bytes (R50), group after group. -/
structure Config where
  nonBlocking : Bool
  cmd : CommandBytes
  fontSmall : Vector Byte 285
  fontMedium : Vector Byte 475
  fontLarge : Vector Byte 570
deriving DecidableEq, Repr, Inhabited

namespace Config

/-- Screen width in pixels (R4). -/
@[simp] abbrev W : Nat := 84

/-- Screen height in pixels (R4). -/
@[simp] abbrev H : Nat := 48

/-- Number of banks (R4). -/
@[simp] abbrev NBANK : Nat := 6

/-- Framebuffer size in bytes (R4). -/
@[simp] abbrev FBSIZE : Nat := 504

/-- Size of source memory in bytes (R40). -/
@[simp] abbrev SRCSIZE : Nat := 65536

/-- Glyphs per font (R4, R171). -/
@[simp] abbrev NGLYPH : Nat := 95

/-- The line-break character (R4). -/
abbrev NEWLINE : Byte := 0x0A

/-- The "invalid" sentinel of GETPX (R4, R102). -/
abbrev INVALID : Byte := 0xFF

/-- FREE VALUE: the OPEN parameters of the block as it was built (notes/assumptions/4.md). -/
opaque attached : Config

/-- FREE VALUE: the TRANSPORT's answer to the `n`-th drawn `Send` when no answer is given in the state
(notes/assumptions/5.md). -/
opaque sendAnswer : Nat → SendResult

/-- FREE VALUE: draw `n` of byte `i` of an in-flight data frame whose framebuffer byte was written during the
flight (spec/70_reset_and_hazards.md R243, notes/assumptions/6.md). -/
opaque flightByte : Nat → Nat → Byte

end Config

end Sys2Proof
end

