-- ==== Sys2Proof/Machine/State.lean ====
section
/-! DEFINITION. The state of the block as plain data (spec/10_state.md), the environment's future actions as plain
data (R9, R251), the reasons a step can stop, and the state after reset (R31). -/

namespace Sys2Proof.Machine

/-- A byte memory: the listed (address, byte) pairs, addresses strictly rising, no entry equal to what an unlisted
address reads as (`Memory.wf` of Machine/Ops.lean). -/
abbrev Memory := List Host.Cell

/-- A command frame (`is_data = false`) or a data frame (`is_data = true`) (R28). -/
inductive FrameKind where
  | command
  | data
deriving DecidableEq, Repr

/-- One entry of the transmit history: `(kind, bytes, result)` (R28). -/
structure Frame where
  kind : FrameKind
  bytes : List Byte
  result : SendResult
deriving DecidableEq, Repr

/-- `STATUS` of the response word (spec/30_encoding.md R76). -/
inductive Status where
  | ok
  | fail
  | rejected
deriving DecidableEq, Repr

/-- The response to one command (R76). -/
structure Response where
  status : Status
  value : Byte
deriving DecidableEq, Repr

/-- The environment's draws at a reset: the bytes of `FB` in ascending order (absent ones are 0x00), `CONTRAST` and
`BIAS` (R31, R240). -/
structure ResetDraw where
  fb : List Byte
  contrast : BitVec 7
  bias : BitVec 3
deriving DecidableEq, Repr

/-- One action of the environment (R9, R251): HOST presents a command word, HOST writes a byte of SRC between
commands (R48), TRANSPORT gives the completion notification (R226), the reset input is asserted (R240). -/
inductive Input where
  | command (w : CommandWord)
  | srcWrite (addr : SrcAddr) (value : Byte)
  | completion
  | reset (draw : ResetDraw)
deriving DecidableEq, Repr

/-- The whole state. `fb` to `inFlight` are the spec's (R20 to R29); `src` and `cfg` are its parameters of the step
(R30); `responses`, `inputs`, `answers` and `draws` are the model's own. -/
structure State where
  /-- `FB` (R20). -/
  fb : Memory
  /-- `CUR_X` (R21). -/
  curX : BitVec 7
  /-- `CUR_Y` (R22). -/
  curY : BitVec 3
  /-- `BUSY` (R24). -/
  busy : Bool
  /-- `CONTRAST` (R25). -/
  contrast : BitVec 7
  /-- `BIAS` (R25). -/
  bias : BitVec 3
  /-- `TX`, oldest first (R28). -/
  tx : List Frame
  /-- Which entry of `TX` is in flight (R29). -/
  inFlight : Option Nat
  /-- `SRC`, HOST's memory (R48). -/
  src : Memory
  /-- The OPEN parameters (R4), fixed at construction. -/
  cfg : Config
  /-- The responses delivered so far, oldest first (R76, R251). -/
  responses : List Response
  /-- What the environment does next, in order (R251). -/
  inputs : List Input
  /-- What the TRANSPORT answers to the next `Send`s (R55); beyond them its answer is a free value. -/
  answers : List SendResult
  /-- The counter that numbers the free values. -/
  draws : Nat
deriving DecidableEq, Repr

/-- Why the machine stops with a fault: never. "The block raises no exception and takes no trap" and "no input makes it
undefined or stuck" (R220), so the type has no constructor and nothing raises one. -/
inductive Fault where
deriving DecidableEq, Repr

/-- Why the machine refuses an instruction. -/
inductive Refusal where
  /-- An instruction that has no meaning yet; raised by `exec`'s refused arms, of which there are none. Safe. -/
  | notModelled (mnemonic : String)
deriving DecidableEq, Repr

/-- The state after reset (R31, R240). `FB`, `CONTRAST` and `BIAS`, which R31 leaves unspecified, and SRC hold the
values named in notes/assumptions/1.md, 2.md and 3.md; the parameters are opaque (4.md). -/
def State.reset : State where
  fb := []
  curX := 0
  curY := 0
  busy := false
  contrast := 0
  bias := 0
  tx := []
  inFlight := none
  src := []
  cfg := Config.attached
  responses := []
  inputs := []
  answers := []
  draws := 0

end Sys2Proof.Machine
end

