-- ==== Sys2Proof/Machine/Ops.lean ====
section
/-! DEFINITION. The named operations every meaning is built from: byte memories, the framebuffer's masked writes
(spec/20_memory.md R41 to R47), the response (R76), `Send` (R55), the reset (R240). The block takes no exception and
returns from none (R220, R228, R229): in the place of exception entry stands `State.respond`. -/

namespace Sys2Proof.Machine

open Config

/-! ## Byte memories -/

/-- What an address that is not listed reads as (notes/assumptions/1.md and 3.md). -/
def unlistedByte : Byte := 0x00

/-- The byte at an address of a memory in canonical form. -/
def Memory.read : Memory → Nat → Byte
  | [], _ => unlistedByte
  | (a, b) :: m, i => if i < a then unlistedByte else if i = a then b else Memory.read m i

/-- The memory with one byte replaced, in canonical form again. -/
def Memory.write : Memory → Nat → Byte → Memory
  | [], i, v => if v = unlistedByte then [] else [(i, v)]
  | (a, b) :: m, i, v =>
    if i < a then (if v = unlistedByte then (a, b) :: m else (i, v) :: (a, b) :: m)
    else if i = a then (if v = unlistedByte then m else (i, v) :: m)
    else (a, b) :: Memory.write m i v

/-- The canonical form: addresses strictly rising, no entry equal to what an unlisted address reads as. -/
abbrev Memory.wf (m : Memory) : Prop :=
  m.Pairwise (fun p q => p.1 < q.1) ∧ ∀ p ∈ m, p.2 ≠ unlistedByte

/-- Every listed address is below `n`. -/
abbrev Memory.below (n : Nat) (m : Memory) : Prop := ∀ p ∈ m, p.1 < n

/-- The memory that holds the given bytes from address `base` on. -/
def Memory.load : Memory → Nat → List Byte → Memory
  | m, _, [] => m
  | m, base, b :: bs => Memory.load (m.write base b) (base + 1) bs

/-! ## Loops -/

/-- `for i in 0 .. n-1: a <- f i a`, in ascending order. -/
def forUp {α : Type} : Nat → (Nat → α → α) → α → α
  | 0, _, a => a
  | n + 1, f, a => f n (forUp n f a)

/-! ## The framebuffer during one command -/

/-- The framebuffer while a command draws: its bytes, and the indices the command has written (latest first), which
matter only to a data frame in flight (spec/70_reset_and_hazards.md R243). -/
structure Canvas where
  mem : Memory
  touched : List Nat
deriving DecidableEq, Repr

/-- `FB[i]` (R8). -/
def Canvas.byte (cv : Canvas) (i : Nat) : Byte := cv.mem.read i

/-- `FB[i] <- v` (R8). No rule forms an `i` outside 0 to 503 (R44). -/
def Canvas.store (i : Nat) (v : Byte) (cv : Canvas) : Canvas := ⟨cv.mem.write i v, i :: cv.touched⟩

/-- `Index(x, y)`, the byte that holds pixel `(x, y)` (R42); meant for `x < W`, `y < H` (notes/assumptions/15.md). -/
def pixelIndex (x y : Nat) : Nat := y / 8 * W + x

/-- `Mask(y)`, the bit that holds a pixel of row `y` (R43). -/
def pixelMask (y : Nat) : Byte := BitVec.ofNat 8 (2 ^ (y % 8))

/-- `SpanMask(s, k)`: `k` contiguous bits starting at bit `s` (R47). -/
def spanMask (s k : Nat) : Byte := BitVec.ofNat 8 ((2 ^ k - 1) * 2 ^ s)

/-- `ApplyMask(i, m, c)` (R45). -/
def Canvas.applyMask (i : Nat) (m : Byte) (c : Colour) (cv : Canvas) : Canvas :=
  cv.store i (if c then cv.byte i ||| m else cv.byte i &&& ~~~m)

/-- `PutPixel(x, y, c)`: the bounds-checked single-pixel write; coordinates of either sign (R46). -/
def Canvas.putPixel (x y : Int) (c : Colour) (cv : Canvas) : Canvas :=
  if 0 ≤ x ∧ x < W ∧ 0 ≤ y ∧ y < H then cv.applyMask (pixelIndex x.toNat y.toNat) (pixelMask y.toNat) c else cv

/-- Pixel `(x, y)` of the framebuffer, for `x < W`, `y < H` (R41). -/
def Memory.pixel (m : Memory) (x y : Nat) : Bool := (m.read (pixelIndex x y)).getLsbD (y % 8)

/-! ## The data frame in flight -/

/-- The entry of `TX` that is a data frame in flight: one the TRANSPORT accepted and has not completed (R29, R243). -/
def State.dataInFlight (s : State) : Option Nat :=
  match s.inFlight with
  | none => none
  | some k =>
    match s.tx[k]? with
    | none => none
    | some f => if f.kind = .data ∧ f.result = .ok then some k else none

/-- The frame with a free value at each of the given indices (R243: "unconstrained at the indices that were written"). -/
def Frame.unsettle (touched : List Nat) (draw : Nat) (f : Frame) : Frame :=
  { f with bytes := f.bytes.mapIdx fun i b => if i ∈ touched then flightByte draw i else b }

/-- `TX` after a command that wrote the framebuffer at the given indices (R243). -/
def State.txAfterWrites (s : State) (touched : List Nat) : List Frame :=
  match s.dataInFlight with
  | none => s.tx
  | some k => s.tx.modify k (Frame.unsettle touched s.draws)

/-- The draw counter after a command that wrote the framebuffer. -/
def State.drawsAfterWrites (s : State) : Nat :=
  match s.dataInFlight with
  | none => s.draws
  | some _ => s.draws + 1

/-- The canvas on which a command starts. -/
def State.canvas (s : State) : Canvas := ⟨s.fb, []⟩

/-- The state after a command has drawn: the new framebuffer, and the hazard of R243 on a data frame in flight. -/
def State.commit (s : State) (cv : Canvas) : State :=
  { s with fb := cv.mem, tx := s.txAfterWrites cv.touched, draws := s.drawsAfterWrites }

/-- A drawing procedure run on the framebuffer. -/
def State.draw (s : State) (p : Canvas → Canvas) : State := s.commit (p s.canvas)

/-- Pixel `(x, y)` of the state's framebuffer. -/
def State.pixel (s : State) (x y : Nat) : Bool := s.fb.pixel x y

/-- Byte `i` of the state's framebuffer. -/
def State.fbByte (s : State) (i : Nat) : Byte := s.fb.read i

/-! ## The response -/

/-- The code of a status (R76). -/
def Status.code : Status → Byte
  | .ok => 0x00
  | .fail => 0x01
  | .rejected => 0x02

/-- The 16-bit response word: `STATUS` in bits 15:8, `VALUE` in bits 7:0 (R76). -/
def Response.word (r : Response) : BitVec 16 := r.status.code ++ r.value

/-- `respond(status, value)`: deliver the command's response word (R8, R76). -/
def State.respond (s : State) (status : Status) (value : Byte) : State :=
  { s with responses := s.responses ++ [⟨status, value⟩] }

/-- The response of a rejected word or option combination: nothing else changes (R77, R222). -/
def State.reject (s : State) : State := s.respond .rejected 0x00

/-! ## Source memory and the cursor -/

/-- `MemRead(addr, 1)`: the byte of SRC at `addr mod 2^16` (R48). -/
def State.memRead (s : State) (addr : Nat) : Byte := s.src.read (addr % SRCSIZE)

/-- HOST stores a byte in SRC (R48). -/
def State.srcWrite (s : State) (addr : SrcAddr) (v : Byte) : State :=
  { s with src := s.src.write addr.toNat v }

/-- Write of `CUR_X` and `CUR_Y` (R21, R22). -/
def State.setCursor (s : State) (x y : Nat) : State :=
  { s with curX := BitVec.ofNat 7 x, curY := BitVec.ofNat 3 y }

/-! ## The transport port -/

/-- What the TRANSPORT answers to the next `Send`: the answer given in the state, else a free value (R55). -/
def State.answer (s : State) : SendResult :=
  match s.answers with
  | a :: _ => a
  | [] => sendAnswer s.draws

/-- `Send(bytes, is_data)`: append the frame, with the TRANSPORT's answer, to `TX` (R55, R28). -/
def State.send (s : State) (kind : FrameKind) (bytes : List Byte) : State :=
  { s with tx := s.tx ++ [⟨kind, bytes, s.answer⟩], answers := s.answers.tail, draws := s.draws + 1 }

/-- The status a `Send`'s answer gives its command (R56). -/
def sendStatus : SendResult → Status
  | .ok => .ok
  | .fail => .fail

/-! ## Reset -/

/-- The hardware reset (R240): `FB`, `CONTRAST` and `BIAS` as drawn, cursor, `BUSY`, `TX` and the in-flight marker
cleared; SRC and the parameters are not affected. -/
def State.hardwareReset (s : State) (d : ResetDraw) : State :=
  { s with
    fb := Memory.load [] 0 (d.fb.take FBSIZE)
    curX := 0
    curY := 0
    busy := false
    contrast := d.contrast
    bias := d.bias
    tx := []
    inFlight := none }

end Sys2Proof.Machine
end

