-- ==== Sys2Proof/Machine/Flags.lean ====
section
/-! DEFINITION. `BUSY`, the block's only flag (spec/10_state.md R24): the busy test, its setting before a
non-blocking transfer and its clearing by the completion notification (spec/20_memory.md R56, spec/60_exceptions.md
R226). There are no condition codes. -/

namespace Sys2Proof.Machine

/-- The busy test: `NONBLOCKING` and `BUSY = 1` (R56, R223). -/
def State.transportBusy (s : State) : Bool := s.busy && s.cfg.nonBlocking

/-- `BUSY` and the in-flight marker as set "immediately before initiating a non-blocking transfer": the entry about
to be appended to `TX` is the one in flight (R56, R29). In the blocking configuration nothing is written. -/
def State.beginTransfer (s : State) : State :=
  { s with
    busy := s.busy || s.cfg.nonBlocking
    inFlight := if s.cfg.nonBlocking then some s.tx.length else s.inFlight }

/-- The completion notification (R226): where it is enabled, `BUSY` and the in-flight marker are cleared and nothing
else changes; elsewhere the event does not exist (notes/assumptions/9.md). -/
def State.completeTransfer (s : State) : State :=
  if s.transportBusy then { s with busy := false, inFlight := none } else s

/-- `GuardedSend(bytes, is_data)`: fail fast when busy, else set `BUSY` if non-blocking and send (R56). -/
def State.guardedSend (s : State) (kind : FrameKind) (bytes : List Byte) : State × Status :=
  if s.transportBusy then (s, .fail) else (s.beginTransfer.send kind bytes, sendStatus s.answer)

/-- `s <- GuardedSend(...); respond(s, 0x00)`, the end of every sending command (R104, R203 to R207). -/
def State.sendAndRespond (s : State) (kind : FrameKind) (bytes : List Byte) : State :=
  (s.guardedSend kind bytes).1.respond (s.guardedSend kind bytes).2 0x00

end Sys2Proof.Machine
end

