-- ==== Sys2Proof/Machine/Operands.lean ====
section
/-! DEFINITION. Operand forms: font and alignment codes (spec/30_encoding.md R83, R84; spec/43_text.md R170, R174),
printable characters (R171), the clamps of contrast and bias (spec/44_device_control.md R208), exact division
(spec/00_scope.md R6). Every operand byte enters its rule zero-extended, by `BitVec.toNat` (R72). -/

namespace Sys2Proof.Machine

open Config

/-- The three fonts (R50, R170). -/
inductive Font where
  | small
  | medium
  | large
deriving DecidableEq, Repr

/-- The font a `FONT` code names; code 3 is reserved (R83). -/
def fontOfCode (code : BitVec 2) : Option Font :=
  match code.toNat with
  | 0 => some .small
  | 1 => some .medium
  | 2 => some .large
  | _ => none

/-- `FW`, the glyph width in pixels (R170). -/
def Font.width : Font → Nat
  | .small => 4
  | .medium => 5
  | .large => 6

/-- `NB`, the bytes per glyph in ROM (R170). -/
def Font.romBytes : Font → Nat
  | .small => 3
  | .medium => 5
  | .large => 6

/-- `SH(font, ALIGN)`, none where R174 marks the pair unsupported. -/
def alignShift (f : Font) (align : BitVec 2) : Option Nat :=
  match f, align.toNat with
  | _, 0 => some 0
  | .small, 1 => some 2
  | .small, 2 => some 1
  | .medium, 1 => some 1
  | _, _ => none

/-- A character code with a glyph: 0x20 to 0x7E (R171). -/
def printable (ch : Byte) : Bool := 0x20 ≤ ch.toNat && ch.toNat - 0x20 < NGLYPH

/-- `ClampContrast` (R208): saturation to 0x7F. -/
def clampContrast (v : Byte) : BitVec 7 := BitVec.ofNat 7 (min v.toNat 0x7F)

/-- `ClampBias` (R208): saturation to 7. -/
def clampBias (v : Byte) : BitVec 3 := BitVec.ofNat 3 (min v.toNat 7)

/-- `floor_div(n, d)` for `d > 0` (R6). -/
def floorDiv (n d : Int) : Int := n / d

/-- `ceil_div(n, d)` for `d > 0` (R6). -/
def ceilDiv (n d : Int) : Int := -((-n) / d)

/-- `abs(a - b)` of two naturals. -/
def distance (a b : Nat) : Nat := max a b - min a b

end Sys2Proof.Machine
end

