-- ==== Sys2Proof/Machine/Device.lean ====
section
/-! DEFINITION. The device-control commands INIT, INVERT, SLEEP, CONTRAST, BIAS and their command frames
(spec/44_device_control.md). -/

namespace Sys2Proof.Machine

/-- The default `CMD_*` values of R201, those of the PCD8544 (notes/assumptions/14.md); no rule depends on them. -/
def defaultCommandBytes : CommandBytes where
  ext := 0x21
  bias := 0x10
  vop := 0x80
  normal := 0x20
  setX := 0x80
  setY := 0x40
  dispNormal := 0x0C
  dispInverse := 0x0D
  powerDown := 0x24

/-- The byte `CMD_BIAS | BIAS` (R200, R202). -/
def State.biasByte (s : State) : Byte := s.cfg.cmd.bias ||| s.bias.setWidth 8

/-- The byte `CMD_VOP | CONTRAST` (R200, R202). -/
def State.vopByte (s : State) : Byte := s.cfg.cmd.vop ||| s.contrast.setWidth 8

/-- `InitSequence()`, from the registers as they stand (R202). -/
def State.initSequence (s : State) : List Byte :=
  [ s.cfg.cmd.ext, s.biasByte, s.vopByte, s.cfg.cmd.normal, s.cfg.cmd.setX ||| 0, s.cfg.cmd.setY ||| 0,
    s.cfg.cmd.dispNormal ]

/-- The busy test made first by the commands that write a register (R203, R206, R207): busy, the command responds FAIL
and changes nothing; else it goes on. -/
def State.unlessBusy (s : State) (go : State → State) : State :=
  if s.transportBusy then s.respond .fail 0x00 else go s

/-- INIT (R203). -/
def execInit (contrast bias : Byte) (s : State) : Host.Outcome State Fault Refusal :=
  .next (s.unlessBusy fun s =>
    let s' := { s with contrast := clampContrast contrast, bias := clampBias bias }
    s'.sendAndRespond .command s'.initSequence)

/-- INVERT (R204). -/
def execInvert (v : Bool) (s : State) : Host.Outcome State Fault Refusal :=
  .next (s.sendAndRespond .command [if v then s.cfg.cmd.dispInverse else s.cfg.cmd.dispNormal])

/-- SLEEP (R205). -/
def execSleep (v : Bool) (s : State) : Host.Outcome State Fault Refusal :=
  .next (s.sendAndRespond .command (if v then [s.cfg.cmd.powerDown] else s.initSequence))

/-- CONTRAST (R206). -/
def execContrast (value : Byte) (s : State) : Host.Outcome State Fault Refusal :=
  .next (s.unlessBusy fun s =>
    let s' := { s with contrast := clampContrast value }
    s'.sendAndRespond .command [s'.cfg.cmd.ext, s'.vopByte, s'.cfg.cmd.normal])

/-- BIAS (R207). -/
def execBias (value : Byte) (s : State) : Host.Outcome State Fault Refusal :=
  .next (s.unlessBusy fun s =>
    let s' := { s with bias := clampBias value }
    s'.sendAndRespond .command [s'.cfg.cmd.ext, s'.biasByte, s'.cfg.cmd.normal])

end Sys2Proof.Machine
end

