-- ==== Sys2Proof/Syntax.lean ====
section
/-! DEFINITION. The 24 commands of spec/30_encoding.md R75, one constructor each, with the operands of R71 to R74. -/

namespace Sys2Proof

/-- The `DIR` modifier of BSPAN (R73): 0 from the low bit upward, 1 from the high bit downward. -/
inductive SpanDir where
  | fromLow
  | fromHigh
deriving DecidableEq, Repr

/-- One command. Operands stand in the order: modifiers, then operand bytes in the order of R75. -/
inductive Instr where
  | fill (c : Colour)
  | setpx (c : Colour) (x y : Byte)
  | getpx (x y : Byte)
  | bspan (c : Colour) (dir : SpanDir) (byteIndex : BitVec 16) (bitCount : Byte)
  | refresh
  | hline (c : Colour) (x y length : Byte)
  | vline (c : Colour) (x y length : Byte)
  | line (c : Colour) (x0 y0 x1 y1 : Byte)
  | rect (c : Colour) (x0 x1 y0 y1 : Byte)
  | frect (c : Colour) (x0 x1 y0 y1 : Byte)
  | tri (c : Colour) (x0 y0 x1 y1 x2 y2 : Byte)
  | ftri (c : Colour) (x0 y0 x1 y1 x2 y2 : Byte)
  | circle (c : Colour) (xc yc r : Byte)
  | pcircle (c : Colour) (xc yc r : Byte) (corners : BitVec 4)
  | blit (addr : SrcAddr) (x0 y0 width height : Byte)
  | blitf (addr : SrcAddr) (x0 y0 width height : Byte)
  | setcur (x y : Byte)
  | printc (tinv : Bool) (font align : BitVec 2) (addr : SrcAddr) (len : Byte)
  | printat (tinv : Bool) (font : BitVec 2) (addr : SrcAddr) (len x y : Byte)
  | init (contrast bias : Byte)
  | invert (v : Bool)
  | sleep (v : Bool)
  | contrast (value : Byte)
  | bias (value : Byte)
deriving DecidableEq, Repr

end Sys2Proof
end

