-- ==== Sys2Proof/Machine/Framebuffer.lean ====
section
/-! DEFINITION. The framebuffer commands FILL, SETPX, GETPX, BSPAN, REFRESH (spec/40_framebuffer.md). -/

namespace Sys2Proof.Machine

open Config

/-- Every byte of the framebuffer becomes 0xFF or 0x00 (R100). -/
def Canvas.fill (c : Colour) (cv : Canvas) : Canvas := forUp FBSIZE (fun i => Canvas.store i (solidByte c)) cv

/-- FILL (R100). -/
def execFill (c : Colour) (s : State) : Host.Outcome State Fault Refusal :=
  .next ((s.draw (Canvas.fill c)).respond .ok 0x00)

/-- SETPX (R101). -/
def execSetpx (c : Colour) (x y : Byte) (s : State) : Host.Outcome State Fault Refusal :=
  .next ((s.draw (Canvas.putPixel x.toNat y.toNat c)).respond .ok 0x00)

/-- The `VALUE` GETPX responds with (R102). -/
def getpxValue (x y : Nat) (s : State) : Byte :=
  if x < W ∧ y < H then (if s.pixel x y then 0x01 else 0x00) else INVALID

/-- GETPX (R102). -/
def execGetpx (x y : Byte) (s : State) : Host.Outcome State Fault Refusal :=
  .next (s.respond .ok (getpxValue x.toNat y.toNat s))

/-- The bank-addressed write inside one byte, from either end of it (R103). -/
def Canvas.bankSpan (byteIndex bitCount : Nat) (fromHigh : Bool) (c : Colour) (cv : Canvas) : Canvas :=
  if byteIndex < FBSIZE ∧ bitCount < 8 then
    cv.applyMask byteIndex (if fromHigh then spanMask (8 - bitCount) bitCount else spanMask 0 bitCount) c
  else cv

/-- BSPAN, the span counted from the low bit upward or from the high bit downward (R103). -/
def execBspan (c : Colour) (dir : SpanDir) (byteIndex : BitVec 16) (bitCount : Byte) (s : State) :
    Host.Outcome State Fault Refusal :=
  .next ((s.draw (Canvas.bankSpan byteIndex.toNat bitCount.toNat (dir = .fromHigh) c)).respond .ok 0x00)

/-- The data frame: `FB[0]` to `FB[503]` in ascending order (R57). -/
def State.frameBytes (s : State) : List Byte := (List.range FBSIZE).map s.fbByte

/-- REFRESH (R104). -/
def execRefresh (s : State) : Host.Outcome State Fault Refusal :=
  .next (s.sendAndRespond .data s.frameBytes)

end Sys2Proof.Machine
end

