-- ==== Sys2Proof/Machine/Rasterizer.lean ====
section
/-! DEFINITION. The rasterizer commands HLINE to PCIRCLE and the procedures they share
(spec/41_rasterizer.md). Every procedure runs on the canvas; all arithmetic is exact (R135). -/

namespace Sys2Proof.Machine

open Config

/-! ## The shared procedures -/

/-- `for x in xl .. xr: ApplyMask(idx + x, m, c)`, one bank row of a block (R121). -/
def Canvas.maskColumns (idx xl xr : Nat) (m : Byte) (c : Colour) (cv : Canvas) : Canvas :=
  forUp (xr + 1 - xl) (fun i => Canvas.applyMask (idx + (xl + i)) m c) cv

/-- `for x in xl .. xr: FB[idx + x] <- 0xFF or 0x00`, one whole bank row of a block (R121). -/
def Canvas.storeColumns (idx xl xr : Nat) (c : Colour) (cv : Canvas) : Canvas :=
  forUp (xr + 1 - xl) (fun i => Canvas.store (idx + (xl + i)) (solidByte c)) cv

/-- Phases (b) and (c) of `BankFill`: `n` rows from a bank boundary, whole banks first, then the partial last bank;
`idx` is the byte index of column 0 of the first of these banks (R121). -/
def Canvas.fillFromBank (idx xl xr n : Nat) (c : Colour) (cv : Canvas) : Canvas :=
  let whole := forUp (n / 8) (fun j => Canvas.storeColumns (idx + j * W) xl xr c) cv
  if 0 < n % 8 then whole.maskColumns (idx + n / 8 * W) xl xr (spanMask 0 (n % 8)) c else whole

/-- `BankFill(xl, xr, yt, n, c)`, the three-phase fill of columns `xl..xr` and rows `yt..yt+n-1` (R121). -/
def Canvas.bankFill (xl xr yt n : Nat) (c : Colour) (cv : Canvas) : Canvas :=
  let start := yt % 8
  let idx := yt / 8 * W
  if start = 0 then cv.fillFromBank idx xl xr n c
  else
    let k := min n (8 - start)
    (cv.maskColumns idx xl xr (spanMask start k) c).fillFromBank (idx + W) xl xr (n - k) c

/-- `HLine(x, y, n, c)` (R122). -/
def Canvas.hLine (x y : Nat) (n : Int) (c : Colour) (cv : Canvas) : Canvas :=
  if W ≤ x ∨ H ≤ y ∨ n ≤ 0 then cv
  else forUp (min n.toNat (W - x)) (fun i => Canvas.applyMask (pixelIndex x y + i) (pixelMask y) c) cv

/-- `VLine(x, y, n, c)` (R123). -/
def Canvas.vLine (x y : Nat) (n : Int) (c : Colour) (cv : Canvas) : Canvas :=
  if W ≤ x ∨ H ≤ y ∨ n ≤ 0 then cv else cv.bankFill x x y (min n.toNat (H - y)) c

/-- The perpendicular coordinate, the error term and the canvas of the Bresenham loop (R126). -/
structure LineWalk where
  y : Int
  err : Int
  canvas : Canvas

/-- One iteration of the Bresenham loop at major coordinate `x` (R126). -/
def LineWalk.step (steep : Bool) (dx dy : Nat) (ystep : Int) (c : Colour) (x : Nat) (l : LineWalk) : LineWalk :=
  let canvas := if steep then l.canvas.putPixel l.y x c else l.canvas.putPixel x l.y c
  let err := l.err - dy
  if err < 0 then ⟨l.y + ystep, err + dx, canvas⟩ else ⟨l.y, err, canvas⟩

/-- The Bresenham loop from `(x0, y0)` to `(x1, y1)`, `x0 ≤ x1`, in the exchanged roles when `steep` (R126). -/
def Canvas.bresenham (steep : Bool) (x0 y0 x1 y1 : Nat) (c : Colour) (cv : Canvas) : Canvas :=
  let dx := x1 - x0
  let dy := distance y0 y1
  let ystep : Int := if y0 < y1 then 1 else -1
  (forUp (dx + 1) (fun i => LineWalk.step steep dx dy ystep c (x0 + i)) ⟨y0, (dx / 2 : Nat), cv⟩).canvas

/-- The Bresenham loop with the endpoints ordered by ascending `x` (R126). -/
def Canvas.bresenhamOrdered (steep : Bool) (x0 y0 x1 y1 : Nat) (c : Colour) (cv : Canvas) : Canvas :=
  if x1 < x0 then cv.bresenham steep x1 y1 x0 y0 c else cv.bresenham steep x0 y0 x1 y1 c

/-- `Line(x0, y0, x1, y1, c)` (R126). -/
def Canvas.line (x0 y0 x1 y1 : Nat) (c : Colour) (cv : Canvas) : Canvas :=
  if y0 = y1 then cv.hLine (min x0 x1) y0 (distance x0 x1 + 1) c
  else if x0 = x1 then cv.vLine x0 (min y0 y1) (distance y0 y1 + 1) c
  else if distance x0 x1 < distance y0 y1 then cv.bresenhamOrdered true y0 x0 y1 x1 c
  else cv.bresenhamOrdered false x0 y0 x1 y1 c

/-- The outline of the rectangle with the given sorted corners: four segments (R128). -/
def Canvas.outline (xl xr yt yb : Nat) (c : Colour) (cv : Canvas) : Canvas :=
  (((cv.hLine xl yt (xr - xl + 1 : Nat) c).hLine xl yb (xr - xl + 1 : Nat) c).vLine
    xl yt (yb - yt + 1 : Nat) c).vLine xr yt (yb - yt + 1 : Nat) c

/-- The filled rectangle with the given sorted corners, clipped (R129). -/
def Canvas.block (xl xr yt yb : Nat) (c : Colour) (cv : Canvas) : Canvas :=
  if W ≤ xl ∨ H ≤ yt then cv
  else cv.bankFill xl (min xr (W - 1)) yt (min yb (H - 1) - yt + 1) c

/-! ## The filled triangle -/

/-- `Span(y, pa, na, da, pb, nb, db, c)`: the columns between two exact bounds, the left one rounded up and the right
one down (R131). -/
def Canvas.span (y : Nat) (pa na da pb nb db : Int) (c : Colour) (cv : Canvas) : Canvas :=
  let aIsLeft := (pa * da + na) * db ≤ (pb * db + nb) * da
  let left := if aIsLeft then pa + ceilDiv na da else pb + ceilDiv nb db
  let right := if aIsLeft then pb + floorDiv nb db else pa + floorDiv na da
  if left ≤ right then cv.hLine left.toNat y (right - left + 1) c else cv

/-- The two accumulators and the canvas of a scan-fill loop (R131). -/
structure Scan where
  sa : Int
  sb : Int
  canvas : Canvas

/-- One row of a scan-fill loop: bounds `pa + sa/da` and `pb + sb/db`, then both accumulators advance (R131). -/
def Scan.row (pa dxa da pb dxb db : Int) (c : Colour) (y : Nat) (t : Scan) : Scan :=
  ⟨t.sa + dxa, t.sb + dxb, t.canvas.span y pa t.sa da pb t.sb db c⟩

/-- The scan-fill of a triangle whose vertices are sorted by ascending y and not all on one row (R131). -/
def Canvas.scanTriangle (x0 y0 x1 y1 x2 y2 : Nat) (c : Colour) (cv : Canvas) : Canvas :=
  let dx01 : Int := x1 - x0
  let dy01 : Int := y1 - y0
  let dx02 : Int := x2 - x0
  let dy02 : Int := y2 - y0
  let dx12 : Int := x2 - x1
  let dy12 : Int := y2 - y1
  let upperRows := if y1 = y2 then y1 + 1 - y0 else y1 - y0
  let upper := forUp upperRows (fun i => Scan.row x0 dx01 dy01 x0 dx02 dy02 c (y0 + i)) ⟨0, 0, cv⟩
  let yb := y0 + upperRows
  (forUp (y2 + 1 - yb) (fun i => Scan.row x1 dx12 dy12 x0 dx02 dy02 c (yb + i))
    ⟨dx12 * ((yb : Int) - y1), dx02 * ((yb : Int) - y0), upper.canvas⟩).canvas

/-- Compare-and-swap of two vertices by `y`, ties keeping their order (R131). -/
def orderByY (p q : Nat × Nat) : (Nat × Nat) × (Nat × Nat) := if q.2 < p.2 then (q, p) else (p, q)

/-- The three vertices sorted by ascending `y`: compare-and-swap 0-1, 1-2, 0-1 (R131). -/
def sortVertices (p0 p1 p2 : Nat × Nat) : (Nat × Nat) × (Nat × Nat) × (Nat × Nat) :=
  let a := orderByY p0 p1
  let b := orderByY a.2 p2
  let d := orderByY a.1 b.1
  (d.1, d.2, b.2)

/-- The filled triangle of three vertices (R131). -/
def Canvas.fillTriangle (p0 p1 p2 : Nat × Nat) (c : Colour) (cv : Canvas) : Canvas :=
  let v := sortVertices p0 p1 p2
  let v0 := v.1
  let v1 := v.2.1
  let v2 := v.2.2
  if v0.2 = v2.2 then
    let a := min v0.1 (min v1.1 v2.1)
    let b := max v0.1 (max v1.1 v2.1)
    cv.hLine a v0.2 (b - a + 1 : Nat) c
  else cv.scanTriangle v0.1 v0.2 v1.1 v1.2 v2.1 v2.2 c

/-! ## Circles -/

/-- The eight symmetric pixels of one step of the walk, each pair gated by its quadrant's bit of the corner mask:
bit 0 upper left, bit 1 upper right, bit 2 lower right, bit 3 lower left (R132). -/
def Canvas.circlePoints (xc yc x y : Int) (q : BitVec 4) (c : Colour) (cv : Canvas) : Canvas :=
  let cv := if q.getLsbD 0 then (cv.putPixel (xc - x) (yc - y) c).putPixel (xc - y) (yc - x) c else cv
  let cv := if q.getLsbD 1 then (cv.putPixel (xc + x) (yc - y) c).putPixel (xc + y) (yc - x) c else cv
  let cv := if q.getLsbD 2 then (cv.putPixel (xc + x) (yc + y) c).putPixel (xc + y) (yc + x) c else cv
  if q.getLsbD 3 then (cv.putPixel (xc - x) (yc + y) c).putPixel (xc - y) (yc + x) c else cv

/-- The midpoint walk from `(x, y)` with discriminant `d`, at most `fuel` steps (R132). -/
def Canvas.circleFrom (xc yc : Int) (q : BitVec 4) (c : Colour) : Nat → Int → Int → Int → Canvas → Canvas
  | 0, _, _, _, cv => cv
  | fuel + 1, x, y, d, cv =>
    if x ≤ y then
      let drawn := cv.circlePoints xc yc x y q c
      if d < 0 then Canvas.circleFrom xc yc q c fuel (x + 1) y (d + 2 * x + 3) drawn
      else Canvas.circleFrom xc yc q c fuel (x + 1) (y - 1) (d + 2 * (x - y) + 5) drawn
    else cv

/-- `CircleWalk(xc, yc, r, q, c)` (R132): `x` rises by 1 from 0 and `y` never exceeds `r`, so `r + 1` steps suffice. -/
def Canvas.circleWalk (xc yc r : Nat) (q : BitVec 4) (c : Colour) (cv : Canvas) : Canvas :=
  cv.circleFrom xc yc q c (r + 1) 0 r (1 - r)

/-! ## The commands -/

/-- HLINE (R124). -/
def execHline (c : Colour) (x y length : Byte) (s : State) : Host.Outcome State Fault Refusal :=
  .next ((s.draw (Canvas.hLine x.toNat y.toNat length.toNat c)).respond .ok 0x00)

/-- VLINE (R125). -/
def execVline (c : Colour) (x y length : Byte) (s : State) : Host.Outcome State Fault Refusal :=
  .next ((s.draw (Canvas.vLine x.toNat y.toNat length.toNat c)).respond .ok 0x00)

/-- LINE (R127). -/
def execLine (c : Colour) (x0 y0 x1 y1 : Byte) (s : State) : Host.Outcome State Fault Refusal :=
  .next ((s.draw (Canvas.line x0.toNat y0.toNat x1.toNat y1.toNat c)).respond .ok 0x00)

/-- RECT, its corners auto-sorted (R128). -/
def execRect (c : Colour) (x0 x1 y0 y1 : Byte) (s : State) : Host.Outcome State Fault Refusal :=
  .next ((s.draw (Canvas.outline (min x0.toNat x1.toNat) (max x0.toNat x1.toNat) (min y0.toNat y1.toNat)
    (max y0.toNat y1.toNat) c)).respond .ok 0x00)

/-- FRECT, its corners auto-sorted (R129). -/
def execFrect (c : Colour) (x0 x1 y0 y1 : Byte) (s : State) : Host.Outcome State Fault Refusal :=
  .next ((s.draw (Canvas.block (min x0.toNat x1.toNat) (max x0.toNat x1.toNat) (min y0.toNat y1.toNat)
    (max y0.toNat y1.toNat) c)).respond .ok 0x00)

/-- The three lines of an outline triangle (R130). -/
def Canvas.triangle (x0 y0 x1 y1 x2 y2 : Nat) (c : Colour) (cv : Canvas) : Canvas :=
  ((cv.line x0 y0 x1 y1 c).line x1 y1 x2 y2 c).line x2 y2 x0 y0 c

/-- TRI (R130). -/
def execTri (c : Colour) (x0 y0 x1 y1 x2 y2 : Byte) (s : State) : Host.Outcome State Fault Refusal :=
  .next ((s.draw (Canvas.triangle x0.toNat y0.toNat x1.toNat y1.toNat x2.toNat y2.toNat c)).respond .ok 0x00)

/-- FTRI (R131). -/
def execFtri (c : Colour) (x0 y0 x1 y1 x2 y2 : Byte) (s : State) : Host.Outcome State Fault Refusal :=
  .next ((s.draw (Canvas.fillTriangle (x0.toNat, y0.toNat) (x1.toNat, y1.toNat) (x2.toNat, y2.toNat) c)).respond
    .ok 0x00)

/-- CIRCLE: all four quadrants (R133). -/
def execCircle (c : Colour) (xc yc r : Byte) (s : State) : Host.Outcome State Fault Refusal :=
  .next ((s.draw (Canvas.circleWalk xc.toNat yc.toNat r.toNat 0b1111 c)).respond .ok 0x00)

/-- PCIRCLE: the quadrants of the corner mask (R134). -/
def execPcircle (c : Colour) (xc yc r : Byte) (corners : BitVec 4) (s : State) :
    Host.Outcome State Fault Refusal :=
  .next ((s.draw (Canvas.circleWalk xc.toNat yc.toNat r.toNat corners c)).respond .ok 0x00)

end Sys2Proof.Machine
end

