-- ==== Sys2Proof/Machine/Blitter.lean ====
section
/-! DEFINITION. The blitter commands BLIT and BLITF (spec/42_blitter.md). -/

namespace Sys2Proof.Machine

open Config

/-- `Clip(x0, y0, width, height)`: the effective width and height (R160). -/
def clip (x0 y0 width height : Nat) : Nat × Nat :=
  if W ≤ x0 ∨ H ≤ y0 then (0, 0) else (min width (W - x0), min height (H - y0))

/-- `BlitPixels(get, x0, y0, ew, eh)`: the opaque pixel-by-pixel copy (R161). -/
def Canvas.blitPixels (get : Nat → Nat → Bool) (x0 y0 : Nat) (e : Nat × Nat) (cv : Canvas) : Canvas :=
  forUp e.2 (fun j => forUp e.1 (fun i => Canvas.putPixel (x0 + i : Nat) (y0 + j : Nat) (get i j))) cv

/-- `SrcBit(base, w, i, j)`: pixel `(i, j)` of the bitmap of width `w` at `base` in SRC (R49). -/
def State.srcBit (s : State) (base w i j : Nat) : Bool := (s.memRead (base + j / 8 * w + i)).getLsbD (j % 8)

/-- BLIT (R162). -/
def execBlit (addr : SrcAddr) (x0 y0 width height : Byte) (s : State) : Host.Outcome State Fault Refusal :=
  .next ((s.draw (Canvas.blitPixels (s.srcBit addr.toNat width.toNat) x0.toNat y0.toNat
    (clip x0.toNat y0.toNat width.toNat height.toNat))).respond .ok 0x00)

/-- The whole-byte copy of the aligned path: `get k i` is the source byte of bank row `k`, column `i` (R163). -/
def Canvas.blitBytes (get : Nat → Nat → Byte) (x0 y0 : Nat) (e : Nat × Nat) (cv : Canvas) : Canvas :=
  forUp (e.2 / 8) (fun k => forUp e.1 (fun i => Canvas.store ((y0 / 8 + k) * W + x0 + i) (get k i))) cv

/-- The aligned blit: a no-op when `y0` or `height` is not a multiple of 8 (R163). -/
def Canvas.blitAligned (get : Nat → Nat → Byte) (x0 y0 width height : Nat) (cv : Canvas) : Canvas :=
  if y0 % 8 ≠ 0 ∨ height % 8 ≠ 0 then cv else cv.blitBytes get x0 y0 (clip x0 y0 width height)

/-- BLITF (R163). -/
def execBlitf (addr : SrcAddr) (x0 y0 width height : Byte) (s : State) : Host.Outcome State Fault Refusal :=
  .next ((s.draw (Canvas.blitAligned (fun k i => s.memRead (addr.toNat + k * width.toNat + i)) x0.toNat y0.toNat
    width.toNat height.toNat)).respond .ok 0x00)

end Sys2Proof.Machine
end

