-- ==== Sys2Proof/Machine/Text.lean ====
section
/-! DEFINITION. The glyph decoder and the text commands SETCUR, PRINTC, PRINTAT (spec/43_text.md). -/

namespace Sys2Proof.Machine

open Config

/-! ## The glyph decoder -/

/-- `FontRead(f, g, k)`: byte `k` of glyph `g` of font `f`'s ROM, for `g < NGLYPH`, `k < NB(f)` (R50). -/
def fontRead (cfg : Config) (f : Font) (g k : Nat) : Byte :=
  match f with
  | .small => cfg.fontSmall.toList.getD (g * 3 + k) 0
  | .medium => cfg.fontMedium.toList.getD (g * 5 + k) 0
  | .large => cfg.fontLarge.toList.getD (g * 6 + k) 0

/-- The four columns of a packed small glyph: the 6-bit groups of the 24-bit stream whose least significant byte is
`b0`, lowest group first (R172). -/
def unpackSmall (b0 b1 b2 : Byte) : List (BitVec 6) :=
  let stream : BitVec 24 := b2 ++ b1 ++ b0
  [stream.extractLsb' 0 6, stream.extractLsb' 6 6, stream.extractLsb' 12 6, stream.extractLsb' 18 6]

/-- The columns of a glyph as stored: unpacked for the small font (R172), masked to the significant bits for the
others (R173). -/
def glyphColumns (cfg : Config) (f : Font) (g : Nat) : List Byte :=
  match f with
  | .small =>
    (unpackSmall (fontRead cfg .small g 0) (fontRead cfg .small g 1) (fontRead cfg .small g 2)).map
      (BitVec.setWidth 8)
  | .medium => (List.range 5).map fun k => fontRead cfg .medium g k &&& 0x7F
  | .large => (List.range 6).map fun k => fontRead cfg .large g k

/-- `DecodeGlyph(font, g, sh, inv)`: decode, then shift every column (R174), then complement every column if
inversion is requested (R175, R176). -/
def decodeGlyph (cfg : Config) (f : Font) (g sh : Nat) (inv : Bool) : List Byte :=
  (glyphColumns cfg f g).map fun (col : Byte) => if inv then (col <<< sh) ^^^ (0xFF : Byte) else col <<< sh

/-- The text of a printer command: the `len` bytes of SRC from `addr` on (R182). -/
def State.text (s : State) (addr len : Nat) : List Byte := (List.range len).map fun j => s.memRead (addr + j)

/-! ## SETCUR -/

/-- SETCUR: an out-of-range position is ignored as a whole (R177). -/
def execSetcur (x y : Byte) (s : State) : Host.Outcome State Fault Refusal :=
  .next ((if x.toNat < W ∧ y.toNat < NBANK then s.setCursor x.toNat y.toNat else s).respond .ok 0x00)

/-! ## PRINTC -/

/-- The canvas and the cursor while PRINTC runs. -/
structure Printer where
  canvas : Canvas
  x : Nat
  y : Nat
deriving DecidableEq, Repr

/-- `NextLine()` (R178). -/
def Printer.nextLine (p : Printer) : Printer := ⟨p.canvas, 0, if NBANK ≤ p.y + 1 then 0 else p.y + 1⟩

/-- The whole-byte store of a glyph's columns at the cursor, and the cursor's advance (R179). A row `NBANK` or beyond,
which R26 excludes, has no byte in the framebuffer (R20, R44): there the store lands nowhere and the cursor advances
(DESIGN CHOICE, notes/assumptions/11.md). -/
def Printer.putGlyph (fw : Nat) (cols : List Byte) (p : Printer) : Printer :=
  ⟨if p.y < NBANK then forUp fw (fun k => Canvas.store (p.y * W + p.x + k) (cols.getD k 0)) p.canvas else p.canvas,
    p.x + fw, p.y⟩

/-- The automatic wrap, tested before a glyph is drawn (R178, R179). -/
def Printer.wrap (fw : Nat) (p : Printer) : Printer := if W < p.x + fw then p.nextLine else p

/-- One character of PRINTC (R179); `glyph g` gives the columns of glyph `g`. -/
def Printer.char (fw : Nat) (glyph : Nat → List Byte) (ch : Byte) (p : Printer) : Printer :=
  if ch = NEWLINE then p.nextLine
  else if printable ch then (p.wrap fw).putGlyph fw (glyph (ch.toNat - 0x20))
  else p

/-- The characters of PRINTC in ascending order (R179, R182). -/
def Printer.print (fw : Nat) (glyph : Nat → List Byte) (text : List Byte) (p : Printer) : Printer :=
  text.foldl (fun p ch => p.char fw glyph ch) p

/-- The printer at the state's cursor. -/
def State.printer (s : State) : Printer := ⟨s.canvas, s.curX.toNat, s.curY.toNat⟩

/-- PRINTC with its options resolved (R179). -/
def State.printText (s : State) (f : Font) (sh : Nat) (inv : Bool) (addr len : Nat) : State :=
  let p := s.printer.print f.width (fun g => decodeGlyph s.cfg f g sh inv) (s.text addr len)
  ((s.commit p.canvas).setCursor p.x p.y).respond .ok 0x00

/-- PRINTC; an unsupported font or alignment is REJECTED before anything else (R179, R181). -/
def execPrintc (tinv : Bool) (font align : BitVec 2) (addr : SrcAddr) (len : Byte) (s : State) :
    Host.Outcome State Fault Refusal :=
  .next (match fontOfCode font with
    | none => s.reject
    | some f =>
      match alignShift f align with
      | none => s.reject
      | some sh => s.printText f sh tinv addr.toNat len.toNat)

/-! ## PRINTAT -/

/-- The canvas and the local position while PRINTAT runs (R180). -/
structure Placer where
  canvas : Canvas
  px : Nat
  py : Nat
deriving DecidableEq, Repr

/-- `LocalNextLine()` (R180). -/
def Placer.nextLine (p : Placer) : Placer := ⟨p.canvas, 0, if H ≤ p.py + 8 then 0 else p.py + 8⟩

/-- The blit of a glyph as an opaque bitmap `fw` wide and 8 high, and the position's advance (R180). -/
def Placer.putGlyph (fw : Nat) (cols : List Byte) (p : Placer) : Placer :=
  ⟨p.canvas.blitPixels (fun i r => (cols.getD i 0).getLsbD r) p.px p.py (clip p.px p.py fw 8), p.px + fw, p.py⟩

/-- The automatic wrap, tested before a glyph is drawn (R180). -/
def Placer.wrap (fw : Nat) (p : Placer) : Placer := if W < p.px + fw then p.nextLine else p

/-- One character of PRINTAT (R180). -/
def Placer.char (fw : Nat) (glyph : Nat → List Byte) (ch : Byte) (p : Placer) : Placer :=
  if ch = NEWLINE then p.nextLine
  else if printable ch then (p.wrap fw).putGlyph fw (glyph (ch.toNat - 0x20))
  else p

/-- The characters of PRINTAT in ascending order (R180, R182). -/
def Placer.print (fw : Nat) (glyph : Nat → List Byte) (text : List Byte) (p : Placer) : Placer :=
  text.foldl (fun p ch => p.char fw glyph ch) p

/-- PRINTAT with its font resolved (R180). -/
def State.placeText (s : State) (f : Font) (inv : Bool) (addr len x y : Nat) : State :=
  (s.commit (Placer.print f.width (fun g => decodeGlyph s.cfg f g 0 inv) (s.text addr len) ⟨s.canvas, x, y⟩).canvas).respond
    .ok 0x00

/-- PRINTAT; font code 3 is REJECTED before anything else (R180, R181). -/
def execPrintat (tinv : Bool) (font : BitVec 2) (addr : SrcAddr) (len x y : Byte) (s : State) :
    Host.Outcome State Fault Refusal :=
  .next (match fontOfCode font with
    | none => s.reject
    | some f => s.placeText f tinv addr.toNat len.toNat x.toNat y.toNat)

end Sys2Proof.Machine
end

