-- ==== Sys2Proof/Machine/Dispatch.lean ====
section
/-! DEFINITION. One arm per command of spec/30_encoding.md R75, in the table's order. -/

namespace Sys2Proof.Machine

/-- The meaning of each command. -/
def exec (i : Instr) (s : State) : Host.Outcome State Fault Refusal :=
  match i with
  | .fill c => Sys2Proof.Machine.execFill c s
  | .setpx c x y => Sys2Proof.Machine.execSetpx c x y s
  | .getpx x y => Sys2Proof.Machine.execGetpx x y s
  | .bspan c dir byteIndex bitCount => Sys2Proof.Machine.execBspan c dir byteIndex bitCount s
  | .refresh => Sys2Proof.Machine.execRefresh s
  | .hline c x y length => Sys2Proof.Machine.execHline c x y length s
  | .vline c x y length => Sys2Proof.Machine.execVline c x y length s
  | .line c x0 y0 x1 y1 => Sys2Proof.Machine.execLine c x0 y0 x1 y1 s
  | .rect c x0 x1 y0 y1 => Sys2Proof.Machine.execRect c x0 x1 y0 y1 s
  | .frect c x0 x1 y0 y1 => Sys2Proof.Machine.execFrect c x0 x1 y0 y1 s
  | .tri c x0 y0 x1 y1 x2 y2 => Sys2Proof.Machine.execTri c x0 y0 x1 y1 x2 y2 s
  | .ftri c x0 y0 x1 y1 x2 y2 => Sys2Proof.Machine.execFtri c x0 y0 x1 y1 x2 y2 s
  | .circle c xc yc r => Sys2Proof.Machine.execCircle c xc yc r s
  | .pcircle c xc yc r corners => Sys2Proof.Machine.execPcircle c xc yc r corners s
  | .blit addr x0 y0 width height => Sys2Proof.Machine.execBlit addr x0 y0 width height s
  | .blitf addr x0 y0 width height => Sys2Proof.Machine.execBlitf addr x0 y0 width height s
  | .setcur x y => Sys2Proof.Machine.execSetcur x y s
  | .printc tinv font align addr len => Sys2Proof.Machine.execPrintc tinv font align addr len s
  | .printat tinv font addr len x y => Sys2Proof.Machine.execPrintat tinv font addr len x y s
  | .init contrast bias => Sys2Proof.Machine.execInit contrast bias s
  | .invert v => Sys2Proof.Machine.execInvert v s
  | .sleep v => Sys2Proof.Machine.execSleep v s
  | .contrast value => Sys2Proof.Machine.execContrast value s
  | .bias value => Sys2Proof.Machine.execBias value s

end Sys2Proof.Machine
end

