-- ==== Sys2Proof/Decode.lean ====
section
/-! DEFINITION. Decoding and encoding of command words (spec/30_encoding.md R70 to R79). Decoding is total: every
64-bit word gives one command or is rejected by name (R77). -/

namespace Sys2Proof

/-- Why a word is undefined (R77, R78): its `OP` is reserved, or a bit its command requires to be 0 is 1. -/
inductive DecodeError where
  | reservedOpcode (op : Byte)
  | unusedBitSet (mnemonic : String)
deriving DecidableEq, Repr

/-- A row of R75: a word `w` selects the command iff `w & mask = match`. -/
structure OpcodeRow where
  mnemonic : String
  pattern : CommandWord
  mask : CommandWord
deriving DecidableEq, Repr

/-- The table of R75, in its order. -/
def opcodeTable : List OpcodeRow :=
  [ ⟨"FILL", 0x0100000000000000, 0xFFFEFFFFFFFFFFFF⟩,
    ⟨"SETPX", 0x0200000000000000, 0xFFFE0000FFFFFFFF⟩,
    ⟨"GETPX", 0x0300000000000000, 0xFFFF0000FFFFFFFF⟩,
    ⟨"BSPAN", 0x0400000000000000, 0xFFFC000000FFFFFF⟩,
    ⟨"REFRESH", 0x0500000000000000, 0xFFFFFFFFFFFFFFFF⟩,
    ⟨"HLINE", 0x1000000000000000, 0xFFFE000000FFFFFF⟩,
    ⟨"VLINE", 0x1100000000000000, 0xFFFE000000FFFFFF⟩,
    ⟨"LINE", 0x1200000000000000, 0xFFFE00000000FFFF⟩,
    ⟨"RECT", 0x1300000000000000, 0xFFFE00000000FFFF⟩,
    ⟨"FRECT", 0x1400000000000000, 0xFFFE00000000FFFF⟩,
    ⟨"TRI", 0x1500000000000000, 0xFFFE000000000000⟩,
    ⟨"FTRI", 0x1600000000000000, 0xFFFE000000000000⟩,
    ⟨"CIRCLE", 0x1700000000000000, 0xFFFE000000FFFFFF⟩,
    ⟨"PCIRCLE", 0x1800000000000000, 0xFFFE000000F0FFFF⟩,
    ⟨"BLIT", 0x2000000000000000, 0xFFFF000000000000⟩,
    ⟨"BLITF", 0x2100000000000000, 0xFFFF000000000000⟩,
    ⟨"SETCUR", 0x3000000000000000, 0xFFFF0000FFFFFFFF⟩,
    ⟨"PRINTC", 0x3100000000000000, 0xFF83000000FFFFFF⟩,
    ⟨"PRINTAT", 0x3200000000000000, 0xFFE30000000000FF⟩,
    ⟨"INIT", 0x4000000000000000, 0xFFFF0000FFFFFFFF⟩,
    ⟨"INVERT", 0x4100000000000000, 0xFFFEFFFFFFFFFFFF⟩,
    ⟨"SLEEP", 0x4200000000000000, 0xFFFEFFFFFFFFFFFF⟩,
    ⟨"CONTRAST", 0x4300000000000000, 0xFFFF00FFFFFFFFFF⟩,
    ⟨"BIAS", 0x4400000000000000, 0xFFFF00FFFFFFFFFF⟩ ]

/-- Bits 63:56 (R71). -/
def opcode (w : CommandWord) : Byte := w.extractLsb' 56 8
/-- Operand byte A, bits 47:40 (R71). -/
def opA (w : CommandWord) : Byte := w.extractLsb' 40 8
/-- Operand byte B, bits 39:32. -/
def opB (w : CommandWord) : Byte := w.extractLsb' 32 8
/-- Operand byte C, bits 31:24. -/
def opC (w : CommandWord) : Byte := w.extractLsb' 24 8
/-- Operand byte D, bits 23:16. -/
def opD (w : CommandWord) : Byte := w.extractLsb' 16 8
/-- Operand byte E, bits 15:8. -/
def opE (w : CommandWord) : Byte := w.extractLsb' 8 8
/-- Operand byte F, bits 7:0. -/
def opF (w : CommandWord) : Byte := w.extractLsb' 0 8
/-- The 16-bit field `A ‖ B`, A the high byte (R74). -/
def opAB (w : CommandWord) : BitVec 16 := opA w ++ opB w
/-- `MOD.V`, bit 48 (R73). -/
def vBit (w : CommandWord) : Bool := w.getLsbD 48
/-- `MOD.DIR`, bit 49 (R73). -/
def dirBit (w : CommandWord) : SpanDir := if w.getLsbD 49 then .fromHigh else .fromLow
/-- `MOD.TINV`, bit 50 (R73). -/
def tinvBit (w : CommandWord) : Bool := w.getLsbD 50
/-- `MOD.FONT`, bits 52:51 (R73). -/
def fontBits (w : CommandWord) : BitVec 2 := w.extractLsb' 51 2
/-- `MOD.ALIGN`, bits 54:53 (R73). -/
def alignBits (w : CommandWord) : BitVec 2 := w.extractLsb' 53 2
/-- The corner mask `D[3:0]` of PCIRCLE (R75). -/
def cornerBits (w : CommandWord) : BitVec 4 := w.extractLsb' 16 4

/-- The match test of R77: the command is selected iff `w & mask = match`. -/
def accept (w : CommandWord) (mnemonic : String) (pattern mask : CommandWord) (i : Instr) :
    Except DecodeError Instr :=
  if w &&& mask = pattern then .ok i else .error (.unusedBitSet mnemonic)

/-- Decoding (R77): `OP` names the only row that can match, and the row's mask decides. -/
def decode (w : CommandWord) : Except DecodeError Instr :=
  match (opcode w).toNat with
  | 0x01 => accept w "FILL" 0x0100000000000000 0xFFFEFFFFFFFFFFFF (.fill (vBit w))
  | 0x02 => accept w "SETPX" 0x0200000000000000 0xFFFE0000FFFFFFFF (.setpx (vBit w) (opA w) (opB w))
  | 0x03 => accept w "GETPX" 0x0300000000000000 0xFFFF0000FFFFFFFF (.getpx (opA w) (opB w))
  | 0x04 => accept w "BSPAN" 0x0400000000000000 0xFFFC000000FFFFFF (.bspan (vBit w) (dirBit w) (opAB w) (opC w))
  | 0x05 => accept w "REFRESH" 0x0500000000000000 0xFFFFFFFFFFFFFFFF (.refresh)
  | 0x10 => accept w "HLINE" 0x1000000000000000 0xFFFE000000FFFFFF (.hline (vBit w) (opA w) (opB w) (opC w))
  | 0x11 => accept w "VLINE" 0x1100000000000000 0xFFFE000000FFFFFF (.vline (vBit w) (opA w) (opB w) (opC w))
  | 0x12 => accept w "LINE" 0x1200000000000000 0xFFFE00000000FFFF (.line (vBit w) (opA w) (opB w) (opC w) (opD w))
  | 0x13 => accept w "RECT" 0x1300000000000000 0xFFFE00000000FFFF (.rect (vBit w) (opA w) (opB w) (opC w) (opD w))
  | 0x14 => accept w "FRECT" 0x1400000000000000 0xFFFE00000000FFFF (.frect (vBit w) (opA w) (opB w) (opC w) (opD w))
  | 0x15 => accept w "TRI" 0x1500000000000000 0xFFFE000000000000 (.tri (vBit w) (opA w) (opB w) (opC w) (opD w) (opE w) (opF w))
  | 0x16 => accept w "FTRI" 0x1600000000000000 0xFFFE000000000000 (.ftri (vBit w) (opA w) (opB w) (opC w) (opD w) (opE w) (opF w))
  | 0x17 => accept w "CIRCLE" 0x1700000000000000 0xFFFE000000FFFFFF (.circle (vBit w) (opA w) (opB w) (opC w))
  | 0x18 => accept w "PCIRCLE" 0x1800000000000000 0xFFFE000000F0FFFF (.pcircle (vBit w) (opA w) (opB w) (opC w) (cornerBits w))
  | 0x20 => accept w "BLIT" 0x2000000000000000 0xFFFF000000000000 (.blit (opAB w) (opC w) (opD w) (opE w) (opF w))
  | 0x21 => accept w "BLITF" 0x2100000000000000 0xFFFF000000000000 (.blitf (opAB w) (opC w) (opD w) (opE w) (opF w))
  | 0x30 => accept w "SETCUR" 0x3000000000000000 0xFFFF0000FFFFFFFF (.setcur (opA w) (opB w))
  | 0x31 => accept w "PRINTC" 0x3100000000000000 0xFF83000000FFFFFF (.printc (tinvBit w) (fontBits w) (alignBits w) (opAB w) (opC w))
  | 0x32 => accept w "PRINTAT" 0x3200000000000000 0xFFE30000000000FF (.printat (tinvBit w) (fontBits w) (opAB w) (opC w) (opD w) (opE w))
  | 0x40 => accept w "INIT" 0x4000000000000000 0xFFFF0000FFFFFFFF (.init (opA w) (opB w))
  | 0x41 => accept w "INVERT" 0x4100000000000000 0xFFFEFFFFFFFFFFFF (.invert (vBit w))
  | 0x42 => accept w "SLEEP" 0x4200000000000000 0xFFFEFFFFFFFFFFFF (.sleep (vBit w))
  | 0x43 => accept w "CONTRAST" 0x4300000000000000 0xFFFF00FFFFFFFFFF (.contrast (opA w))
  | 0x44 => accept w "BIAS" 0x4400000000000000 0xFFFF00FFFFFFFFFF (.bias (opA w))
  | _ => .error (.reservedOpcode (opcode w))

/-- The command word with the given eight bytes (R71). -/
def packWord (op md a b c d e f : Byte) : CommandWord := op ++ md ++ a ++ b ++ c ++ d ++ e ++ f

/-- The `MOD` byte (R73): reserved 0, `ALIGN`, `FONT`, `TINV`, `DIR`, `V`. -/
def packMod (align font : BitVec 2) (tinv dir v : Bool) : Byte :=
  0#1 ++ align ++ font ++ BitVec.ofBool tinv ++ BitVec.ofBool dir ++ BitVec.ofBool v

/-- The `MOD` byte of a command that uses `V` only. -/
def modV (v : Bool) : Byte := packMod 0 0 false false v

/-- `DIR` as a bit (R73). -/
def SpanDir.toBit : SpanDir → Bool
  | .fromLow => false
  | .fromHigh => true

/-- The high byte of a 16-bit field, carried in operand A (R74). -/
def highByte (v : BitVec 16) : Byte := v.extractLsb' 8 8
/-- The low byte of a 16-bit field, carried in operand B (R74). -/
def lowByte (v : BitVec 16) : Byte := v.extractLsb' 0 8

/-- The word of a command (R71 to R75): every bit the command does not use is 0. -/
def encode : Instr → CommandWord
  | .fill c => packWord 0x01 (modV c) 0 0 0 0 0 0
  | .setpx c x y => packWord 0x02 (modV c) x y 0 0 0 0
  | .getpx x y => packWord 0x03 0 x y 0 0 0 0
  | .bspan c dir i n => packWord 0x04 (packMod 0 0 false dir.toBit c) (highByte i) (lowByte i) n 0 0 0
  | .refresh => packWord 0x05 0 0 0 0 0 0 0
  | .hline c x y n => packWord 0x10 (modV c) x y n 0 0 0
  | .vline c x y n => packWord 0x11 (modV c) x y n 0 0 0
  | .line c x0 y0 x1 y1 => packWord 0x12 (modV c) x0 y0 x1 y1 0 0
  | .rect c x0 x1 y0 y1 => packWord 0x13 (modV c) x0 x1 y0 y1 0 0
  | .frect c x0 x1 y0 y1 => packWord 0x14 (modV c) x0 x1 y0 y1 0 0
  | .tri c x0 y0 x1 y1 x2 y2 => packWord 0x15 (modV c) x0 y0 x1 y1 x2 y2
  | .ftri c x0 y0 x1 y1 x2 y2 => packWord 0x16 (modV c) x0 y0 x1 y1 x2 y2
  | .circle c xc yc r => packWord 0x17 (modV c) xc yc r 0 0 0
  | .pcircle c xc yc r q => packWord 0x18 (modV c) xc yc r (0#4 ++ q) 0 0
  | .blit addr x0 y0 w h => packWord 0x20 0 (highByte addr) (lowByte addr) x0 y0 w h
  | .blitf addr x0 y0 w h => packWord 0x21 0 (highByte addr) (lowByte addr) x0 y0 w h
  | .setcur x y => packWord 0x30 0 x y 0 0 0 0
  | .printc tinv font align addr len => packWord 0x31 (packMod align font tinv false false) (highByte addr) (lowByte addr) len 0 0 0
  | .printat tinv font addr len x y => packWord 0x32 (packMod 0 font tinv false false) (highByte addr) (lowByte addr) len x y 0
  | .init ct bs => packWord 0x40 0 ct bs 0 0 0 0
  | .invert v => packWord 0x41 (modV v) 0 0 0 0 0 0
  | .sleep v => packWord 0x42 (modV v) 0 0 0 0 0 0
  | .contrast v => packWord 0x43 0 v 0 0 0 0 0
  | .bias v => packWord 0x44 0 v 0 0 0 0 0

/-- The command word whose low `nbits` bits are `w`'s and whose other bits are 0. The command port takes the whole
word at once (R70), so no byte order enters. -/
def tableWord (nbits w : Nat) : CommandWord := BitVec.ofNat 64 (w % 2 ^ nbits)

/-- What the decoder reads from the table's word `w` of `nbits` bits. -/
def decodeTableWord (nbits w : Nat) : Option Instr := (decode (tableWord nbits w)).toOption

end Sys2Proof
end

