-- ==== Sys2Proof/Machine/Environment.lean ====
section
/-! DEFINITION. What one action of the environment does to the block (spec/00_scope.md R9, spec/70_reset_and_hazards.md
R251): HOST's write of SRC, the completion notification, the reset input, and an undefined command word. -/

namespace Sys2Proof.Machine

/-- The state once its first input has been taken. -/
def State.takeInput (s : State) : State := { s with inputs := s.inputs.tail }

/-- The next input is the given command word; what stood first comes after it. -/
def State.presentWord (s : State) (w : CommandWord) : State := { s with inputs := .command w :: s.inputs }

/-- An undefined word responds `(REJECTED, 0x00)` and changes no state (R77). -/
def State.rejectWord (s : State) (_ : DecodeError) : State := s.reject

end Sys2Proof.Machine
end

