-- ==== Sys2Proof/Machine/Step.lean ====
section
/-! DEFINITION. One step of a run: the first input of the environment (spec/70_reset_and_hazards.md R251). -/

namespace Sys2Proof.Machine

/-- One step. With nothing presented the block waits. A command word is decoded and runs as one atomic command, or is
REJECTED (R77); the environment's other actions fall between commands (R58). -/
def step (s : State) : Host.Outcome State Fault Refusal :=
  match s.inputs with
  | [] => .next s
  | .command w :: _ =>
    match decode w with
    | .ok i => exec i s.takeInput
    | .error e => .next (s.takeInput.rejectWord e)
  | .srcWrite addr v :: _ => .next (s.takeInput.srcWrite addr v)
  | .completion :: _ => .next s.takeInput.completeTransfer
  | .reset d :: _ => .next (s.takeInput.hardwareReset d)

/-- The state whose next input is the given command word: the next step decodes and runs it. -/
def State.withFetchWord (s : State) (nbits w : Nat) : State := s.presentWord (tableWord nbits w)

end Sys2Proof.Machine
end

