-- ==== Sys2Proof/Safety.lean ====
section
/-! DEFINITION. The terms the statements use: the legal states (spec/10_state.md R20 to R29, spec/20_memory.md R44),
what a drawing command may change, and which commands do what kind of thing. -/

namespace Sys2Proof.Machine

open Config

/-! ## Legal states -/

/-- A frame `Send` can have been given: never empty (R55), a data frame 504 bytes long (R57). -/
abbrev Frame.legal (f : Frame) : Prop := f.bytes ≠ [] ∧ (f.kind = .data → f.bytes.length = FBSIZE)

/-- The states the spec's invariants allow at a command boundary: both memories in canonical form inside their address
spaces (R20, R44, R48), the cursor in range (R26), `BUSY` only in the non-blocking configuration (R24), the in-flight
marker exactly while `BUSY` is 1 and on the latest entry of `TX`, and every frame as `Send` takes it. That the marker is
there also after a failed start is the model's reading (notes/assumptions/7.md): R29 and R56 do not state it. -/
abbrev State.Legal (s : State) : Prop :=
  (s.fb.wf ∧ s.fb.below FBSIZE) ∧ (s.src.wf ∧ s.src.below SRCSIZE) ∧
  (s.curX.toNat ≤ W ∧ s.curY.toNat < NBANK) ∧
  (s.busy = true → s.cfg.nonBlocking = true) ∧
  s.inFlight = (if s.busy then some (s.tx.length - 1) else none) ∧
  (s.busy = true → s.tx ≠ []) ∧
  ∀ f ∈ s.tx, f.legal

/-! ## What a drawing command changes -/

/-- Pixel `(x, y)` is on the screen. -/
abbrev OnScreen (x y : Nat) : Prop := x < W ∧ y < H

/-- Byte `i` of the framebuffer holds a screen pixel of the shape. -/
def Holds (shape : Nat → Nat → Prop) (i : Nat) : Prop := ∃ x y, OnScreen x y ∧ shape x y ∧ i = pixelIndex x y

/-- `TX` and the draw counter after a command that wrote the framebuffer only at indices in `written` (R243): without
a data frame in flight they are unchanged; no entry appears or disappears; every entry but the data frame in flight is
unchanged, and that one keeps its kind, its result, its length and its bytes at the other indices. -/
def TransmitKept (s t : State) (written : Nat → Prop) : Prop :=
  (s.dataInFlight = none → t.tx = s.tx ∧ t.draws = s.draws) ∧
  t.tx.length = s.tx.length ∧
  ∀ k f, s.tx[k]? = some f → ∃ g, t.tx[k]? = some g ∧ g.kind = f.kind ∧ g.result = f.result ∧
    g.bytes.length = f.bytes.length ∧ (s.dataInFlight ≠ some k → g = f) ∧
    ∀ i, ¬ written i → g.bytes[i]? = f.bytes[i]?

/-- The framebuffer of `t` is that of `s` with each screen pixel of the shape given its colour: no other pixel and no
byte without such a pixel changes, and `TX` changes at most where the shape was written. -/
structure Drew (s t : State) (shape : Nat → Nat → Prop) (colour : Nat → Nat → Colour) : Prop where
  inside : ∀ x y, OnScreen x y → shape x y → t.pixel x y = colour x y
  outside : ∀ x y, OnScreen x y → ¬ shape x y → t.pixel x y = s.pixel x y
  bytes : ∀ i, ¬ Holds shape i → t.fbByte i = s.fbByte i
  transmit : TransmitKept s t (Holds shape)

/-- Nothing differs but the framebuffer, `TX`, the draw counter and one response `(OK, 0x00)` more. -/
def OnlyDrew (s t : State) : Prop :=
  t = { s with fb := t.fb, tx := t.tx, draws := t.draws, responses := s.responses ++ [⟨.ok, 0x00⟩] }

/-! ## Shapes, each as a set of pixels, without an algorithm -/

/-- How many perpendicular steps the Bresenham line has made at major step `i`: `i · dmin / dmaj` rounded to the
nearest integer, the error term starting at `dmaj div 2` (R126). -/
def minorSteps (dmaj dmin i : Nat) : Nat := (i * dmin + (dmaj - 1 - dmaj / 2)) / dmaj

/-- `(x, y)` is on the line from `(xa, ya)` to `(xb, yb)`, `xa ≤ xb`, with `x` the major coordinate (R126). -/
def OnMajorLine (xa ya xb yb x y : Nat) : Prop :=
  xa ≤ x ∧ x ≤ xb ∧
  if ya < yb then y = ya + minorSteps (xb - xa) (distance ya yb) (x - xa)
  else y + minorSteps (xb - xa) (distance ya yb) (x - xa) = ya

/-- `(x, y)` is a pixel of the line between the two endpoints: major coordinate the one with the larger extent (`x`
when they are equal), endpoints in ascending order of it (R126). -/
def OnLine (x0 y0 x1 y1 x y : Nat) : Prop :=
  if distance x0 x1 < distance y0 y1 then
    (if y1 < y0 then OnMajorLine y1 x1 y0 x0 y x else OnMajorLine y0 x0 y1 x1 y x)
  else (if x1 < x0 then OnMajorLine x1 y1 x0 y0 x y else OnMajorLine x0 y0 x1 y1 x y)

/-- `(x, y)` lies in the closed triangle, the convex hull of the three vertices: it is their weighted mean for some
natural weights, not all 0 (R131). -/
def InTriangle (x0 y0 x1 y1 x2 y2 x y : Nat) : Prop :=
  ∃ a b d : Nat, 0 < a + b + d ∧
    (a + b + d) * x = a * x0 + b * x1 + d * x2 ∧ (a + b + d) * y = a * y0 + b * y1 + d * y2

/-- `(a, b)`, `a ≤ b`, is the point of the circle of radius `r` about the origin with abscissa `a` that lies nearest to
it: `b - 1/2 < sqrt (r^2 - a^2 + 1/4) ≤ b + 1/2`, without roots (R132). -/
def OnOctant (r a b : Nat) : Prop :=
  a ≤ b ∧ r * r ≤ a * a + b * b + b ∧ (a * a + b * b < r * r + b ∨ r = 0 ∧ b = 0)

/-- `(x, y)` is one of the two symmetric points of the octant point `(a, b)` in the quadrant with the given signs. -/
def InQuadrant (xc yc sx sy : Int) (a b x y : Nat) : Prop :=
  ((x : Int) = xc + sx * a ∧ (y : Int) = yc + sy * b) ∨ ((x : Int) = xc + sx * b ∧ (y : Int) = yc + sy * a)

/-- `(x, y)` is a pixel of the circle in a quadrant that the corner mask enables: bit 0 upper left, bit 1 upper right,
bit 2 lower right, bit 3 lower left (R132, R134). -/
def OnCircle (xc yc r : Nat) (q : BitVec 4) (x y : Nat) : Prop :=
  ∃ a b : Nat, OnOctant r a b ∧
    ((q.getLsbD 0 = true ∧ InQuadrant xc yc (-1) (-1) a b x y) ∨
     (q.getLsbD 1 = true ∧ InQuadrant xc yc 1 (-1) a b x y) ∨
     (q.getLsbD 2 = true ∧ InQuadrant xc yc 1 1 a b x y) ∨
     (q.getLsbD 3 = true ∧ InQuadrant xc yc (-1) 1 a b x y))

/-! ## What a sending command changes -/

/-- The state after a frame has been sent and the transport's answer passed on as the response (R55, R56); the in-flight
marker is set whatever the answer (notes/assumptions/7.md). -/
def State.afterSend (s : State) (kind : FrameKind) (bytes : List Byte) : State :=
  { s with
    busy := if s.cfg.nonBlocking then true else s.busy
    inFlight := if s.cfg.nonBlocking then some s.tx.length else s.inFlight
    tx := s.tx ++ [⟨kind, bytes, s.answer⟩]
    answers := s.answers.drop 1
    draws := s.draws + 1
    responses := s.responses ++ [⟨if s.answer = .ok then .ok else .fail, 0x00⟩] }

/-- `NONBLOCKING` is true and `BUSY` is 1: the guarded commands fail fast (R56). -/
abbrev State.FailsFast (s : State) : Prop := s.cfg.nonBlocking = true ∧ s.busy = true

/-- The seven bytes of the initialization sequence with the given bias and contrast (R202). -/
def initBytes (cmd : CommandBytes) (bias : BitVec 3) (contrast : BitVec 7) : List Byte :=
  [cmd.ext, cmd.bias ||| bias.setWidth 8, cmd.vop ||| contrast.setWidth 8, cmd.normal, cmd.setX, cmd.setY,
    cmd.dispNormal]

/-! ## Kinds of commands -/

/-- The mnemonic of a command (spec/30_encoding.md R75). -/
def mnemonicOf : Instr → String
  | .fill _ => "FILL"
  | .setpx _ _ _ => "SETPX"
  | .getpx _ _ => "GETPX"
  | .bspan _ _ _ _ => "BSPAN"
  | .refresh => "REFRESH"
  | .hline _ _ _ _ => "HLINE"
  | .vline _ _ _ _ => "VLINE"
  | .line _ _ _ _ _ => "LINE"
  | .rect _ _ _ _ _ => "RECT"
  | .frect _ _ _ _ _ => "FRECT"
  | .tri _ _ _ _ _ _ _ => "TRI"
  | .ftri _ _ _ _ _ _ _ => "FTRI"
  | .circle _ _ _ _ => "CIRCLE"
  | .pcircle _ _ _ _ _ => "PCIRCLE"
  | .blit _ _ _ _ _ => "BLIT"
  | .blitf _ _ _ _ _ => "BLITF"
  | .setcur _ _ => "SETCUR"
  | .printc _ _ _ _ _ => "PRINTC"
  | .printat _ _ _ _ _ _ => "PRINTAT"
  | .init _ _ => "INIT"
  | .invert _ => "INVERT"
  | .sleep _ => "SLEEP"
  | .contrast _ => "CONTRAST"
  | .bias _ => "BIAS"

/-- The commands that send a frame (spec/60_exceptions.md R221). -/
def Sends (i : Instr) : Bool := mnemonicOf i ∈ ["REFRESH", "INIT", "INVERT", "SLEEP", "CONTRAST", "BIAS"]

/-- The commands that may write the framebuffer (spec/40_framebuffer.md R105). -/
def Draws (i : Instr) : Bool :=
  mnemonicOf i ∈ ["FILL", "SETPX", "BSPAN", "HLINE", "VLINE", "LINE", "RECT", "FRECT", "TRI", "FTRI", "CIRCLE",
    "PCIRCLE", "BLIT", "BLITF", "PRINTC", "PRINTAT"]

/-- The commands that may move the cursor (spec/10_state.md R23). -/
def MovesCursor (i : Instr) : Bool := mnemonicOf i ∈ ["SETCUR", "PRINTC"]

end Sys2Proof.Machine
end

