-- ==== Sys2Proof/WellFormed.lean ====
section
/-! DEFINITION. Which commands name a supported option combination (spec/30_encoding.md R83, R84;
spec/43_text.md R174, R181). Every other range is in the operand's type. An ill-formed command still decodes: the
block answers it with REJECTED (R181). -/

namespace Sys2Proof

/-- The font code names one of the three fonts: code 3 is reserved (R83). -/
def fontCodeSupported (font : BitVec 2) : Bool := font.toNat < 3

/-- The pairs of R174 not marked unsupported: small (0) takes codes 0 to 2, medium (1) 0 and 1, large (2) only 0. -/
def alignCodeSupported (font align : BitVec 2) : Bool := align.toNat + font.toNat < 3

/-- The command's option codes are supported. -/
def Instr.wellFormed : Instr → Bool
  | .fill _ => true
  | .setpx _ _ _ => true
  | .getpx _ _ => true
  | .bspan _ _ _ _ => true
  | .refresh => true
  | .hline _ _ _ _ => true
  | .vline _ _ _ _ => true
  | .line _ _ _ _ _ => true
  | .rect _ _ _ _ _ => true
  | .frect _ _ _ _ _ => true
  | .tri _ _ _ _ _ _ _ => true
  | .ftri _ _ _ _ _ _ _ => true
  | .circle _ _ _ _ => true
  | .pcircle _ _ _ _ _ => true
  | .blit _ _ _ _ _ => true
  | .blitf _ _ _ _ _ => true
  | .setcur _ _ => true
  | .printc _ font align _ _ => fontCodeSupported font && alignCodeSupported font align
  | .printat _ font _ _ _ _ => fontCodeSupported font
  | .init _ _ => true
  | .invert _ => true
  | .sleep _ => true
  | .contrast _ => true
  | .bias _ => true

end Sys2Proof
end

