-- ==== Sys2Proof/Certificates/Slice0/Obligations.lean ====
section
/-! DEFINITION. The statements about the model, written from the numbered rules of spec/. -/

open Sys2Proof Sys2Proof.Machine
open Sys2Proof.Config

/-! ## Encoding -/

/-- Every command, with every operand at every value its field admits, is what its encoded word decodes to (R71 to
R75). -/
def Obligations.EncodedCommandDecodes : Prop :=
  ∀ i : Instr, decode (encode i) = .ok i

/-- A word that decodes is the encoding of its command: no bit of it is dropped (R71 to R77). -/
def Obligations.DecodedWordIsItsEncoding : Prop :=
  ∀ (w : CommandWord) (i : Instr), decode w = .ok i → encode i = w

/-- R77: at most one row of the table matches a word; a word that matches a row decodes to a command of that row, which
the step runs; a word that matches none is answered `(REJECTED, 0x00)` and changes nothing else. -/
def Obligations.DecodingFollowsTheTable : Prop :=
  ∀ w : CommandWord,
    (∀ r ∈ opcodeTable, ∀ r' ∈ opcodeTable, w &&& r.mask = r.pattern → w &&& r'.mask = r'.pattern → r = r') ∧
    (∀ r ∈ opcodeTable, w &&& r.mask = r.pattern →
      ∃ i, decode w = .ok i ∧ mnemonicOf i = r.mnemonic ∧
        ∀ (s : State) (rest : List Input), s.inputs = .command w :: rest → step s = exec i { s with inputs := rest }) ∧
    ((∀ r ∈ opcodeTable, w &&& r.mask ≠ r.pattern) →
      ∀ (s : State) (rest : List Input), s.inputs = .command w :: rest →
        step s = .next { s with inputs := rest, responses := s.responses ++ [⟨.rejected, 0x00⟩] })

/-- R78: a word whose `OP` is reserved is REJECTED, the all-zero word among them. -/
def Obligations.ReservedOpcodesRejected : Prop :=
  ∀ (w : CommandWord) (s : State) (rest : List Input),
    (let op := (w >>> 56).toNat
     op = 0x00 ∨ (0x06 ≤ op ∧ op ≤ 0x0F) ∨ (0x19 ≤ op ∧ op ≤ 0x1F) ∨ (0x22 ≤ op ∧ op ≤ 0x2F) ∨
      (0x33 ≤ op ∧ op ≤ 0x3F) ∨ (0x45 ≤ op ∧ op ≤ 0xFF)) →
    s.inputs = .command w :: rest →
    step s = .next { s with inputs := rest, responses := s.responses ++ [⟨.rejected, 0x00⟩] }

/-- A few words of R81, one for each family, decode to the command its assembly line names. -/
def Obligations.AssemblyExamplesDecode : Prop :=
  decode 0x0403005E03000000 = .ok (.bspan true .fromHigh 94 3) ∧
  decode 0x1301020601040000 = .ok (.rect true 2 6 1 4) ∧
  decode 0x180128140A030000 = .ok (.pcircle true 40 20 10 3) ∧
  decode 0x200010000203030A = .ok (.blit 0x1000 2 3 3 10) ∧
  decode 0x3140200002000000 = .ok (.printc false 0 2 0x2000 2) ∧
  decode 0x320C2000030A1400 = .ok (.printat true 1 0x2000 3 10 20) ∧
  decode 0x40003F0400000000 = .ok (.init 0x3F 4)

/-! ## The step, reset and the environment -/

/-- When the word presented decodes to a command, the step takes the word and is the command's meaning. -/
def Obligations.StepRunsTheDecodedCommand : Prop :=
  ∀ (s : State) (w : CommandWord) (rest : List Input) (i : Instr),
    s.inputs = .command w :: rest → decode w = .ok i → step s = exec i { s with inputs := rest }

/-- The completion notification: enabled when `NONBLOCKING` and `BUSY = 1`, it clears `BUSY` and the in-flight marker
and nothing else (R226). That it is ignored where it is not enabled is the model's choice
(notes/assumptions/9.md). -/
def Obligations.CompletionClearsBusyOnly : Prop :=
  ∀ (s : State) (rest : List Input), s.inputs = .completion :: rest →
    (s.FailsFast → step s = .next { s with inputs := rest, busy := false, inFlight := none }) ∧
    (¬ s.FailsFast → step s = .next { s with inputs := rest })

/-- The reset input (R240, R31): cursor, `BUSY`, `TX` and the in-flight marker are cleared, `CONTRAST`, `BIAS` and every
byte of `FB` are what the environment drew, SRC and the parameters are not affected. -/
def Obligations.ResetInputResets : Prop :=
  ∀ (s : State) (d : ResetDraw) (rest : List Input), s.inputs = .reset d :: rest →
    ∃ t, step s = .next t ∧ t.curX = 0 ∧ t.curY = 0 ∧ t.busy = false ∧ t.tx = [] ∧ t.inFlight = none ∧
      t.contrast = d.contrast ∧ t.bias = d.bias ∧ t.src = s.src ∧ t.cfg = s.cfg ∧ t.inputs = rest ∧
      t.answers = s.answers ∧ t.draws = s.draws ∧ t.responses = s.responses ∧ t.fb.wf ∧
      ∀ i, t.fbByte i = if i < FBSIZE then d.fb.getD i 0x00 else 0x00

/-- HOST's write of SRC between commands changes that byte and nothing else (R48); with nothing presented the block
waits (the model's choice of what a step then is: notes/assumptions/8.md). -/
def Obligations.SourceWriteAndIdleStep : Prop :=
  ∀ s : State,
    (∀ (addr : SrcAddr) (v : Byte) (rest : List Input), s.src.wf → s.inputs = .srcWrite addr v :: rest →
      ∃ t, step s = .next t ∧ t = { s with inputs := rest, src := t.src } ∧
        ∀ a, t.src.read a = if a = addr.toNat then v else s.src.read a) ∧
    (s.inputs = [] → step s = .next s)

/-- What R31 fixes of the state after reset: cursor (0, 0), `BUSY` 0, `TX` empty, nothing in flight. -/
def Obligations.ResetValues : Prop :=
  State.reset.curX = 0 ∧ State.reset.curY = 0 ∧ State.reset.busy = false ∧ State.reset.tx = [] ∧
    State.reset.inFlight = none

/-- The state after reset is legal. -/
def Obligations.ResetStateIsLegal : Prop := State.reset.Legal

/-! ## Invariants and whole-machine rules -/

/-- Every step from a legal state leads to a legal state: no byte outside the framebuffer is ever written (R44), the
cursor stays in range (R26), `BUSY` is 1 only in the non-blocking configuration (R24), every frame is as `Send` takes it
(R55, R57). `State.Legal` also asks that while `BUSY` is 1 the in-flight marker names the latest entry of `TX`: that this
holds after a failed start too is the model's reading (notes/assumptions/7.md) and no rule is cited for it. -/
def Obligations.StepKeepsLegal : Prop :=
  ∀ s t : State, s.Legal → step s = .next t → t.Legal

/-- From every state, legal or not, every step completes; every command, whatever its operands, completes with exactly one
response; and so does the step that takes a presented word, decoded or not, after which the next input is next: nothing
faults, nothing is refused (R220). -/
def Obligations.StepsAndCommandsNeverStop : Prop :=
  ∀ s : State, (∃ t, step s = .next t) ∧
    (∀ i : Instr, ∃ t r, exec i s = .next t ∧ t.responses = s.responses ++ [r]) ∧
    ∀ (w : CommandWord) (rest : List Input), s.inputs = .command w :: rest →
      ∃ t r, step s = .next t ∧ t.inputs = rest ∧ t.responses = s.responses ++ [r]

/-- Every command that completes delivers exactly one response (R220): FAIL only from a sending command, REJECTED
exactly from an unsupported option combination, `VALUE` 0x00 but for GETPX's 0x00, 0x01 or 0xFF (R76, R221). -/
def Obligations.EveryCommandRespondsOnce : Prop :=
  ∀ (i : Instr) (s t : State), exec i s = .next t →
    ∃ r : Response, t.responses = s.responses ++ [r] ∧
      (r.status = .fail → Sends i = true) ∧
      (r.status = .rejected ↔ i.wellFormed = false) ∧
      (mnemonicOf i ≠ "GETPX" → r.value = 0x00) ∧
      (r.value = 0x00 ∨ r.value = 0x01 ∨ r.value = 0xFF)

/-- The response word: `STATUS` in bits 15:8, `VALUE` in bits 7:0, codes 0, 1 and 2 (R76). -/
def Obligations.ResponseWordLayout : Prop :=
  ∀ v : Byte, (Response.word ⟨.ok, v⟩).toNat = v.toNat ∧ (Response.word ⟨.fail, v⟩).toNat = 0x100 + v.toNat ∧
    (Response.word ⟨.rejected, v⟩).toNat = 0x200 + v.toNat

/-- What each kind of command may change: SRC, the parameters and the inputs never; `FB` only the commands of R105; the
cursor only SETCUR and PRINTC (R23); `BUSY`, the in-flight marker and the number of frames only the sending commands
(R24, R105); `CONTRAST` only INIT and CONTRAST, `BIAS` only INIT and BIAS (R25). -/
def Obligations.CommandsChangeOnlyTheirState : Prop :=
  ∀ (i : Instr) (s t : State), exec i s = .next t →
    t.src = s.src ∧ t.cfg = s.cfg ∧ t.inputs = s.inputs ∧
    (Draws i = false → t.fb = s.fb) ∧
    (MovesCursor i = false → t.curX = s.curX ∧ t.curY = s.curY) ∧
    (Sends i = false → t.busy = s.busy ∧ t.inFlight = s.inFlight ∧ t.answers = s.answers ∧
      t.tx.length = s.tx.length) ∧
    (mnemonicOf i ≠ "INIT" ∧ mnemonicOf i ≠ "CONTRAST" → t.contrast = s.contrast) ∧
    (mnemonicOf i ≠ "INIT" ∧ mnemonicOf i ≠ "BIAS" → t.bias = s.bias)

/-- `BUSY` (R24): it goes from 1 to 0 only by a completion notification or a reset, and from 0 to 1 only in the
non-blocking configuration, by a sending command. -/
def Obligations.BusyChangesOnlyByItsEvents : Prop :=
  ∀ s t : State, step s = .next t →
    (s.busy = true → t.busy = false →
      s.inputs.head? = some .completion ∨ ∃ d, s.inputs.head? = some (.reset d)) ∧
    (s.busy = false → t.busy = true →
      s.cfg.nonBlocking = true ∧ ∃ w i, s.inputs.head? = some (.command w) ∧ decode w = .ok i ∧ Sends i = true)

/-- R209: with `NONBLOCKING` true and `BUSY = 1` a sending command responds `(FAIL, 0x00)` and changes nothing else;
in the blocking configuration it sends its frame whatever `BUSY` holds. -/
def Obligations.BusyCommandsFailFast : Prop :=
  ∀ (i : Instr) (s : State), Sends i = true →
    (s.FailsFast → exec i s = .next { s with responses := s.responses ++ [⟨.fail, 0x00⟩] }) ∧
    (s.cfg.nonBlocking = false → ∃ t f, exec i s = .next t ∧ t.tx = s.tx ++ [f])

/-- What a command does to the framebuffer and the cursor, and what a command that sends nothing responds, depends only
on the framebuffer, the cursor, SRC and the parameters: not on `BUSY`, a transfer in flight or the history (R242,
R243). -/
def Obligations.DrawingIgnoresTheTransport : Prop :=
  ∀ (i : Instr) (s s' t : State), s.fb = s'.fb → s.curX = s'.curX → s.curY = s'.curY → s.src = s'.src →
    s.cfg = s'.cfg → exec i s = .next t →
    ∃ t', exec i s' = .next t' ∧ t'.fb = t.fb ∧ t'.curX = t.curX ∧ t'.curY = t.curY ∧
      (Sends i = false → t'.responses.getLast? = t.responses.getLast?)

/-- The hazard of R243: after a command given while a data frame is in flight, each byte of that frame is what it was or
a free value, and it is the free value wherever the command changed the framebuffer. The form of the free value is the
model's choice (notes/assumptions/6.md). -/
def Obligations.InFlightBytesBecomeFree : Prop :=
  ∀ (i : Instr) (s t : State) (k : Nat) (f : Frame), s.fb.wf → s.dataInFlight = some k → s.tx[k]? = some f →
    exec i s = .next t →
    ∃ g, t.tx[k]? = some g ∧ ∀ j, j < f.bytes.length →
      (g.bytes[j]? = f.bytes[j]? ∨ g.bytes[j]? = some (flightByte s.draws j)) ∧
      (t.fbByte j ≠ s.fbByte j → g.bytes[j]? = some (flightByte s.draws j))

/-- The layout of the framebuffer is exact (R41, R44): each bit of each of the 504 bytes is one pixel of the screen, and
no two pixels share a bit. -/
def Obligations.EveryFramebufferBitIsOnePixel : Prop :=
  ∀ i b, i < FBSIZE → b < 8 →
    ∃ p : Nat × Nat, (OnScreen p.1 p.2 ∧ pixelIndex p.1 p.2 = i ∧ p.2 % 8 = b) ∧
      ∀ p' : Nat × Nat, OnScreen p'.1 p'.2 ∧ pixelIndex p'.1 p'.2 = i ∧ p'.2 % 8 = b → p' = p

/-! ## The framebuffer commands -/

/-- FILL (R100): every byte of the framebuffer becomes 0xFF or 0x00, whatever it was; the response is OK and nothing
else changes. -/
def Obligations.FillResult : Prop :=
  ∀ (c : Colour) (s : State), s.fb.wf →
    ∃ t, exec (.fill c) s = .next t ∧ OnlyDrew s t ∧ TransmitKept s t (· < FBSIZE) ∧
      (∀ i, i < FBSIZE → t.fbByte i = if c then 0xFF else 0x00) ∧ ∀ i, FBSIZE ≤ i → t.fbByte i = s.fbByte i

/-- SETPX (R101): the pixel gets the colour if it is on the screen; every other bit of the framebuffer is unchanged. -/
def Obligations.SetpxResult : Prop :=
  ∀ (c : Colour) (x y : Byte) (s : State), s.fb.wf →
    ∃ t, exec (.setpx c x y) s = .next t ∧ OnlyDrew s t ∧
      Drew s t (fun px py => px = x.toNat ∧ py = y.toNat) fun _ _ => c

/-- GETPX (R102): the value is the pixel's bit, or 0xFF out of range; nothing else changes. -/
def Obligations.GetpxResult : Prop :=
  ∀ (x y : Byte) (s : State),
    exec (.getpx x y) s = .next { s with
      responses := s.responses ++ [⟨.ok,
        if x.toNat < 84 ∧ y.toNat < 48 then
          (if (s.fbByte (y.toNat / 8 * 84 + x.toNat)).getLsbD (y.toNat % 8) then 0x01 else 0x00)
        else 0xFF⟩] }

/-- BSPAN (R103): the run of bits at the named end of the byte gets the colour if the index is below 504 and the count
below 8; every other bit and byte is unchanged. -/
def Obligations.BspanResult : Prop :=
  ∀ (c : Colour) (dir : SpanDir) (byteIndex : BitVec 16) (bitCount : Byte) (s : State), s.fb.wf →
    ∃ t, exec (.bspan c dir byteIndex bitCount) s = .next t ∧ OnlyDrew s t ∧
      TransmitKept s t (fun i => i = byteIndex.toNat ∧ i < FBSIZE ∧ bitCount.toNat < 8) ∧
      (∀ i, i ≠ byteIndex.toNat → t.fbByte i = s.fbByte i) ∧
      ∀ b, b < 8 → (t.fbByte byteIndex.toNat).getLsbD b =
        if byteIndex.toNat < FBSIZE ∧ bitCount.toNat < 8 ∧
          (dir = .fromLow ∧ b < bitCount.toNat ∨ dir = .fromHigh ∧ 8 - bitCount.toNat ≤ b)
        then c else (s.fbByte byteIndex.toNat).getLsbD b

/-- REFRESH (R104, R57), not failing fast: one data frame of `FB[0]` to `FB[503]` in ascending order is sent, `BUSY` is
set in the non-blocking configuration, the transport's answer is the response; the framebuffer and every other
register are unchanged. That the in-flight marker is set after a failed start too is the model's reading
(notes/assumptions/7.md), here and in the statements of the device commands. -/
def Obligations.RefreshResult : Prop :=
  ∀ s : State, ¬ s.FailsFast →
    exec .refresh s = .next (s.afterSend .data ((List.range 504).map fun i => s.fbByte i))

/-! ## The rasterizer -/

/-- HLINE (R124): exactly the pixels `(x+i, y)`, `0 ≤ i < length`, on the screen get the colour. -/
def Obligations.HlineResult : Prop :=
  ∀ (c : Colour) (x y length : Byte) (s : State), s.fb.wf →
    ∃ t, exec (.hline c x y length) s = .next t ∧ OnlyDrew s t ∧
      Drew s t (fun px py => py = y.toNat ∧ x.toNat ≤ px ∧ px < x.toNat + length.toNat) fun _ _ => c

/-- VLINE (R125): exactly the pixels `(x, y+j)`, `0 ≤ j < length`, on the screen get the colour. -/
def Obligations.VlineResult : Prop :=
  ∀ (c : Colour) (x y length : Byte) (s : State), s.fb.wf →
    ∃ t, exec (.vline c x y length) s = .next t ∧ OnlyDrew s t ∧
      Drew s t (fun px py => px = x.toNat ∧ y.toNat ≤ py ∧ py < y.toNat + length.toNat) fun _ _ => c

/-- LINE (R126, R127): exactly the pixels of the line, both endpoints included, on the screen get the colour. -/
def Obligations.LineResult : Prop :=
  ∀ (c : Colour) (x0 y0 x1 y1 : Byte) (s : State), s.fb.wf →
    ∃ t, exec (.line c x0 y0 x1 y1) s = .next t ∧ OnlyDrew s t ∧
      Drew s t (OnLine x0.toNat y0.toNat x1.toNat y1.toNat) fun _ _ => c

/-- A line and the line with its endpoints exchanged are the same command (R126, the ordering of the endpoints). -/
def Obligations.LineIsSymmetric : Prop :=
  ∀ (c : Colour) (x0 y0 x1 y1 : Byte) (s : State),
    exec (.line c x0 y0 x1 y1) s = exec (.line c x1 y1 x0 y0) s

/-- RECT (R128): exactly the pixels of the four edges of the auto-sorted rectangle on the screen get the colour. -/
def Obligations.RectResult : Prop :=
  ∀ (c : Colour) (x0 x1 y0 y1 : Byte) (s : State), s.fb.wf →
    ∃ t, exec (.rect c x0 x1 y0 y1) s = .next t ∧ OnlyDrew s t ∧
      Drew s t (fun px py =>
        let xl := min x0.toNat x1.toNat; let xr := max x0.toNat x1.toNat
        let yt := min y0.toNat y1.toNat; let yb := max y0.toNat y1.toNat
        ((px = xl ∨ px = xr) ∧ yt ≤ py ∧ py ≤ yb) ∨ ((py = yt ∨ py = yb) ∧ xl ≤ px ∧ px ≤ xr)) fun _ _ => c

/-- FRECT (R129): exactly the pixels of the auto-sorted rectangle, both corners included, on the screen get the
colour. -/
def Obligations.FrectResult : Prop :=
  ∀ (c : Colour) (x0 x1 y0 y1 : Byte) (s : State), s.fb.wf →
    ∃ t, exec (.frect c x0 x1 y0 y1) s = .next t ∧ OnlyDrew s t ∧
      Drew s t (fun px py => min x0.toNat x1.toNat ≤ px ∧ px ≤ max x0.toNat x1.toNat ∧
        min y0.toNat y1.toNat ≤ py ∧ py ≤ max y0.toNat y1.toNat) fun _ _ => c

/-- Drawing the same filled rectangle twice yields the same framebuffer as drawing it once (R129). -/
def Obligations.FrectIsIdempotent : Prop :=
  ∀ (c : Colour) (x0 x1 y0 y1 : Byte) (s : State), s.fb.wf →
    ∃ t u, exec (.frect c x0 x1 y0 y1) s = .next t ∧ exec (.frect c x0 x1 y0 y1) t = .next u ∧ u.fb = t.fb

/-- TRI (R130): exactly the pixels of the three lines between the vertices on the screen get the colour. -/
def Obligations.TriResult : Prop :=
  ∀ (c : Colour) (x0 y0 x1 y1 x2 y2 : Byte) (s : State), s.fb.wf →
    ∃ t, exec (.tri c x0 y0 x1 y1 x2 y2) s = .next t ∧ OnlyDrew s t ∧
      Drew s t (fun px py => OnLine x0.toNat y0.toNat x1.toNat y1.toNat px py ∨
        OnLine x1.toNat y1.toNat x2.toNat y2.toNat px py ∨ OnLine x2.toNat y2.toNat x0.toNat y0.toNat px py)
        fun _ _ => c

/-- FTRI stays inside (R131): no pixel outside the closed triangle and no byte without a pixel of it changes, and a
pixel that changes gets the colour; the response is OK and nothing else changes. -/
def Obligations.FtriStaysInTheTriangle : Prop :=
  ∀ (c : Colour) (x0 y0 x1 y1 x2 y2 : Byte) (s : State), s.fb.wf →
    ∃ t, exec (.ftri c x0 y0 x1 y1 x2 y2) s = .next t ∧ OnlyDrew s t ∧
      (∀ px py, OnScreen px py →
        ¬ InTriangle x0.toNat y0.toNat x1.toNat y1.toNat x2.toNat y2.toNat px py → t.pixel px py = s.pixel px py) ∧
      (∀ px py, OnScreen px py → t.pixel px py = s.pixel px py ∨ t.pixel px py = c) ∧
      (∀ i, ¬ Holds (InTriangle x0.toNat y0.toNat x1.toNat y1.toNat x2.toNat y2.toNat) i →
        t.fbByte i = s.fbByte i) ∧
      TransmitKept s t (Holds (InTriangle x0.toNat y0.toNat x1.toNat y1.toNat x2.toNat y2.toNat))

/-- FTRI covers (R131): every screen pixel of the closed triangle, edges and vertices included, gets the colour. -/
def Obligations.FtriCoversTheTriangle : Prop :=
  ∀ (c : Colour) (x0 y0 x1 y1 x2 y2 : Byte) (s : State), s.fb.wf →
    ∃ t, exec (.ftri c x0 y0 x1 y1 x2 y2) s = .next t ∧
      ∀ px py, OnScreen px py →
        InTriangle x0.toNat y0.toNat x1.toNat y1.toNat x2.toNat y2.toNat px py → t.pixel px py = c

/-- CIRCLE (R132, R133): exactly the pixels of the circle, all four quadrants, on the screen get the colour. -/
def Obligations.CircleResult : Prop :=
  ∀ (c : Colour) (xc yc r : Byte) (s : State), s.fb.wf →
    ∃ t, exec (.circle c xc yc r) s = .next t ∧ OnlyDrew s t ∧
      Drew s t (OnCircle xc.toNat yc.toNat r.toNat 0b1111) fun _ _ => c

/-- PCIRCLE (R132, R134): exactly the pixels of the circle in the enabled quadrants on the screen get the colour. -/
def Obligations.PcircleResult : Prop :=
  ∀ (c : Colour) (xc yc r : Byte) (corners : BitVec 4) (s : State), s.fb.wf →
    ∃ t, exec (.pcircle c xc yc r corners) s = .next t ∧ OnlyDrew s t ∧
      Drew s t (OnCircle xc.toNat yc.toNat r.toNat corners) fun _ _ => c

/-! ## The blitter -/

/-- BLIT (R162): destination pixel `(x0+i, y0+j)` becomes bit `j mod 8` of the source byte at
`addr + (j div 8)·width + i` (mod 2^16), for every `(i, j)` of the bitmap that lands on the screen; every other pixel is
unchanged. -/
def Obligations.BlitResult : Prop :=
  ∀ (addr : SrcAddr) (x0 y0 width height : Byte) (s : State), s.fb.wf →
    ∃ t, exec (.blit addr x0 y0 width height) s = .next t ∧ OnlyDrew s t ∧
      Drew s t
        (fun px py => x0.toNat ≤ px ∧ px < x0.toNat + width.toNat ∧ y0.toNat ≤ py ∧ py < y0.toNat + height.toNat)
        fun px py =>
          (s.src.read ((addr.toNat + (py - y0.toNat) / 8 * width.toNat + (px - x0.toNat)) % 65536)).getLsbD
            ((py - y0.toNat) % 8)

/-- BLITF (R163): aligned, each whole byte of the bitmap that lands on the screen is stored and no other byte changes;
not aligned, nothing is drawn; the response is OK in both cases. -/
def Obligations.BlitfResult : Prop :=
  ∀ (addr : SrcAddr) (x0 y0 width height : Byte) (s : State), s.fb.wf →
    ∃ t, exec (.blitf addr x0 y0 width height) s = .next t ∧ OnlyDrew s t ∧
      (if y0.toNat % 8 = 0 ∧ height.toNat % 8 = 0 then
        (let lands := fun k i => k < height.toNat / 8 ∧ i < width.toNat ∧ y0.toNat / 8 + k < 6 ∧ x0.toNat + i < 84
         (∀ k i, lands k i → t.fbByte ((y0.toNat / 8 + k) * 84 + x0.toNat + i) =
            s.src.read ((addr.toNat + k * width.toNat + i) % 65536)) ∧
         (∀ a, (∀ k i, lands k i → a ≠ (y0.toNat / 8 + k) * 84 + x0.toNat + i) → t.fbByte a = s.fbByte a) ∧
         TransmitKept s t fun a => ∃ k i, lands k i ∧ a = (y0.toNat / 8 + k) * 84 + x0.toNat + i)
      else t.fb = s.fb ∧ t.tx = s.tx)

/-- R164: with `y0` and `height` multiples of 8, BLIT and BLITF with the same operands leave the same framebuffer. -/
def Obligations.AlignedBlitsAgree : Prop :=
  ∀ (addr : SrcAddr) (x0 y0 width height : Byte) (s : State), s.fb.wf → y0.toNat % 8 = 0 → height.toNat % 8 = 0 →
    ∃ t u, exec (.blit addr x0 y0 width height) s = .next t ∧ exec (.blitf addr x0 y0 width height) s = .next u ∧
      t.fb = u.fb

/-! ## The text engine -/

/-- The glyph decoder's unpack (R172): bit `b` of column `k` is bit `6k + b` of the stream whose byte 0 is `b0`, and the
packing of R172 is undone. -/
def Obligations.UnpackFollowsTheStream : Prop :=
  (∀ b0 b1 b2 : Byte, (unpackSmall b0 b1 b2).length = 4 ∧
    ∀ k b, k < 4 → b < 6 → ((unpackSmall b0 b1 b2).getD k 0).getLsbD b =
      Nat.testBit (b0.toNat + 256 * b1.toNat + 65536 * b2.toNat) (6 * k + b)) ∧
  ∀ c0 c1 c2 c3 : BitVec 6,
    unpackSmall (c0.setWidth 8 ||| ((c1.setWidth 8 &&& 0x03) <<< 6))
      ((c1.setWidth 8 >>> 2) ||| ((c2.setWidth 8 &&& 0x0F) <<< 4))
      ((c2.setWidth 8 >>> 4) ||| (c3.setWidth 8 <<< 2)) = [c0, c1, c2, c3]

/-- The font codes (R83), the glyph widths (R170), and the shift of each pair of font and alignment code, none where the
pair is unsupported (R84, R174). -/
def Obligations.FontAndAlignmentCodes : Prop :=
  (fontOfCode 0 = some .small ∧ fontOfCode 1 = some .medium ∧ fontOfCode 2 = some .large ∧ fontOfCode 3 = none) ∧
  (Font.small.width = 4 ∧ Font.medium.width = 5 ∧ Font.large.width = 6) ∧
  ([0, 1, 2, 3].map (alignShift .small) = [some 0, some 2, some 1, none] ∧
    [0, 1, 2, 3].map (alignShift .medium) = [some 0, some 1, none, none] ∧
    [0, 1, 2, 3].map (alignShift .large) = [some 0, none, none, none])

/-- `DecodeGlyph` (R173 to R176): a medium or large glyph's column `k` is its ROM byte `k` (medium: low 7 bits), a small
glyph's the unpacked column; then shifted left by `sh`, then complemented when inverted; `FW` columns in all. -/
def Obligations.DecodeGlyphShiftsThenInverts : Prop :=
  ∀ (cfg : Config) (f : Font) (g sh : Nat) (inv : Bool),
    (decodeGlyph cfg f g sh inv).length = f.width ∧
    ∀ k b, k < f.width → b < 8 →
      ((decodeGlyph cfg f g sh inv).getD k 0).getLsbD b =
        (inv ^^ (decide (sh ≤ b) &&
          match f with
          | .small => ((unpackSmall (fontRead cfg .small g 0) (fontRead cfg .small g 1)
              (fontRead cfg .small g 2)).getD k 0).getLsbD (b - sh)
          | .medium => decide (b - sh < 7) && (fontRead cfg .medium g k).getLsbD (b - sh)
          | .large => (fontRead cfg .large g k).getLsbD (b - sh)))

/-- SETCUR (R177): a position on the screen becomes the cursor, any other is ignored as a whole; nothing else
changes. -/
def Obligations.SetcurResult : Prop :=
  ∀ (x y : Byte) (s : State),
    exec (.setcur x y) s = .next (if x.toNat < 84 ∧ y.toNat < 6 then
      { s with curX := x.setWidth 7, curY := y.setWidth 3, responses := s.responses ++ [⟨.ok, 0x00⟩] }
      else { s with responses := s.responses ++ [⟨.ok, 0x00⟩] })

/-- PRINTC (R179) completes for every string, wherever the cursor is: the response is OK, only framebuffer, cursor and
(for a frame in flight) `TX` change, and no byte outside the framebuffer; a cursor in range stays in range (R26). That
a cursor out of range draws no byte outside the framebuffer rests on the model's choice (notes/assumptions/11.md). -/
def Obligations.PrintcCompletes : Prop :=
  ∀ (tinv : Bool) (font align : BitVec 2) (addr : SrcAddr) (len : Byte) (s : State),
    s.fb.wf → (Instr.printc tinv font align addr len).wellFormed = true →
    ∃ t, exec (.printc tinv font align addr len) s = .next t ∧
      t = { s with fb := t.fb, tx := t.tx, draws := t.draws, curX := t.curX, curY := t.curY,
                   responses := s.responses ++ [⟨.ok, 0x00⟩] } ∧
      (s.curX.toNat ≤ 84 ∧ s.curY.toNat < 6 → t.curX.toNat ≤ 84 ∧ t.curY.toNat < 6) ∧
      TransmitKept s t (· < 504) ∧ ∀ i, 504 ≤ i → t.fbByte i = s.fbByte i

/-- PRINTC of one printable character (R178, R179): if the glyph does not fit on the line the cursor first goes to the
start of the next bank row (from the last to the first); the glyph's columns replace whole bytes at the cursor, no other
byte changes, and the cursor advances by the glyph's width. -/
def Obligations.PrintcStoresOneGlyph : Prop :=
  ∀ (tinv : Bool) (font align : BitVec 2) (addr : SrcAddr) (s : State) (f : Font) (sh : Nat),
    s.fb.wf → s.curX.toNat ≤ 84 → s.curY.toNat < 6 → fontOfCode font = some f → alignShift f align = some sh →
    0x20 ≤ (s.src.read addr.toNat).toNat → (s.src.read addr.toNat).toNat ≤ 0x7E →
    (let wraps := 84 < s.curX.toNat + f.width
     let x := if wraps then 0 else s.curX.toNat
     let y := if wraps then (if s.curY.toNat = 5 then 0 else s.curY.toNat + 1) else s.curY.toNat
     ∃ t, exec (.printc tinv font align addr 1) s = .next t ∧
      t = { s with fb := t.fb, tx := t.tx, draws := t.draws, curX := t.curX, curY := t.curY,
                   responses := s.responses ++ [⟨.ok, 0x00⟩] } ∧
      t.curX.toNat = x + f.width ∧ t.curY.toNat = y ∧
      (∀ k, k < f.width → t.fbByte (y * 84 + x + k) =
        (decodeGlyph s.cfg f ((s.src.read addr.toNat).toNat - 0x20) sh tinv).getD k 0) ∧
      (∀ i, ¬ (y * 84 + x ≤ i ∧ i < y * 84 + x + f.width) → t.fbByte i = s.fbByte i) ∧
      TransmitKept s t fun i => y * 84 + x ≤ i ∧ i < y * 84 + x + f.width)

/-- PRINTC of a line break moves the cursor to the start of the next bank row, from the last (or a row R26 excludes) to the
first; an unprintable character changes nothing (R171, R178, R179). -/
def Obligations.PrintcLineBreakAndSkip : Prop :=
  ∀ (tinv : Bool) (font align : BitVec 2) (addr : SrcAddr) (s : State),
    (Instr.printc tinv font align addr 1).wellFormed = true →
    (s.src.read addr.toNat = 0x0A →
      ∃ t, exec (.printc tinv font align addr 1) s = .next t ∧
        t = { s with draws := t.draws, curX := 0, curY := if 5 ≤ s.curY.toNat then 0 else s.curY + 1,
                     responses := s.responses ++ [⟨.ok, 0x00⟩] }) ∧
    (s.src.read addr.toNat ≠ 0x0A →
      ((s.src.read addr.toNat).toNat < 0x20 ∨ 0x7E < (s.src.read addr.toNat).toNat) →
      ∃ t, exec (.printc tinv font align addr 1) s = .next t ∧
        t = { s with draws := t.draws, responses := s.responses ++ [⟨.ok, 0x00⟩] })

/-- A text without a printable character, the empty one among them, draws nothing: PRINTC moves the cursor only where
the text holds a line break, PRINTAT moves no cursor at all (R171, R179, R180). -/
def Obligations.TextWithoutGlyphsDrawsNothing : Prop :=
  ∀ (tinv : Bool) (font align : BitVec 2) (addr : SrcAddr) (len x y : Byte) (s : State),
    (∀ j, j < len.toNat → (s.src.read ((addr.toNat + j) % 65536)).toNat < 0x20 ∨
      0x7E < (s.src.read ((addr.toNat + j) % 65536)).toNat) →
    ((Instr.printc tinv font align addr len).wellFormed = true →
      ∃ t, exec (.printc tinv font align addr len) s = .next t ∧
        t = { s with draws := t.draws, curX := t.curX, curY := t.curY, responses := s.responses ++ [⟨.ok, 0x00⟩] } ∧
        ((∀ j, j < len.toNat → s.src.read ((addr.toNat + j) % 65536) ≠ 0x0A) →
          t.curX = s.curX ∧ t.curY = s.curY)) ∧
    ((Instr.printat tinv font addr len x y).wellFormed = true →
      ∃ t, exec (.printat tinv font addr len x y) s = .next t ∧
        t = { s with draws := t.draws, responses := s.responses ++ [⟨.ok, 0x00⟩] })

/-- A text split into two consecutive PRINTC commands leaves the framebuffer and the cursor of the one long print (R82);
all three commands complete. -/
def Obligations.PrintcOfASplitText : Prop :=
  ∀ (tinv : Bool) (font align : BitVec 2) (addr : SrcAddr) (m n : Byte) (s : State),
    m.toNat + n.toNat ≤ 255 →
    ∃ t u v, exec (.printc tinv font align addr (m + n)) s = .next t ∧
    exec (.printc tinv font align addr m) s = .next u ∧
    exec (.printc tinv font align (addr + m.setWidth 16) n) u = .next v ∧
    v.fb = t.fb ∧ v.curX = t.curX ∧ v.curY = t.curY

/-- PRINTAT of one printable character (R180): the glyph is blitted as an opaque cell `FW` wide and 8 high at the given
position, or at the start of the next line (8 rows down, row 0 past the bottom) if it does not fit; every other pixel
and the cursor are unchanged. -/
def Obligations.PrintatBlitsOneGlyph : Prop :=
  ∀ (tinv : Bool) (font : BitVec 2) (addr : SrcAddr) (x y : Byte) (s : State) (f : Font),
    s.fb.wf → fontOfCode font = some f →
    0x20 ≤ (s.src.read addr.toNat).toNat → (s.src.read addr.toNat).toNat ≤ 0x7E →
    (let wraps := 84 < x.toNat + f.width
     let px := if wraps then 0 else x.toNat
     let py := if wraps then (if 48 ≤ y.toNat + 8 then 0 else y.toNat + 8) else y.toNat
     ∃ t, exec (.printat tinv font addr 1 x y) s = .next t ∧ OnlyDrew s t ∧
      Drew s t (fun i j => px ≤ i ∧ i < px + f.width ∧ py ≤ j ∧ j < py + 8) fun i j =>
        ((decodeGlyph s.cfg f ((s.src.read addr.toNat).toNat - 0x20) 0 tinv).getD (i - px) 0).getLsbD (j - py))

/-- PRINTAT completes for every string (R180), changing only the framebuffer and (for a frame in flight) `TX`; and its
characters run one after another: a text of one character more is its first character printed at the position, then the
rest printed where that character left the position. -/
def Obligations.PrintatRunsCharByChar : Prop :=
  ∀ (tinv : Bool) (font : BitVec 2) (addr : SrcAddr) (n x y : Byte) (s : State) (f : Font),
    s.fb.wf → fontOfCode font = some f → n.toNat < 255 →
    (let ch := (s.src.read addr.toNat).toNat
     let wraps := 84 < x.toNat + f.width
     let down : Byte := if 48 ≤ y.toNat + 8 then 0 else y + 8
     let next : Byte × Byte :=
       if ch = 0x0A then (0, down)
       else if ch < 0x20 ∨ 0x7E < ch then (x, y)
       else if wraps then (BitVec.ofNat 8 f.width, down) else (x + BitVec.ofNat 8 f.width, y)
     ∃ t u v, exec (.printat tinv font addr (n + 1) x y) s = .next t ∧ OnlyDrew s t ∧ TransmitKept s t (· < 504) ∧
      (∀ i, 504 ≤ i → t.fbByte i = s.fbByte i) ∧
      exec (.printat tinv font addr 1 x y) s = .next u ∧
      exec (.printat tinv font (addr + 1) n next.1 next.2) u = .next v ∧ v.fb = t.fb)

/-- R181: a PRINTC or PRINTAT with an unsupported option combination responds `(REJECTED, 0x00)` and changes nothing
else. -/
def Obligations.UnsupportedOptionsRejected : Prop :=
  ∀ (i : Instr) (s : State), i.wellFormed = false →
    exec i s = .next { s with responses := s.responses ++ [⟨.rejected, 0x00⟩] }

/-! ## Device control -/

/-- INIT (R203), not failing fast: `CONTRAST` and `BIAS` take the clamped operands, kept whatever the transport
answers, and the initialization sequence with them is sent as one command frame. -/
def Obligations.InitResult : Prop :=
  ∀ (contrast bias : Byte) (s : State), ¬ s.FailsFast →
    (let ct := BitVec.ofNat 7 (min contrast.toNat 0x7F)
     let bs := BitVec.ofNat 3 (min bias.toNat 7)
     exec (.init contrast bias) s =
      .next ({ s with contrast := ct, bias := bs }.afterSend .command (initBytes s.cfg.cmd bs ct)))

/-- INVERT (R204), not failing fast: the display-mode byte the argument selects is sent; no state but `BUSY` and `TX`
changes. -/
def Obligations.InvertResult : Prop :=
  ∀ (v : Bool) (s : State), ¬ s.FailsFast →
    exec (.invert v) s =
      .next (s.afterSend .command [if v then s.cfg.cmd.dispInverse else s.cfg.cmd.dispNormal])

/-- SLEEP (R205), not failing fast: 1 sends the power-down byte, 0 the initialization sequence with the stored
registers. -/
def Obligations.SleepResult : Prop :=
  ∀ (v : Bool) (s : State), ¬ s.FailsFast →
    exec (.sleep v) s =
      .next (s.afterSend .command (if v then [s.cfg.cmd.powerDown] else initBytes s.cfg.cmd s.bias s.contrast))

/-- CONTRAST (R206), not failing fast: the register takes the clamped operand and the three-byte frame is sent. -/
def Obligations.ContrastResult : Prop :=
  ∀ (value : Byte) (s : State), ¬ s.FailsFast →
    (let ct := BitVec.ofNat 7 (min value.toNat 0x7F)
     exec (.contrast value) s = .next ({ s with contrast := ct }.afterSend .command
      [s.cfg.cmd.ext, s.cfg.cmd.vop ||| ct.setWidth 8, s.cfg.cmd.normal]))

/-- BIAS (R207), not failing fast: the register takes the clamped operand and the three-byte frame is sent. -/
def Obligations.BiasResult : Prop :=
  ∀ (value : Byte) (s : State), ¬ s.FailsFast →
    (let bs := BitVec.ofNat 3 (min value.toNat 7)
     exec (.bias value) s = .next ({ s with bias := bs }.afterSend .command
      [s.cfg.cmd.ext, s.cfg.cmd.bias ||| bs.setWidth 8, s.cfg.cmd.normal]))

/-- The clamps saturate (R208): a value in range is kept, a larger one becomes the largest. -/
def Obligations.ClampsSaturate : Prop :=
  ∀ v : Byte, (clampContrast v).toNat = (if v.toNat ≤ 0x7F then v.toNat else 0x7F) ∧
    (clampBias v).toNat = if v.toNat ≤ 7 then v.toNat else 7
end

