-- ==== Sys2Proof/Laws/Memory.lean ====
section
/-! SUPPORT. The laws of a byte memory: reading after writing, and the canonical form is kept. -/

namespace Sys2Proof.Machine

@[simp] theorem Memory.read_nil (i : Nat) : Memory.read [] i = unlistedByte := rfl

theorem Memory.wf_nil : Memory.wf [] := by simp [Memory.wf]

theorem Memory.wf_tail {p : Host.Cell} {m : Memory} (h : Memory.wf (p :: m)) : m.wf :=
  ⟨h.1.of_cons, fun q hq => h.2 q (by simp [hq])⟩

theorem Memory.read_below_all {m : Memory} {i : Nat} (h : ∀ p ∈ m, i < p.1) : m.read i = unlistedByte := by
  cases m with
  | nil => rfl
  | cons p m => simp [Memory.read, h p (by simp)]

/-- Reading after a write to the same address gives the value written. -/
theorem Memory.read_write_same {m : Memory} (h : m.wf) (i : Nat) (v : Byte) : (m.write i v).read i = v := by
  induction m with
  | nil => by_cases hv : v = unlistedByte <;> simp [Memory.write, Memory.read, hv]
  | cons p m ih =>
    obtain ⟨a, b⟩ := p
    have hm := Memory.wf_tail h
    have hgt : ∀ q ∈ m, a < q.1 := fun q hq => (List.pairwise_cons.mp h.1).1 q hq
    unfold Memory.write
    split
    · by_cases hv : v = unlistedByte <;> simp_all [Memory.read]
    · split
      · subst_vars
        by_cases hv : v = unlistedByte
        · simpa [hv] using Memory.read_below_all hgt
        · simp [hv, Memory.read]
      · simp_all [Memory.read]

/-- A write leaves every other address alone. -/
theorem Memory.read_write_other {m : Memory} (h : m.wf) {i j : Nat} (v : Byte) (hij : j ≠ i) :
    (m.write i v).read j = m.read j := by
  induction m with
  | nil => by_cases hv : v = unlistedByte <;> simp [Memory.write, Memory.read, hv, hij]
  | cons p m ih =>
    obtain ⟨a, b⟩ := p
    have hm := Memory.wf_tail h
    have hgt : ∀ q ∈ m, a < q.1 := fun q hq => (List.pairwise_cons.mp h.1).1 q hq
    unfold Memory.write
    split
    · by_cases hv : v = unlistedByte
      · simp [hv]
      · by_cases hj : j < i
        · have : j < a := by omega
          simp [hv, Memory.read, hj, this]
        · simp [hv, Memory.read, hj, hij]
    · split
      · subst_vars
        by_cases hv : v = unlistedByte
        · by_cases hj : j < a
          · simpa [hv, Memory.read, hj] using Memory.read_below_all fun q hq => by have := hgt q hq; omega
          · simp [hv, Memory.read, hj, hij]
        · simp [hv, Memory.read, hij]
      · simp [Memory.read, ih hm]

theorem Memory.read_write {m : Memory} (h : m.wf) (i j : Nat) (v : Byte) :
    (m.write i v).read j = if j = i then v else m.read j := by
  by_cases hij : j = i
  · simp [hij, Memory.read_write_same h]
  · simp [hij, Memory.read_write_other h]

theorem Memory.mem_write {m : Memory} {i : Nat} {v : Byte} {p : Host.Cell} (h : p ∈ m.write i v) :
    p ∈ m ∨ (p = (i, v) ∧ v ≠ unlistedByte) := by
  induction m with
  | nil => by_cases hv : v = unlistedByte <;> simp_all [Memory.write]
  | cons q m ih =>
    obtain ⟨a, b⟩ := q
    unfold Memory.write at h
    split at h
    · split at h
      · exact .inl h
      · rcases List.mem_cons.mp h with h | h
        · exact .inr ⟨h, by assumption⟩
        · exact .inl h
    · split at h
      · split at h
        · exact .inl (List.mem_cons_of_mem _ h)
        · rcases List.mem_cons.mp h with h | h
          · exact .inr ⟨h, by assumption⟩
          · exact .inl (List.mem_cons_of_mem _ h)
      · rcases List.mem_cons.mp h with h | h
        · simp [h]
        · rcases ih h with h | h <;> simp [h]

/-- A write keeps the canonical form. -/
theorem Memory.wf_write {m : Memory} (h : m.wf) (i : Nat) (v : Byte) : (m.write i v).wf := by
  refine ⟨?_, fun p hp => ?_⟩
  · induction m with
    | nil => by_cases hv : v = unlistedByte <;> simp [Memory.write, hv]
    | cons p m ih =>
      obtain ⟨a, b⟩ := p
      have hm := Memory.wf_tail h
      have hgt : ∀ q ∈ m, a < q.1 := fun q hq => (List.pairwise_cons.mp h.1).1 q hq
      unfold Memory.write
      split
      · by_cases hv : v = unlistedByte
        · simpa [hv] using h.1
        · simp only [hv, if_false]
          refine List.pairwise_cons.mpr ⟨fun q hq => ?_, h.1⟩
          rcases List.mem_cons.mp hq with rfl | hq
          · assumption
          · have := hgt q hq; simp only; omega
      · split
        · subst_vars
          by_cases hv : v = unlistedByte
          · simpa [hv] using hm.1
          · simpa [hv] using ⟨fun a' b' hq => hgt (a', b') hq, hm.1⟩
        · refine List.pairwise_cons.mpr ⟨fun q hq => ?_, ih hm⟩
          rcases Memory.mem_write hq with hq | ⟨rfl, -⟩
          · exact hgt q hq
          · simp only; omega
  · rcases Memory.mem_write hp with hp | ⟨rfl, hv⟩
    · exact h.2 p hp
    · exact hv

/-- A write below `n` keeps every listed address below `n`. -/
theorem Memory.below_write {n : Nat} {m : Memory} (h : m.below n) {i : Nat} (hi : i < n) (v : Byte) :
    (m.write i v).below n := by
  intro p hp
  rcases Memory.mem_write hp with hp | ⟨rfl, -⟩
  · exact h p hp
  · exact hi

theorem Memory.wf_load {m : Memory} (h : m.wf) (base : Nat) (bs : List Byte) : (m.load base bs).wf := by
  induction bs generalizing m base with
  | nil => exact h
  | cons b bs ih => exact ih (Memory.wf_write h _ _) _

theorem Memory.below_load {n : Nat} {m : Memory} (h : m.below n) (base : Nat) (bs : List Byte)
    (hb : base + bs.length ≤ n) : (m.load base bs).below n := by
  induction bs generalizing m base with
  | nil => exact h
  | cons b bs ih =>
    have hl : (b :: bs).length = bs.length + 1 := rfl
    exact ih (Memory.below_write h (by omega) _) _ (by omega)

/-- Reading a loaded memory gives the loaded byte, or what was there before. -/
theorem Memory.read_load {m : Memory} (h : m.wf) (base : Nat) (bs : List Byte) (i : Nat) :
    (m.load base bs).read i = if base ≤ i then bs.getD (i - base) (m.read i) else m.read i := by
  induction bs generalizing m base with
  | nil => simp [Memory.load]
  | cons b bs ih =>
    rw [Memory.load, ih (Memory.wf_write h _ _), Memory.read_write h]
    by_cases h1 : base + 1 ≤ i
    · have h2 : i ≠ base := by omega
      have h3 : i - base = (i - (base + 1)) + 1 := by omega
      rw [if_pos h1, if_pos (by omega : base ≤ i), if_neg h2, h3]
      simp
    · by_cases h2 : i = base
      · subst h2; simp
      · rw [if_neg h1, if_neg h2, if_neg (by omega : ¬ base ≤ i)]

/-- Two memories in canonical form that read alike everywhere are equal. -/
theorem Memory.ext_read {m m' : Memory} (h : m.wf) (h' : m'.wf) (hr : ∀ i, m.read i = m'.read i) : m = m' := by
  induction m generalizing m' with
  | nil =>
    cases m' with
    | nil => rfl
    | cons p m' =>
      have := hr p.1
      simp [Memory.read] at this
      exact absurd this.symm (h'.2 p (by simp))
  | cons p m ih =>
    cases m' with
    | nil =>
      have := hr p.1
      simp [Memory.read] at this
      exact absurd this (h.2 p (by simp))
    | cons q m' =>
      obtain ⟨a, b⟩ := p
      obtain ⟨a', b'⟩ := q
      have hgt : ∀ q ∈ m, a < q.1 := fun q hq => (List.pairwise_cons.mp h.1).1 q hq
      have hgt' : ∀ q ∈ m', a' < q.1 := fun q hq => (List.pairwise_cons.mp h'.1).1 q hq
      have hb : b ≠ unlistedByte := h.2 (a, b) (by simp)
      have hb' : b' ≠ unlistedByte := h'.2 (a', b') (by simp)
      have haa : a = a' := by
        rcases Nat.lt_trichotomy a a' with hl | he | hl
        · have := hr a; simp [Memory.read, hl] at this; exact absurd this hb
        · exact he
        · have := hr a'; simp [Memory.read, hl] at this; exact absurd this.symm hb'
      subst haa
      have hbb : b = b' := by simpa [Memory.read] using hr a
      subst hbb
      rw [ih (Memory.wf_tail h) (Memory.wf_tail h') fun i => ?_]
      rcases Nat.lt_trichotomy i a with hl | he | hl
      · rw [Memory.read_below_all fun q hq => by have := hgt q hq; omega,
          Memory.read_below_all fun q hq => by have := hgt' q hq; omega]
      · rw [Memory.read_below_all fun q hq => by have := hgt q hq; omega,
          Memory.read_below_all fun q hq => by have := hgt' q hq; omega]
      · have := hr i
        have h1 : ¬ i < a := Nat.lt_asymm hl
        have h2 : i ≠ a := Nat.ne_of_gt hl
        simpa only [Memory.read, if_neg h1, if_neg h2] using this

end Sys2Proof.Machine
end

