-- ==== Sys2Proof/Laws/State.lean ====
section
/-! SUPPORT. One lemma per field per update of the state, true by `rfl`. -/

namespace Sys2Proof.Machine

open Config

/-! `State.respond` -/

@[simp] theorem State.respond_fb (s : State) (st : Status) (v : Byte) : (s.respond st v).fb = s.fb := rfl
@[simp] theorem State.respond_curX (s : State) (st : Status) (v : Byte) : (s.respond st v).curX = s.curX := rfl
@[simp] theorem State.respond_curY (s : State) (st : Status) (v : Byte) : (s.respond st v).curY = s.curY := rfl
@[simp] theorem State.respond_busy (s : State) (st : Status) (v : Byte) : (s.respond st v).busy = s.busy := rfl
@[simp] theorem State.respond_contrast (s : State) (st : Status) (v : Byte) : (s.respond st v).contrast = s.contrast := rfl
@[simp] theorem State.respond_bias (s : State) (st : Status) (v : Byte) : (s.respond st v).bias = s.bias := rfl
@[simp] theorem State.respond_tx (s : State) (st : Status) (v : Byte) : (s.respond st v).tx = s.tx := rfl
@[simp] theorem State.respond_inFlight (s : State) (st : Status) (v : Byte) : (s.respond st v).inFlight = s.inFlight := rfl
@[simp] theorem State.respond_src (s : State) (st : Status) (v : Byte) : (s.respond st v).src = s.src := rfl
@[simp] theorem State.respond_cfg (s : State) (st : Status) (v : Byte) : (s.respond st v).cfg = s.cfg := rfl
@[simp] theorem State.respond_responses (s : State) (st : Status) (v : Byte) : (s.respond st v).responses = s.responses ++ [⟨st, v⟩] := rfl
@[simp] theorem State.respond_inputs (s : State) (st : Status) (v : Byte) : (s.respond st v).inputs = s.inputs := rfl
@[simp] theorem State.respond_answers (s : State) (st : Status) (v : Byte) : (s.respond st v).answers = s.answers := rfl
@[simp] theorem State.respond_draws (s : State) (st : Status) (v : Byte) : (s.respond st v).draws = s.draws := rfl

/-! `State.reject` -/

@[simp] theorem State.reject_fb (s : State) : (s.reject).fb = s.fb := rfl
@[simp] theorem State.reject_curX (s : State) : (s.reject).curX = s.curX := rfl
@[simp] theorem State.reject_curY (s : State) : (s.reject).curY = s.curY := rfl
@[simp] theorem State.reject_busy (s : State) : (s.reject).busy = s.busy := rfl
@[simp] theorem State.reject_contrast (s : State) : (s.reject).contrast = s.contrast := rfl
@[simp] theorem State.reject_bias (s : State) : (s.reject).bias = s.bias := rfl
@[simp] theorem State.reject_tx (s : State) : (s.reject).tx = s.tx := rfl
@[simp] theorem State.reject_inFlight (s : State) : (s.reject).inFlight = s.inFlight := rfl
@[simp] theorem State.reject_src (s : State) : (s.reject).src = s.src := rfl
@[simp] theorem State.reject_cfg (s : State) : (s.reject).cfg = s.cfg := rfl
@[simp] theorem State.reject_responses (s : State) : (s.reject).responses = s.responses ++ [⟨.rejected, 0x00⟩] := rfl
@[simp] theorem State.reject_inputs (s : State) : (s.reject).inputs = s.inputs := rfl
@[simp] theorem State.reject_answers (s : State) : (s.reject).answers = s.answers := rfl
@[simp] theorem State.reject_draws (s : State) : (s.reject).draws = s.draws := rfl

/-! `State.commit` -/

@[simp] theorem State.commit_fb (s : State) (cv : Canvas) : (s.commit cv).fb = cv.mem := rfl
@[simp] theorem State.commit_curX (s : State) (cv : Canvas) : (s.commit cv).curX = s.curX := rfl
@[simp] theorem State.commit_curY (s : State) (cv : Canvas) : (s.commit cv).curY = s.curY := rfl
@[simp] theorem State.commit_busy (s : State) (cv : Canvas) : (s.commit cv).busy = s.busy := rfl
@[simp] theorem State.commit_contrast (s : State) (cv : Canvas) : (s.commit cv).contrast = s.contrast := rfl
@[simp] theorem State.commit_bias (s : State) (cv : Canvas) : (s.commit cv).bias = s.bias := rfl
@[simp] theorem State.commit_tx (s : State) (cv : Canvas) : (s.commit cv).tx = s.txAfterWrites cv.touched := rfl
@[simp] theorem State.commit_inFlight (s : State) (cv : Canvas) : (s.commit cv).inFlight = s.inFlight := rfl
@[simp] theorem State.commit_src (s : State) (cv : Canvas) : (s.commit cv).src = s.src := rfl
@[simp] theorem State.commit_cfg (s : State) (cv : Canvas) : (s.commit cv).cfg = s.cfg := rfl
@[simp] theorem State.commit_responses (s : State) (cv : Canvas) : (s.commit cv).responses = s.responses := rfl
@[simp] theorem State.commit_inputs (s : State) (cv : Canvas) : (s.commit cv).inputs = s.inputs := rfl
@[simp] theorem State.commit_answers (s : State) (cv : Canvas) : (s.commit cv).answers = s.answers := rfl
@[simp] theorem State.commit_draws (s : State) (cv : Canvas) : (s.commit cv).draws = s.drawsAfterWrites := rfl

/-! `State.draw` -/

@[simp] theorem State.draw_fb (s : State) (p : Canvas → Canvas) : (s.draw p).fb = (p s.canvas).mem := rfl
@[simp] theorem State.draw_curX (s : State) (p : Canvas → Canvas) : (s.draw p).curX = s.curX := rfl
@[simp] theorem State.draw_curY (s : State) (p : Canvas → Canvas) : (s.draw p).curY = s.curY := rfl
@[simp] theorem State.draw_busy (s : State) (p : Canvas → Canvas) : (s.draw p).busy = s.busy := rfl
@[simp] theorem State.draw_contrast (s : State) (p : Canvas → Canvas) : (s.draw p).contrast = s.contrast := rfl
@[simp] theorem State.draw_bias (s : State) (p : Canvas → Canvas) : (s.draw p).bias = s.bias := rfl
@[simp] theorem State.draw_tx (s : State) (p : Canvas → Canvas) : (s.draw p).tx = s.txAfterWrites (p s.canvas).touched := rfl
@[simp] theorem State.draw_inFlight (s : State) (p : Canvas → Canvas) : (s.draw p).inFlight = s.inFlight := rfl
@[simp] theorem State.draw_src (s : State) (p : Canvas → Canvas) : (s.draw p).src = s.src := rfl
@[simp] theorem State.draw_cfg (s : State) (p : Canvas → Canvas) : (s.draw p).cfg = s.cfg := rfl
@[simp] theorem State.draw_responses (s : State) (p : Canvas → Canvas) : (s.draw p).responses = s.responses := rfl
@[simp] theorem State.draw_inputs (s : State) (p : Canvas → Canvas) : (s.draw p).inputs = s.inputs := rfl
@[simp] theorem State.draw_answers (s : State) (p : Canvas → Canvas) : (s.draw p).answers = s.answers := rfl
@[simp] theorem State.draw_draws (s : State) (p : Canvas → Canvas) : (s.draw p).draws = s.drawsAfterWrites := rfl

/-! `State.srcWrite` -/

@[simp] theorem State.srcWrite_fb (s : State) (a : SrcAddr) (v : Byte) : (s.srcWrite a v).fb = s.fb := rfl
@[simp] theorem State.srcWrite_curX (s : State) (a : SrcAddr) (v : Byte) : (s.srcWrite a v).curX = s.curX := rfl
@[simp] theorem State.srcWrite_curY (s : State) (a : SrcAddr) (v : Byte) : (s.srcWrite a v).curY = s.curY := rfl
@[simp] theorem State.srcWrite_busy (s : State) (a : SrcAddr) (v : Byte) : (s.srcWrite a v).busy = s.busy := rfl
@[simp] theorem State.srcWrite_contrast (s : State) (a : SrcAddr) (v : Byte) : (s.srcWrite a v).contrast = s.contrast := rfl
@[simp] theorem State.srcWrite_bias (s : State) (a : SrcAddr) (v : Byte) : (s.srcWrite a v).bias = s.bias := rfl
@[simp] theorem State.srcWrite_tx (s : State) (a : SrcAddr) (v : Byte) : (s.srcWrite a v).tx = s.tx := rfl
@[simp] theorem State.srcWrite_inFlight (s : State) (a : SrcAddr) (v : Byte) : (s.srcWrite a v).inFlight = s.inFlight := rfl
@[simp] theorem State.srcWrite_src (s : State) (a : SrcAddr) (v : Byte) : (s.srcWrite a v).src = s.src.write a.toNat v := rfl
@[simp] theorem State.srcWrite_cfg (s : State) (a : SrcAddr) (v : Byte) : (s.srcWrite a v).cfg = s.cfg := rfl
@[simp] theorem State.srcWrite_responses (s : State) (a : SrcAddr) (v : Byte) : (s.srcWrite a v).responses = s.responses := rfl
@[simp] theorem State.srcWrite_inputs (s : State) (a : SrcAddr) (v : Byte) : (s.srcWrite a v).inputs = s.inputs := rfl
@[simp] theorem State.srcWrite_answers (s : State) (a : SrcAddr) (v : Byte) : (s.srcWrite a v).answers = s.answers := rfl
@[simp] theorem State.srcWrite_draws (s : State) (a : SrcAddr) (v : Byte) : (s.srcWrite a v).draws = s.draws := rfl

/-! `State.setCursor` -/

@[simp] theorem State.setCursor_fb (s : State) (x y : Nat) : (s.setCursor x y).fb = s.fb := rfl
@[simp] theorem State.setCursor_curX (s : State) (x y : Nat) : (s.setCursor x y).curX = BitVec.ofNat 7 x := rfl
@[simp] theorem State.setCursor_curY (s : State) (x y : Nat) : (s.setCursor x y).curY = BitVec.ofNat 3 y := rfl
@[simp] theorem State.setCursor_busy (s : State) (x y : Nat) : (s.setCursor x y).busy = s.busy := rfl
@[simp] theorem State.setCursor_contrast (s : State) (x y : Nat) : (s.setCursor x y).contrast = s.contrast := rfl
@[simp] theorem State.setCursor_bias (s : State) (x y : Nat) : (s.setCursor x y).bias = s.bias := rfl
@[simp] theorem State.setCursor_tx (s : State) (x y : Nat) : (s.setCursor x y).tx = s.tx := rfl
@[simp] theorem State.setCursor_inFlight (s : State) (x y : Nat) : (s.setCursor x y).inFlight = s.inFlight := rfl
@[simp] theorem State.setCursor_src (s : State) (x y : Nat) : (s.setCursor x y).src = s.src := rfl
@[simp] theorem State.setCursor_cfg (s : State) (x y : Nat) : (s.setCursor x y).cfg = s.cfg := rfl
@[simp] theorem State.setCursor_responses (s : State) (x y : Nat) : (s.setCursor x y).responses = s.responses := rfl
@[simp] theorem State.setCursor_inputs (s : State) (x y : Nat) : (s.setCursor x y).inputs = s.inputs := rfl
@[simp] theorem State.setCursor_answers (s : State) (x y : Nat) : (s.setCursor x y).answers = s.answers := rfl
@[simp] theorem State.setCursor_draws (s : State) (x y : Nat) : (s.setCursor x y).draws = s.draws := rfl

/-! `State.send` -/

@[simp] theorem State.send_fb (s : State) (k : FrameKind) (bs : List Byte) : (s.send k bs).fb = s.fb := rfl
@[simp] theorem State.send_curX (s : State) (k : FrameKind) (bs : List Byte) : (s.send k bs).curX = s.curX := rfl
@[simp] theorem State.send_curY (s : State) (k : FrameKind) (bs : List Byte) : (s.send k bs).curY = s.curY := rfl
@[simp] theorem State.send_busy (s : State) (k : FrameKind) (bs : List Byte) : (s.send k bs).busy = s.busy := rfl
@[simp] theorem State.send_contrast (s : State) (k : FrameKind) (bs : List Byte) : (s.send k bs).contrast = s.contrast := rfl
@[simp] theorem State.send_bias (s : State) (k : FrameKind) (bs : List Byte) : (s.send k bs).bias = s.bias := rfl
@[simp] theorem State.send_tx (s : State) (k : FrameKind) (bs : List Byte) : (s.send k bs).tx = s.tx ++ [⟨k, bs, s.answer⟩] := rfl
@[simp] theorem State.send_inFlight (s : State) (k : FrameKind) (bs : List Byte) : (s.send k bs).inFlight = s.inFlight := rfl
@[simp] theorem State.send_src (s : State) (k : FrameKind) (bs : List Byte) : (s.send k bs).src = s.src := rfl
@[simp] theorem State.send_cfg (s : State) (k : FrameKind) (bs : List Byte) : (s.send k bs).cfg = s.cfg := rfl
@[simp] theorem State.send_responses (s : State) (k : FrameKind) (bs : List Byte) : (s.send k bs).responses = s.responses := rfl
@[simp] theorem State.send_inputs (s : State) (k : FrameKind) (bs : List Byte) : (s.send k bs).inputs = s.inputs := rfl
@[simp] theorem State.send_answers (s : State) (k : FrameKind) (bs : List Byte) : (s.send k bs).answers = s.answers.tail := rfl
@[simp] theorem State.send_draws (s : State) (k : FrameKind) (bs : List Byte) : (s.send k bs).draws = s.draws + 1 := rfl

/-! `State.hardwareReset` -/

@[simp] theorem State.hardwareReset_fb (s : State) (d : ResetDraw) : (s.hardwareReset d).fb = Memory.load [] 0 (d.fb.take FBSIZE) := rfl
@[simp] theorem State.hardwareReset_curX (s : State) (d : ResetDraw) : (s.hardwareReset d).curX = 0 := rfl
@[simp] theorem State.hardwareReset_curY (s : State) (d : ResetDraw) : (s.hardwareReset d).curY = 0 := rfl
@[simp] theorem State.hardwareReset_busy (s : State) (d : ResetDraw) : (s.hardwareReset d).busy = false := rfl
@[simp] theorem State.hardwareReset_contrast (s : State) (d : ResetDraw) : (s.hardwareReset d).contrast = d.contrast := rfl
@[simp] theorem State.hardwareReset_bias (s : State) (d : ResetDraw) : (s.hardwareReset d).bias = d.bias := rfl
@[simp] theorem State.hardwareReset_tx (s : State) (d : ResetDraw) : (s.hardwareReset d).tx = [] := rfl
@[simp] theorem State.hardwareReset_inFlight (s : State) (d : ResetDraw) : (s.hardwareReset d).inFlight = none := rfl
@[simp] theorem State.hardwareReset_src (s : State) (d : ResetDraw) : (s.hardwareReset d).src = s.src := rfl
@[simp] theorem State.hardwareReset_cfg (s : State) (d : ResetDraw) : (s.hardwareReset d).cfg = s.cfg := rfl
@[simp] theorem State.hardwareReset_responses (s : State) (d : ResetDraw) : (s.hardwareReset d).responses = s.responses := rfl
@[simp] theorem State.hardwareReset_inputs (s : State) (d : ResetDraw) : (s.hardwareReset d).inputs = s.inputs := rfl
@[simp] theorem State.hardwareReset_answers (s : State) (d : ResetDraw) : (s.hardwareReset d).answers = s.answers := rfl
@[simp] theorem State.hardwareReset_draws (s : State) (d : ResetDraw) : (s.hardwareReset d).draws = s.draws := rfl

/-! `State.beginTransfer` -/

@[simp] theorem State.beginTransfer_fb (s : State) : (s.beginTransfer).fb = s.fb := rfl
@[simp] theorem State.beginTransfer_curX (s : State) : (s.beginTransfer).curX = s.curX := rfl
@[simp] theorem State.beginTransfer_curY (s : State) : (s.beginTransfer).curY = s.curY := rfl
@[simp] theorem State.beginTransfer_busy (s : State) : (s.beginTransfer).busy = (s.busy || s.cfg.nonBlocking) := rfl
@[simp] theorem State.beginTransfer_contrast (s : State) : (s.beginTransfer).contrast = s.contrast := rfl
@[simp] theorem State.beginTransfer_bias (s : State) : (s.beginTransfer).bias = s.bias := rfl
@[simp] theorem State.beginTransfer_tx (s : State) : (s.beginTransfer).tx = s.tx := rfl
@[simp] theorem State.beginTransfer_inFlight (s : State) : (s.beginTransfer).inFlight = if s.cfg.nonBlocking then some s.tx.length else s.inFlight := rfl
@[simp] theorem State.beginTransfer_src (s : State) : (s.beginTransfer).src = s.src := rfl
@[simp] theorem State.beginTransfer_cfg (s : State) : (s.beginTransfer).cfg = s.cfg := rfl
@[simp] theorem State.beginTransfer_responses (s : State) : (s.beginTransfer).responses = s.responses := rfl
@[simp] theorem State.beginTransfer_inputs (s : State) : (s.beginTransfer).inputs = s.inputs := rfl
@[simp] theorem State.beginTransfer_answers (s : State) : (s.beginTransfer).answers = s.answers := rfl
@[simp] theorem State.beginTransfer_draws (s : State) : (s.beginTransfer).draws = s.draws := rfl

/-! `State.takeInput` -/

@[simp] theorem State.takeInput_fb (s : State) : (s.takeInput).fb = s.fb := rfl
@[simp] theorem State.takeInput_curX (s : State) : (s.takeInput).curX = s.curX := rfl
@[simp] theorem State.takeInput_curY (s : State) : (s.takeInput).curY = s.curY := rfl
@[simp] theorem State.takeInput_busy (s : State) : (s.takeInput).busy = s.busy := rfl
@[simp] theorem State.takeInput_contrast (s : State) : (s.takeInput).contrast = s.contrast := rfl
@[simp] theorem State.takeInput_bias (s : State) : (s.takeInput).bias = s.bias := rfl
@[simp] theorem State.takeInput_tx (s : State) : (s.takeInput).tx = s.tx := rfl
@[simp] theorem State.takeInput_inFlight (s : State) : (s.takeInput).inFlight = s.inFlight := rfl
@[simp] theorem State.takeInput_src (s : State) : (s.takeInput).src = s.src := rfl
@[simp] theorem State.takeInput_cfg (s : State) : (s.takeInput).cfg = s.cfg := rfl
@[simp] theorem State.takeInput_responses (s : State) : (s.takeInput).responses = s.responses := rfl
@[simp] theorem State.takeInput_inputs (s : State) : (s.takeInput).inputs = s.inputs.tail := rfl
@[simp] theorem State.takeInput_answers (s : State) : (s.takeInput).answers = s.answers := rfl
@[simp] theorem State.takeInput_draws (s : State) : (s.takeInput).draws = s.draws := rfl

/-! `State.presentWord` -/

@[simp] theorem State.presentWord_fb (s : State) (w : CommandWord) : (s.presentWord w).fb = s.fb := rfl
@[simp] theorem State.presentWord_curX (s : State) (w : CommandWord) : (s.presentWord w).curX = s.curX := rfl
@[simp] theorem State.presentWord_curY (s : State) (w : CommandWord) : (s.presentWord w).curY = s.curY := rfl
@[simp] theorem State.presentWord_busy (s : State) (w : CommandWord) : (s.presentWord w).busy = s.busy := rfl
@[simp] theorem State.presentWord_contrast (s : State) (w : CommandWord) : (s.presentWord w).contrast = s.contrast := rfl
@[simp] theorem State.presentWord_bias (s : State) (w : CommandWord) : (s.presentWord w).bias = s.bias := rfl
@[simp] theorem State.presentWord_tx (s : State) (w : CommandWord) : (s.presentWord w).tx = s.tx := rfl
@[simp] theorem State.presentWord_inFlight (s : State) (w : CommandWord) : (s.presentWord w).inFlight = s.inFlight := rfl
@[simp] theorem State.presentWord_src (s : State) (w : CommandWord) : (s.presentWord w).src = s.src := rfl
@[simp] theorem State.presentWord_cfg (s : State) (w : CommandWord) : (s.presentWord w).cfg = s.cfg := rfl
@[simp] theorem State.presentWord_responses (s : State) (w : CommandWord) : (s.presentWord w).responses = s.responses := rfl
@[simp] theorem State.presentWord_inputs (s : State) (w : CommandWord) : (s.presentWord w).inputs = .command w :: s.inputs := rfl
@[simp] theorem State.presentWord_answers (s : State) (w : CommandWord) : (s.presentWord w).answers = s.answers := rfl
@[simp] theorem State.presentWord_draws (s : State) (w : CommandWord) : (s.presentWord w).draws = s.draws := rfl

/-! The canvas on which a command starts. -/

@[simp] theorem State.canvas_mem (s : State) : s.canvas.mem = s.fb := rfl
@[simp] theorem State.canvas_touched (s : State) : s.canvas.touched = [] := rfl

end Sys2Proof.Machine
end

