-- ==== Sys2Proof/Laws/Canvas.lean ====
section
/-! SUPPORT. What a drawing procedure does to the framebuffer, said once (`Canvas.Paints`): for the primitive writes,
for loops and compositions, and for the state after `State.draw`. -/

namespace Sys2Proof.Machine

open Config

/-! ## Pixel addressing -/

theorem pixelIndex_lt {x y : Nat} (h : OnScreen x y) : pixelIndex x y < FBSIZE := by
  obtain ⟨hx, hy⟩ := h
  simp only [W, H, FBSIZE, pixelIndex] at *
  omega

/-- Two screen pixels share a byte exactly when they share column and bank. -/
theorem pixelIndex_inj {x y x' y' : Nat} (h : OnScreen x y) (h' : OnScreen x' y') :
    pixelIndex x y = pixelIndex x' y' ↔ x = x' ∧ y / 8 = y' / 8 := by
  obtain ⟨hx, hy⟩ := h
  obtain ⟨hx', hy'⟩ := h'
  simp only [W, H, pixelIndex] at *
  omega

/-- Bit `b` of a byte below 504 is the pixel of its column in row `8 * bank + b`. -/
theorem pixelIndex_surj {i : Nat} (h : i < FBSIZE) (b : Nat) (hb : b < 8) :
    OnScreen (i % 84) (i / 84 * 8 + b) ∧ pixelIndex (i % 84) (i / 84 * 8 + b) = i ∧ (i / 84 * 8 + b) % 8 = b := by
  simp only [OnScreen, W, H, FBSIZE, pixelIndex] at *
  omega

theorem pixelMask_getLsbD (y b : Nat) (hb : b < 8) : (pixelMask y).getLsbD b = decide (b = y % 8) := by
  simp only [pixelMask, BitVec.getLsbD_ofNat, hb, decide_true, Bool.true_and]
  rw [Nat.testBit_two_pow]
  simp [eq_comm]

theorem spanMask_getLsbD (s k b : Nat) (hb : b < 8) :
    (spanMask s k).getLsbD b = decide (s ≤ b ∧ b < s + k) := by
  simp only [spanMask, BitVec.getLsbD_ofNat, hb, decide_true, Bool.true_and]
  rw [Nat.testBit_mul_two_pow, Nat.testBit_two_pow_sub_one]
  by_cases h1 : s ≤ b <;> simp [h1]
  omega

theorem solidByte_getLsbD (c : Colour) (b : Nat) (hb : b < 8) : (solidByte c).getLsbD b = c := by
  cases c <;> simp only [solidByte] <;> interval_cases b <;> decide

/-! ## Painting -/

/-- From `cv` to `cv'` the screen pixels of `shape` got their colour, no other pixel changed, and only bytes at
indices in `wr` were written. -/
structure Canvas.Painted (wr : Nat → Prop) (shape : Nat → Nat → Prop) (colour : Nat → Nat → Colour)
    (cv cv' : Canvas) : Prop where
  inside : ∀ x y, OnScreen x y → shape x y → cv'.mem.pixel x y = colour x y
  outside : ∀ x y, OnScreen x y → ¬ shape x y → cv'.mem.pixel x y = cv.mem.pixel x y
  bytes : ∀ i, ¬ wr i → cv'.byte i = cv.byte i
  touched : ∀ i ∈ cv'.touched, i ∈ cv.touched ∨ wr i
  wf : cv'.mem.wf

/-- What a drawing procedure does to every canvas in canonical form. -/
def Canvas.Paints (wr : Nat → Prop) (shape : Nat → Nat → Prop) (colour : Nat → Nat → Colour)
    (p : Canvas → Canvas) : Prop :=
  ∀ cv, cv.mem.wf → Canvas.Painted wr shape colour cv (p cv)

variable {wr wr' : Nat → Prop} {shape shape' : Nat → Nat → Prop} {colour colour' : Nat → Nat → Colour}
  {p q : Canvas → Canvas}

/-- A procedure's description may be replaced by an equivalent one. -/
theorem Canvas.Paints.congr (h : Canvas.Paints wr shape colour p)
    (hwr : ∀ i, wr i → wr' i) (hs : ∀ x y, OnScreen x y → (shape x y ↔ shape' x y))
    (hc : ∀ x y, OnScreen x y → shape' x y → colour x y = colour' x y) :
    Canvas.Paints wr' shape' colour' p := fun cv hcv =>
  have h := h cv hcv
  { inside := fun x y ho hx => by rw [h.inside x y ho ((hs x y ho).2 hx), hc x y ho hx]
    outside := fun x y ho hx => h.outside x y ho fun hn => hx ((hs x y ho).1 hn)
    bytes := fun i hi => h.bytes i fun hn => hi (hwr i hn)
    touched := fun i hi => (h.touched i hi).imp_right (hwr i)
    wf := h.wf }

/-- Doing nothing paints nothing. -/
theorem Canvas.paints_id (hs : ∀ x y, OnScreen x y → ¬ shape x y) : Canvas.Paints wr shape colour id := fun _ hcv =>
  { inside := fun x y ho hx => absurd hx (hs x y ho)
    outside := fun _ _ _ _ => rfl
    bytes := fun _ _ => rfl
    touched := fun _ hi => .inl hi
    wf := hcv }

/-- One procedure after another, in one colouring. -/
theorem Canvas.Paints.comp (h : Canvas.Paints wr shape colour p) (h' : Canvas.Paints wr' shape' colour q) :
    Canvas.Paints (fun i => wr i ∨ wr' i) (fun x y => shape x y ∨ shape' x y) colour (fun cv => q (p cv)) :=
  fun cv hcv =>
  have h1 := h cv hcv
  have h2 := h' (p cv) h1.wf
  { inside := fun x y ho hx => by
      by_cases hx' : shape' x y
      · exact h2.inside x y ho hx'
      · rw [h2.outside x y ho hx', h1.inside x y ho (hx.resolve_right hx')]
    outside := fun x y ho hx => by
      rw [h2.outside x y ho fun hn => hx (.inr hn), h1.outside x y ho fun hn => hx (.inl hn)]
    bytes := fun i hi => by rw [h2.bytes i fun hn => hi (.inr hn), h1.bytes i fun hn => hi (.inl hn)]
    touched := fun i hi => by
      rcases h2.touched i hi with hi | hi
      · exact (h1.touched i hi).imp_right .inl
      · exact .inr (.inr hi)
    wf := h2.wf }

/-- A loop paints the union of what its iterations paint. -/
theorem Canvas.paints_forUp {n : Nat} {f : Nat → Canvas → Canvas} {wr : Nat → Nat → Prop}
    {shape : Nat → Nat → Nat → Prop} (h : ∀ k < n, Canvas.Paints (wr k) (shape k) colour (f k)) :
    Canvas.Paints (fun i => ∃ k < n, wr k i) (fun x y => ∃ k < n, shape k x y) colour (forUp n f) := by
  induction n with
  | zero => exact Canvas.paints_id (by simp)
  | succ n ih =>
    refine ((ih fun k hk => h k (by omega)).comp (h n (by omega))).congr ?_ ?_ fun _ _ _ _ => rfl
    · rintro i (⟨k, hk, hi⟩ | hi)
      · exact ⟨k, by omega, hi⟩
      · exact ⟨n, by omega, hi⟩
    · intro x y _
      constructor
      · rintro (⟨k, hk, hi⟩ | hi)
        · exact ⟨k, by omega, hi⟩
        · exact ⟨n, by omega, hi⟩
      · rintro ⟨k, hk, hi⟩
        rcases Nat.lt_succ_iff_lt_or_eq.mp hk with hk | rfl
        · exact .inl ⟨k, hk, hi⟩
        · exact .inr hi

theorem Canvas.byte_store {cv : Canvas} (h : cv.mem.wf) (i j : Nat) (v : Byte) :
    (cv.store i v).byte j = if j = i then v else cv.byte j := Memory.read_write h i j v

/-- A whole-byte store gives the eight pixels of the byte the byte's bits (R41). -/
theorem Canvas.paints_store (i : Nat) (v : Byte) :
    Canvas.Paints (· = i) (fun x y => pixelIndex x y = i) (fun _ y => v.getLsbD (y % 8)) (Canvas.store i v) :=
  fun cv hcv =>
  { inside := fun x y _ hx => by
      simp only [Memory.pixel]
      rw [show (cv.store i v).mem.read (pixelIndex x y) = _ from Canvas.byte_store hcv i _ v, if_pos hx]
    outside := fun x y _ hx => by
      simp only [Memory.pixel]
      rw [show (cv.store i v).mem.read (pixelIndex x y) = _ from Canvas.byte_store hcv i _ v, if_neg hx]
      rfl
    bytes := fun j hj => by rw [Canvas.byte_store hcv, if_neg hj]
    touched := fun j hj => by
      rcases List.mem_cons.mp hj with hj | hj
      · exact .inr hj
      · exact .inl hj
    wf := Memory.wf_write hcv i v }

/-- `ApplyMask(i, m, c)` gives the pixels of byte `i` at the mask's bits the colour (R45). -/
theorem Canvas.paints_applyMask (i : Nat) (m : Byte) (c : Colour) :
    Canvas.Paints (· = i) (fun x y => pixelIndex x y = i ∧ m.getLsbD (y % 8) = true) (fun _ _ => c)
      (Canvas.applyMask i m c) := fun cv hcv =>
  have h := Canvas.paints_store i (if c then cv.byte i ||| m else cv.byte i &&& ~~~m) cv hcv
  have hb : ∀ y, y % 8 < 8 := fun y => Nat.mod_lt _ (by omega)
  { inside := fun x y ho hx => by
      refine (h.inside x y ho hx.1).trans ?_
      cases c <;> simp [hx.2]
    outside := fun x y ho hx => by
      by_cases hi : pixelIndex x y = i
      · have hm : m.getLsbD (y % 8) = false := by simpa [hi] using hx
        refine (h.inside x y ho hi).trans ?_
        rw [Memory.pixel, hi]
        cases c <;> simp [hm, Canvas.byte, hb y, -BitVec.getLsbD_eq_getElem]
      · exact h.outside x y ho hi
    bytes := h.bytes
    touched := h.touched
    wf := h.wf }

/-- `PutPixel(x, y, c)` gives the one pixel its colour if it is on the screen (R46). -/
theorem Canvas.paints_putPixel (px py : Int) (c : Colour) :
    Canvas.Paints (Holds fun x y => (x : Int) = px ∧ (y : Int) = py) (fun x y => (x : Int) = px ∧ (y : Int) = py)
      (fun _ _ => c) (Canvas.putPixel px py c) := by
  by_cases hon : 0 ≤ px ∧ px < W ∧ 0 ≤ py ∧ py < H
  · obtain ⟨hx0, hx, hy0, hy⟩ := hon
    have ho : OnScreen px.toNat py.toNat := by simp only [OnScreen, W, H] at *; omega
    have he : Canvas.putPixel px py c = Canvas.applyMask (pixelIndex px.toNat py.toNat) (pixelMask py.toNat) c := by
      funext cv; simp only [Canvas.putPixel]; rw [if_pos ⟨hx0, hx, hy0, hy⟩]
    rw [he]
    refine (Canvas.paints_applyMask _ _ c).congr ?_ ?_ fun _ _ _ _ => rfl
    · rintro i rfl
      exact ⟨_, _, ho, ⟨Int.toNat_of_nonneg hx0, Int.toNat_of_nonneg hy0⟩, rfl⟩
    · intro x y ho'
      rw [pixelIndex_inj ho' ho, pixelMask_getLsbD _ _ (Nat.mod_lt _ (by omega))]
      simp only [decide_eq_true_eq]
      omega
  · have he : Canvas.putPixel px py c = id := by
      funext cv; simp only [Canvas.putPixel]; rw [if_neg hon]; rfl
    rw [he]
    refine Canvas.paints_id ?_
    rintro x y ⟨hx, hy⟩ ⟨rfl, rfl⟩
    simp only [W, H] at *
    omega

/-! ## The state after a drawing -/

theorem State.dataInFlight_lt {s : State} {k : Nat} (h : s.dataInFlight = some k) : k < s.tx.length := by
  unfold State.dataInFlight at h
  split at h
  · cases h
  · split at h
    · cases h
    · rename_i f hf
      split at h
      · cases h; exact (List.getElem?_eq_some_iff.mp hf).1
      · cases h

/-- What `State.commit` does to `TX` and the draw counter (R243). -/
theorem State.commit_transmit (s : State) (cv : Canvas) :
    TransmitKept s (s.commit cv) (· ∈ cv.touched) := by
  refine ⟨fun h => by simp [State.txAfterWrites, State.drawsAfterWrites, h], ?_, ?_⟩
  · simp only [State.commit_tx, State.txAfterWrites]
    split <;> simp
  · intro k f hf
    simp only [State.commit_tx, State.txAfterWrites]
    split
    · exact ⟨f, hf, rfl, rfl, rfl, fun _ => rfl, fun _ _ => rfl⟩
    · rename_i k' hk'
      by_cases hkk : k' = k
      · subst hkk
        refine ⟨Frame.unsettle cv.touched s.draws f, by simp [hf], rfl, rfl, ?_, ?_, ?_⟩
        · simp [Frame.unsettle]
        · exact fun h => absurd hk' h
        · intro i hi
          simp only [Frame.unsettle, List.getElem?_mapIdx, hi, if_false]
          simp
      · exact ⟨f, by simp [hf, hkk], rfl, rfl, rfl, fun _ => rfl, fun _ _ => rfl⟩

/-- A written index of the data frame in flight holds a free value (R243). -/
theorem State.commit_unsettles {s : State} {cv : Canvas} {k i : Nat} {f : Frame} (hk : s.dataInFlight = some k)
    (hf : s.tx[k]? = some f) (hi : i ∈ cv.touched) (hl : i < f.bytes.length) :
    ∃ g, (s.commit cv).tx[k]? = some g ∧ g.bytes[i]? = some (flightByte s.draws i) := by
  refine ⟨Frame.unsettle cv.touched s.draws f, ?_, ?_⟩
  · simp [State.txAfterWrites, hk, hf]
  · simp [Frame.unsettle, hi, hl]

theorem TransmitKept.mono {s t : State} {w w' : Nat → Prop} (h : TransmitKept s t w) (hw : ∀ i, w i → w' i) :
    TransmitKept s t w' :=
  ⟨h.1, h.2.1, fun k f hf => by
    obtain ⟨g, h1, h2, h3, h4, h5, h6⟩ := h.2.2 k f hf
    exact ⟨g, h1, h2, h3, h4, h5, fun i hi => h6 i fun hn => hi (hw i hn)⟩⟩

/-- The statement-level form of `Paints`: running the procedure and responding draws the shape. -/
theorem Canvas.Paints.drew {s : State} (h : Canvas.Paints (Holds shape) shape colour p) (hs : s.fb.wf) :
    Drew s ((s.draw p).respond .ok 0x00) shape colour := by
  have h := h s.canvas hs
  exact
  { inside := h.inside
    outside := h.outside
    bytes := h.bytes
    transmit := (State.commit_transmit s (p s.canvas)).mono fun i hi =>
      (h.touched i hi).resolve_left (by simp) }

theorem State.draw_onlyDrew (s : State) (p : Canvas → Canvas) : OnlyDrew s ((s.draw p).respond .ok 0x00) := rfl

end Sys2Proof.Machine
end

