-- ==== Sys2Proof/Laws/Raster.lean ====
section
/-! SUPPORT. What the shared rasterizer procedures draw (spec/41_rasterizer.md R121 to R123), each said once. -/

namespace Sys2Proof.Machine

open Config

/-- A drawing procedure that gives exactly the pixels of `shape` the colour `c`, and writes no byte without one. -/
abbrev Canvas.Fills (shape : Nat → Nat → Prop) (c : Colour) (p : Canvas → Canvas) : Prop :=
  Canvas.Paints (Holds shape) shape (fun _ _ => c) p

variable {shape shape' target : Nat → Nat → Prop} {c : Colour} {p q : Canvas → Canvas}

theorem Canvas.Fills.congr (h : Canvas.Fills shape c p) (hs : ∀ x y, OnScreen x y → (shape x y ↔ target x y)) :
    Canvas.Fills target c p :=
  Canvas.Paints.congr h (fun _ ⟨x, y, ho, hx, hi⟩ => ⟨x, y, ho, (hs x y ho).1 hx, hi⟩) hs fun _ _ _ _ => rfl

theorem Canvas.fills_id (hs : ∀ x y, OnScreen x y → ¬ target x y) : Canvas.Fills target c id :=
  Canvas.paints_id hs

/-- One shape after another draws their union. -/
theorem Canvas.Fills.comp (h : Canvas.Fills shape c p) (h' : Canvas.Fills shape' c q)
    (hs : ∀ x y, OnScreen x y → (shape x y ∨ shape' x y ↔ target x y)) :
    Canvas.Fills target c (fun cv => q (p cv)) :=
  (Canvas.Paints.comp h h').congr
    (by
      rintro i (⟨x, y, ho, hx, hi⟩ | ⟨x, y, ho, hx, hi⟩)
      · exact ⟨x, y, ho, (hs x y ho).1 (.inl hx), hi⟩
      · exact ⟨x, y, ho, (hs x y ho).1 (.inr hx), hi⟩)
    hs fun _ _ _ _ => rfl

/-- A loop draws the union of what its iterations draw. -/
theorem Canvas.fills_forUp {n : Nat} {f : Nat → Canvas → Canvas} {shapes : Nat → Nat → Nat → Prop}
    (h : ∀ k < n, Canvas.Fills (shapes k) c (f k))
    (hs : ∀ x y, OnScreen x y → ((∃ k < n, shapes k x y) ↔ target x y)) : Canvas.Fills target c (forUp n f) :=
  (Canvas.paints_forUp h).congr
    (fun _ ⟨k, hk, x, y, ho, hx, hi⟩ => ⟨x, y, ho, (hs x y ho).1 ⟨k, hk, hx⟩, hi⟩) hs fun _ _ _ _ => rfl

/-- The masked write of one byte draws the rows of the mask in one column of one bank. -/
theorem Canvas.fills_span {bank x s k : Nat} (hx : x < W) (hb : bank < NBANK) (hk : 0 < k) (hsk : s + k ≤ 8) :
    Canvas.Fills (fun x' y => x' = x ∧ bank * 8 + s ≤ y ∧ y < bank * 8 + s + k) c
      (Canvas.applyMask (bank * W + x) (spanMask s k) c) := by
  simp only [W, NBANK] at *
  refine (Canvas.paints_applyMask _ _ c).congr ?_ ?_ fun _ _ _ _ => rfl
  · rintro i rfl
    refine ⟨x, bank * 8 + s, ?_, ⟨rfl, by omega, by omega⟩, ?_⟩ <;>
      simp only [OnScreen, W, H, pixelIndex] <;> omega
  · rintro x' y ⟨hx', hy⟩
    rw [spanMask_getLsbD _ _ _ (Nat.mod_lt _ (by omega))]
    simp only [pixelIndex, W, H, decide_eq_true_eq] at *
    omega

/-- The whole-byte store of one byte draws the eight rows of one column of one bank. -/
theorem Canvas.fills_byte {bank x : Nat} (hx : x < W) (hb : bank < NBANK) :
    Canvas.Fills (fun x' y => x' = x ∧ bank * 8 ≤ y ∧ y < bank * 8 + 8) c
      (Canvas.store (bank * W + x) (solidByte c)) := by
  simp only [W, NBANK] at *
  refine (Canvas.paints_store _ _).congr ?_ ?_ fun _ _ _ _ => solidByte_getLsbD c _ (Nat.mod_lt _ (by omega))
  · rintro i rfl
    refine ⟨x, bank * 8, ?_, ⟨rfl, by omega, by omega⟩, ?_⟩ <;>
      simp only [OnScreen, W, H, pixelIndex] <;> omega
  · rintro x' y ⟨hx', hy⟩
    simp only [pixelIndex, W, H] at *
    omega

/-- The block of columns `xl..xr` and rows `yt..yt+n-1`. -/
abbrev Block (xl xr yt n : Nat) (x y : Nat) : Prop := xl ≤ x ∧ x ≤ xr ∧ yt ≤ y ∧ y < yt + n

theorem Canvas.fills_maskColumns {bank xl xr s k : Nat} (hx : xr < W) (hb : bank < NBANK) (hk : 0 < k)
    (hsk : s + k ≤ 8) :
    Canvas.Fills (Block xl xr (bank * 8 + s) k) c (Canvas.maskColumns (bank * W) xl xr (spanMask s k) c) := by
  refine Canvas.fills_forUp (fun i hi => Canvas.fills_span (by simp only [W] at *; omega) hb hk hsk) ?_
  intro x y _
  constructor
  · rintro ⟨i, hi, rfl, h1, h2⟩
    exact ⟨by omega, by omega, h1, h2⟩
  · rintro ⟨h1, h2, h3, h4⟩
    exact ⟨x - xl, by omega, by omega, h3, h4⟩

theorem Canvas.fills_storeColumns {bank xl xr : Nat} (hx : xr < W) (hb : bank < NBANK) :
    Canvas.Fills (Block xl xr (bank * 8) 8) c (Canvas.storeColumns (bank * W) xl xr c) := by
  refine Canvas.fills_forUp (fun i hi => Canvas.fills_byte (by simp only [W] at *; omega) hb) ?_
  intro x y _
  constructor
  · rintro ⟨i, hi, rfl, h1, h2⟩
    exact ⟨by omega, by omega, h1, h2⟩
  · rintro ⟨h1, h2, h3, h4⟩
    exact ⟨x - xl, by omega, by omega, h3, h4⟩

/-- Phases (b) and (c) of `BankFill` draw the block they are given (R121). -/
theorem Canvas.fills_fillFromBank {bank xl xr n : Nat} (hx : xr < W) (hn : bank * 8 + n ≤ H) :
    Canvas.Fills (Block xl xr (bank * 8) n) c (Canvas.fillFromBank (bank * W) xl xr n c) := by
  have hwhole : Canvas.Fills (Block xl xr (bank * 8) (n / 8 * 8)) c
      (forUp (n / 8) fun j => Canvas.storeColumns (bank * W + j * W) xl xr c) := by
    refine Canvas.fills_forUp (shapes := fun j => Block xl xr ((bank + j) * 8) 8) (fun j hj => ?_) ?_
    · rw [show bank * W + j * W = (bank + j) * W by simp only [W]; omega]
      exact Canvas.fills_storeColumns hx (by simp only [H, NBANK] at *; omega)
    · intro x y _
      constructor
      · rintro ⟨j, hj, h1, h2, h3, h4⟩
        exact ⟨h1, h2, by omega, by omega⟩
      · rintro ⟨h1, h2, h3, h4⟩
        exact ⟨y / 8 - bank, by omega, h1, h2, by omega, by omega⟩
  unfold Canvas.fillFromBank
  by_cases hr : 0 < n % 8
  · simp only [hr, if_true]
    have hpart : Canvas.Fills (Block xl xr ((bank + n / 8) * 8 + 0) (n % 8)) c
        (Canvas.maskColumns ((bank + n / 8) * W) xl xr (spanMask 0 (n % 8)) c) :=
      Canvas.fills_maskColumns hx (by simp only [H, NBANK] at *; omega) hr (by omega)
    rw [show bank * W + n / 8 * W = (bank + n / 8) * W by simp only [W]; omega]
    refine hwhole.comp hpart fun x y _ => ?_
    simp only [Block]
    omega
  · simp only [hr, if_false]
    refine hwhole.congr fun x y _ => ?_
    simp only [Block]
    omega

/-- `BankFill` draws exactly its block (R121). -/
theorem Canvas.fills_bankFill {xl xr yt n : Nat} (hx : xr < W) (hn : 0 < n) (hy : yt + n ≤ H) :
    Canvas.Fills (Block xl xr yt n) c (Canvas.bankFill xl xr yt n c) := by
  unfold Canvas.bankFill
  by_cases h0 : yt % 8 = 0
  · simp only [h0, if_true]
    refine (Canvas.fills_fillFromBank (bank := yt / 8) (n := n) hx (by omega)).congr fun x y _ => ?_
    simp only [Block]
    omega
  · simp only [h0, if_false]
    have hyt : yt / 8 * 8 + yt % 8 = yt := Nat.div_add_mod' yt 8
    have h1 : Canvas.Fills (Block xl xr yt (min n (8 - yt % 8))) c
        (Canvas.maskColumns (yt / 8 * W) xl xr (spanMask (yt % 8) (min n (8 - yt % 8))) c) := by
      have := Canvas.fills_maskColumns (c := c) (bank := yt / 8) (xl := xl) (s := yt % 8) (k := min n (8 - yt % 8)) hx
        (by simp only [H, NBANK] at *; omega) (by omega) (by omega)
      rwa [hyt] at this
    by_cases hmore : 8 - yt % 8 < n
    · rw [show yt / 8 * W + W = (yt / 8 + 1) * W by simp only [W]; omega, Nat.min_eq_right (by omega)] at *
      refine h1.comp (Canvas.fills_fillFromBank (bank := yt / 8 + 1) (n := n - (8 - yt % 8)) hx (by omega))
        fun x y _ => ?_
      simp only [Block]
      omega
    · rw [Nat.min_eq_left (by omega)] at *
      rw [Nat.sub_self]
      refine h1.comp (q := Canvas.fillFromBank (yt / 8 * W + W) xl xr 0 c) (shape' := fun _ _ => False)
        (Canvas.fills_id (by simp)) fun x y _ => ?_
      simp

/-- `HLine` draws the pixels `(x+i, y)`, `0 ≤ i < n`, that lie on the screen (R122). -/
theorem Canvas.fills_hLine (x y : Nat) (n : Int) :
    Canvas.Fills (fun x' y' => y' = y ∧ x ≤ x' ∧ (x' : Int) < x + n) c (Canvas.hLine x y n c) := by
  unfold Canvas.hLine
  by_cases h : W ≤ x ∨ H ≤ y ∨ n ≤ 0
  · simp only [h, if_true]
    refine Canvas.fills_id fun x' y' ho hs => ?_
    simp only [OnScreen, W, H] at *
    omega
  · simp only [h, if_false]
    refine Canvas.fills_forUp (shapes := fun i x' y' => y' = y ∧ x' = x + i) (fun i hi => ?_) ?_
    · refine (Canvas.paints_applyMask _ _ c).congr ?_ ?_ fun _ _ _ _ => rfl
      · rintro j rfl
        refine ⟨x + i, y, ?_, ⟨rfl, rfl⟩, ?_⟩ <;> simp only [OnScreen, W, H, pixelIndex] at * <;> omega
      · rintro x' y' ⟨hx', hy'⟩
        rw [pixelMask_getLsbD _ _ (Nat.mod_lt _ (by omega))]
        simp only [W, H, pixelIndex, decide_eq_true_eq] at *
        omega
    · rintro x' y' ⟨hx', hy'⟩
      simp only [W, H] at *
      constructor
      · rintro ⟨i, hi, rfl, rfl⟩
        omega
      · rintro ⟨rfl, h1, h2⟩
        exact ⟨x' - x, by omega, rfl, by omega⟩

/-- `VLine` draws the pixels `(x, y+j)`, `0 ≤ j < n`, that lie on the screen (R123). -/
theorem Canvas.fills_vLine (x y : Nat) (n : Int) :
    Canvas.Fills (fun x' y' => x' = x ∧ y ≤ y' ∧ (y' : Int) < y + n) c (Canvas.vLine x y n c) := by
  unfold Canvas.vLine
  by_cases h : W ≤ x ∨ H ≤ y ∨ n ≤ 0
  · simp only [h, if_true]
    refine Canvas.fills_id fun x' y' ho hs => ?_
    simp only [OnScreen, W, H] at *
    omega
  · simp only [h, if_false]
    refine (Canvas.fills_bankFill (xl := x) (xr := x) (yt := y) (n := min n.toNat (H - y))
      (by omega) (by simp only [W, H] at *; omega) (by simp only [W, H] at *; omega)).congr fun x' y' ho => ?_
    simp only [OnScreen, W, H, Block] at *
    omega

/-- `Canvas.block` draws the block's pixels that lie on the screen (R129). -/
theorem Canvas.fills_block {xl xr yt yb : Nat} (hy : yt ≤ yb) :
    Canvas.Fills (fun x y => xl ≤ x ∧ x ≤ xr ∧ yt ≤ y ∧ y ≤ yb) c (Canvas.block xl xr yt yb c) := by
  unfold Canvas.block
  by_cases h : W ≤ xl ∨ H ≤ yt
  · simp only [h, if_true]
    refine Canvas.fills_id fun x y ho hs => ?_
    simp only [OnScreen, W, H] at *
    omega
  · simp only [h, if_false]
    refine (Canvas.fills_bankFill (xl := xl) (xr := min xr (W - 1)) (yt := yt) (n := min yb (H - 1) - yt + 1)
      (by simp only [W] at *; omega) (by omega) (by simp only [W, H] at *; omega)).congr fun x y ho => ?_
    simp only [OnScreen, W, H, Block] at *
    omega

end Sys2Proof.Machine
end

