-- ==== Sys2Proof/Laws/Blit.lean ====
section
/-! SUPPORT. What the two copies of the blitter draw, each said once (spec/42_blitter.md R160, R161, R163). -/

namespace Sys2Proof.Machine

open Config

/-- `Clip` leaves exactly the columns and rows of the bitmap that lie on the screen (R160). -/
theorem clip_spec (x0 y0 width height i j : Nat) :
    i < (clip x0 y0 width height).1 ∧ j < (clip x0 y0 width height).2 ↔
      i < width ∧ j < height ∧ OnScreen (x0 + i) (y0 + j) := by
  simp only [clip, OnScreen, W, H]
  split <;> simp <;> omega

/-- `BlitPixels` gives the pixels of the clipped bitmap the bits of `get` (R161). -/
theorem Canvas.paints_blitPixels (get : Nat → Nat → Bool) (x0 y0 width height : Nat) :
    Canvas.Paints (Holds fun x y => x0 ≤ x ∧ x < x0 + width ∧ y0 ≤ y ∧ y < y0 + height)
      (fun x y => x0 ≤ x ∧ x < x0 + width ∧ y0 ≤ y ∧ y < y0 + height) (fun x y => get (x - x0) (y - y0))
      (Canvas.blitPixels get x0 y0 (clip x0 y0 width height)) := by
  have hpix : ∀ i j, Canvas.Paints (Holds fun x y => x = x0 + i ∧ y = y0 + j) (fun x y => x = x0 + i ∧ y = y0 + j)
      (fun x y => get (x - x0) (y - y0)) (Canvas.putPixel (x0 + i : Nat) (y0 + j : Nat) (get i j)) := fun i j => by
    refine (Canvas.paints_putPixel _ _ _).congr ?_ ?_ ?_
    · rintro a ⟨x, y, ho, ⟨hx, hy⟩, ha⟩
      exact ⟨x, y, ho, ⟨by omega, by omega⟩, ha⟩
    · intro x y _
      omega
    · rintro x y _ ⟨rfl, rfl⟩
      simp
  refine (Canvas.paints_forUp fun j _ => Canvas.paints_forUp fun i _ => hpix i j).congr ?_ ?_ fun _ _ _ _ => rfl
  · rintro a ⟨j, hj, i, hi, x, y, ho, ⟨rfl, rfl⟩, ha⟩
    have := (clip_spec x0 y0 width height i j).1 ⟨hi, hj⟩
    exact ⟨_, _, ho, ⟨by omega, by omega, by omega, by omega⟩, ha⟩
  · intro x y ho
    constructor
    · rintro ⟨j, hj, i, hi, rfl, rfl⟩
      have := (clip_spec x0 y0 width height i j).1 ⟨hi, hj⟩
      omega
    · rintro ⟨h1, h2, h3, h4⟩
      have h := (clip_spec x0 y0 width height (x - x0) (y - y0)).2
        ⟨by omega, by omega, by simp only [OnScreen] at *; omega⟩
      exact ⟨y - y0, h.2, x - x0, h.1, by omega, by omega⟩

/-- The whole-byte copy gives the eight pixels of each of its bytes the bits of `get` (R163). -/
theorem Canvas.paints_blitBytes (get : Nat → Nat → Byte) (x0 y0 : Nat) (e : Nat × Nat) (hx : x0 + e.1 ≤ W) :
    Canvas.Paints (fun a => ∃ k < e.2 / 8, ∃ i < e.1, a = (y0 / 8 + k) * W + x0 + i)
      (fun x y => x0 ≤ x ∧ x < x0 + e.1 ∧ y0 / 8 ≤ y / 8 ∧ y / 8 < y0 / 8 + e.2 / 8)
      (fun x y => (get (y / 8 - y0 / 8) (x - x0)).getLsbD (y % 8)) (Canvas.blitBytes get x0 y0 e) := by
  have hbyte : ∀ k i, i < e.1 → Canvas.Paints (· = (y0 / 8 + k) * W + x0 + i) (fun x y => x = x0 + i ∧ y / 8 = y0 / 8 + k)
      (fun x y => (get (y / 8 - y0 / 8) (x - x0)).getLsbD (y % 8))
      (Canvas.store ((y0 / 8 + k) * W + x0 + i) (get k i)) := fun k i hi => by
    refine (Canvas.paints_store _ _).congr (fun _ h => h) ?_ ?_
    · rintro x y ⟨hx', _⟩
      simp only [pixelIndex, W] at *
      omega
    · rintro x y _ ⟨rfl, h⟩
      simp [h]
  refine (Canvas.paints_forUp fun k _ => Canvas.paints_forUp fun i hi => hbyte k i hi).congr
    (fun _ h => h) ?_ fun _ _ _ _ => rfl
  intro x y _
  constructor
  · rintro ⟨k, hk, i, hi, rfl, h⟩
    omega
  · rintro ⟨h1, h2, h3, h4⟩
    exact ⟨y / 8 - y0 / 8, by omega, x - x0, by omega, by omega, by omega⟩

end Sys2Proof.Machine
end

