-- ==== Sys2Proof/Laws/Decode.lean ====
section
/-! SUPPORT. Each field of a packed command word is the byte or bit it was packed from (spec/30_encoding.md R71 to
R74), and the decoder's match test. -/

namespace Sys2Proof

theorem append_toNat_bytes (op md a b c d e f : Byte) : (packWord op md a b c d e f).toNat =
    op.toNat * 2 ^ 56 + md.toNat * 2 ^ 48 + a.toNat * 2 ^ 40 + b.toNat * 2 ^ 32 + c.toNat * 2 ^ 24 + d.toNat * 2 ^ 16 +
      e.toNat * 2 ^ 8 + f.toNat := by
  simp only [packWord, BitVec.toNat_append]
  have h := f.isLt; have h := e.isLt; have h := d.isLt; have h := c.isLt; have h := b.isLt; have h := a.isLt
  have h := md.isLt
  repeat rw [← Nat.shiftLeft_add_eq_or_of_lt (by assumption)]
  simp only [Nat.shiftLeft_eq]
  ring

section Fields
variable (op md a b c d e f : Byte)

/-- The byte of a packed word that starts at bit `8 * k`. -/
theorem extract_packWord (k : Nat) (hk : k < 8) : (packWord op md a b c d e f).extractLsb' (8 * k) 8 =
    [f, e, d, c, b, a, md, op].getD k 0 := by
  apply BitVec.eq_of_toNat_eq
  rw [BitVec.extractLsb'_toNat, append_toNat_bytes, Nat.shiftRight_eq_div_pow]
  have := op.isLt; have := md.isLt; have := a.isLt; have := b.isLt
  have := c.isLt; have := d.isLt; have := e.isLt; have := f.isLt
  interval_cases k <;> simp <;> omega

@[simp] theorem opcode_packWord : opcode (packWord op md a b c d e f) = op :=
  extract_packWord op md a b c d e f 7 (by decide)
@[simp] theorem opA_packWord : opA (packWord op md a b c d e f) = a :=
  extract_packWord op md a b c d e f 5 (by decide)
@[simp] theorem opB_packWord : opB (packWord op md a b c d e f) = b :=
  extract_packWord op md a b c d e f 4 (by decide)
@[simp] theorem opC_packWord : opC (packWord op md a b c d e f) = c :=
  extract_packWord op md a b c d e f 3 (by decide)
@[simp] theorem opD_packWord : opD (packWord op md a b c d e f) = d :=
  extract_packWord op md a b c d e f 2 (by decide)
@[simp] theorem opE_packWord : opE (packWord op md a b c d e f) = e :=
  extract_packWord op md a b c d e f 1 (by decide)
@[simp] theorem opF_packWord : opF (packWord op md a b c d e f) = f :=
  extract_packWord op md a b c d e f 0 (by decide)
theorem mod_packWord : (packWord op md a b c d e f).extractLsb' 48 8 = md :=
  extract_packWord op md a b c d e f 6 (by decide)

/-- Bit `i` of `MOD` is bit `48 + i` of the word (R73). -/
theorem getLsbD_packWord_mod (i : Nat) (hi : i < 8) : (packWord op md a b c d e f).getLsbD (48 + i) = md.getLsbD i := by
  conv_rhs => rw [← mod_packWord op md a b c d e f]
  simp [hi]

@[simp] theorem vBit_packWord : vBit (packWord op md a b c d e f) = md.getLsbD 0 :=
  getLsbD_packWord_mod op md a b c d e f 0 (by decide)
@[simp] theorem dirBit_packWord :
    dirBit (packWord op md a b c d e f) = if md.getLsbD 1 then .fromHigh else .fromLow := by
  unfold dirBit; rw [getLsbD_packWord_mod op md a b c d e f 1 (by decide)]
@[simp] theorem tinvBit_packWord : tinvBit (packWord op md a b c d e f) = md.getLsbD 2 :=
  getLsbD_packWord_mod op md a b c d e f 2 (by decide)
@[simp] theorem fontBits_packWord : fontBits (packWord op md a b c d e f) = md.extractLsb' 3 2 := by
  conv_rhs => rw [← mod_packWord op md a b c d e f]
  unfold fontBits
  ext i hi
  simp [BitVec.getElem_extractLsb', show 3 + i < 8 by omega]
  congr 1; omega
@[simp] theorem alignBits_packWord : alignBits (packWord op md a b c d e f) = md.extractLsb' 5 2 := by
  conv_rhs => rw [← mod_packWord op md a b c d e f]
  unfold alignBits
  ext i hi
  simp [BitVec.getElem_extractLsb', show 5 + i < 8 by omega]
  congr 1; omega
@[simp] theorem cornerBits_packWord : cornerBits (packWord op md a b c d e f) = d.extractLsb' 0 4 := by
  have hd : (packWord op md a b c d e f).extractLsb' 16 8 = d := extract_packWord op md a b c d e f 2 (by decide)
  conv_rhs => rw [← hd]
  unfold cornerBits
  ext i hi
  simp [BitVec.getElem_extractLsb', show i < 8 by omega]

end Fields

/-- The two halves of a 16-bit field, put together again (R74). -/
@[simp] theorem highByte_append_lowByte (v : BitVec 16) : highByte v ++ lowByte v = v := by
  apply BitVec.eq_of_toNat_eq
  simp only [highByte, lowByte, BitVec.toNat_append, BitVec.extractLsb'_toNat]
  have := v.isLt
  rw [← Nat.shiftLeft_add_eq_or_of_lt (Nat.mod_lt _ (by decide))]
  simp [Nat.shiftLeft_eq, Nat.shiftRight_eq_div_pow]
  omega

/-- The fields of a packed `MOD` byte (R73). -/
theorem packMod_fields (align font : BitVec 2) (tinv dir v : Bool) :
    (packMod align font tinv dir v).getLsbD 0 = v ∧ (packMod align font tinv dir v).getLsbD 1 = dir ∧
    (packMod align font tinv dir v).getLsbD 2 = tinv ∧ (packMod align font tinv dir v).extractLsb' 3 2 = font ∧
    (packMod align font tinv dir v).extractLsb' 5 2 = align := by
  revert align font tinv dir v; decide

/-- A mask reads the eight bytes of a packed word one by one (R77). -/
theorem and_packWord (op md a b c d e f op' md' a' b' c' d' e' f' : Byte) :
    packWord op md a b c d e f &&& packWord op' md' a' b' c' d' e' f' =
      packWord (op &&& op') (md &&& md') (a &&& a') (b &&& b') (c &&& c') (d &&& d') (e &&& e') (f &&& f') := by
  unfold packWord
  repeat rw [BitVec.and_append]

/-- The match test accepts exactly the words of the row (R77). -/
theorem accept_eq_ok {w : CommandWord} {m : String} {pattern mask : CommandWord} {i j : Instr} :
    accept w m pattern mask i = .ok j ↔ w &&& mask = pattern ∧ i = j := by
  unfold accept
  split <;> simp_all

end Sys2Proof
end

