-- ==== Sys2Proof/Laws/Flags.lean ====
section
/-! SUPPORT. What the busy test, a guarded send and the completion notification do, each said once
(spec/20_memory.md R55, R56, spec/60_exceptions.md R226). -/

namespace Sys2Proof.Machine

theorem State.transportBusy_iff (s : State) : s.transportBusy = true ↔ s.FailsFast := by
  simp [State.transportBusy, State.FailsFast, and_comm]

/-- A guarded send while failing fast only responds FAIL (R56). -/
theorem State.sendAndRespond_of_failsFast {s : State} (h : s.FailsFast) (kind : FrameKind) (bytes : List Byte) :
    s.sendAndRespond kind bytes = s.respond .fail 0x00 := by
  simp [State.sendAndRespond, State.guardedSend, (State.transportBusy_iff s).2 h]

/-- Any other guarded send appends its frame, marks it in flight where that exists, and passes the answer on (R56). -/
theorem State.sendAndRespond_of_not_failsFast {s : State} (h : ¬ s.FailsFast) (kind : FrameKind)
    (bytes : List Byte) : s.sendAndRespond kind bytes = s.afterSend kind bytes := by
  have hb : s.transportBusy = false := by
    rw [← Bool.not_eq_true, State.transportBusy_iff]; exact h
  have hs : sendStatus s.answer = if s.answer = .ok then .ok else .fail := by
    cases s.answer <;> rfl
  cases hn : s.cfg.nonBlocking <;>
    simp [State.sendAndRespond, State.guardedSend, hb, State.afterSend, State.respond, State.send,
      State.beginTransfer, State.answer, hn] <;> exact hs

theorem State.unlessBusy_of_failsFast {s : State} (h : s.FailsFast) (go : State → State) :
    s.unlessBusy go = s.respond .fail 0x00 := by
  simp [State.unlessBusy, (State.transportBusy_iff s).2 h]

theorem State.unlessBusy_of_not_failsFast {s : State} (h : ¬ s.FailsFast) (go : State → State) :
    s.unlessBusy go = go s := by
  simp [State.unlessBusy, State.transportBusy_iff, h]

theorem State.completeTransfer_of_failsFast {s : State} (h : s.FailsFast) :
    s.completeTransfer = { s with busy := false, inFlight := none } := by
  simp [State.completeTransfer, (State.transportBusy_iff s).2 h]

theorem State.completeTransfer_of_not_failsFast {s : State} (h : ¬ s.FailsFast) : s.completeTransfer = s := by
  simp [State.completeTransfer, State.transportBusy_iff, h]

/-- Two states with the same `BUSY` and parameters fail fast together. -/
theorem State.failsFast_congr {s t : State} (hb : s.busy = t.busy) (hc : s.cfg = t.cfg) :
    s.FailsFast ↔ t.FailsFast := by
  simp [State.FailsFast, hb, hc]

end Sys2Proof.Machine
end

