-- ==== Sys2Proof/Laws/Writes.lean ====
section
/-! SUPPORT. Every drawing procedure of the block writes inside the framebuffer only and records each byte it changes
(spec/20_memory.md R44, spec/70_reset_and_hazards.md R243). -/

namespace Sys2Proof.Machine

open Config

/-- From `cv` to `cv'` only bytes below 504 were written, every changed byte is recorded as written, and the memory kept
its canonical form. -/
structure Canvas.Written (cv cv' : Canvas) : Prop where
  wf : cv'.mem.wf
  below : cv.mem.below FBSIZE → cv'.mem.below FBSIZE
  kept : ∀ i ∈ cv.touched, i ∈ cv'.touched
  touched : ∀ i ∈ cv'.touched, i ∈ cv.touched ∨ i < FBSIZE
  changed : ∀ i, cv'.byte i ≠ cv.byte i → i ∈ cv'.touched

/-- A drawing procedure that writes so from every canvas in canonical form. -/
def Canvas.Writes (p : Canvas → Canvas) : Prop := ∀ cv, cv.mem.wf → Canvas.Written cv (p cv)

theorem Canvas.Written.refl {cv : Canvas} (h : cv.mem.wf) : Canvas.Written cv cv :=
  ⟨h, id, fun _ => id, fun _ => .inl, fun _ hi => absurd rfl hi⟩

theorem Canvas.Written.trans {a b d : Canvas} (h : Canvas.Written a b) (h' : Canvas.Written b d) :
    Canvas.Written a d where
  wf := h'.wf
  below := fun ha => h'.below (h.below ha)
  kept := fun i hi => h'.kept i (h.kept i hi)
  touched := fun i hi => (h'.touched i hi).elim (h.touched i) .inr
  changed := fun i hi => by
    by_cases hd : d.byte i = b.byte i
    · exact h'.kept i (h.changed i (hd ▸ hi))
    · exact h'.changed i hd

theorem Canvas.writes_id : Canvas.Writes id := fun _ h => .refl h

theorem Canvas.Writes.comp {p q : Canvas → Canvas} (hp : Canvas.Writes p) (hq : Canvas.Writes q) :
    Canvas.Writes fun cv => q (p cv) := fun cv h => (hp cv h).trans (hq _ (hp cv h).wf)

theorem Canvas.writes_forUp {n : Nat} {f : Nat → Canvas → Canvas} (h : ∀ k < n, Canvas.Writes (f k)) :
    Canvas.Writes (forUp n f) := by
  induction n with
  | zero => exact Canvas.writes_id
  | succ n ih => exact (ih fun k hk => h k (by omega)).comp (h n (by omega))

theorem Canvas.writes_store {i : Nat} (hi : i < FBSIZE) (v : Byte) : Canvas.Writes (Canvas.store i v) :=
  fun cv h =>
  { wf := Memory.wf_write h i v
    below := fun hb => Memory.below_write hb hi v
    kept := fun _ hj => List.mem_cons_of_mem _ hj
    touched := fun j hj => (List.mem_cons.mp hj).elim (fun e => .inr (e ▸ hi)) .inl
    changed := fun j hj => by
      rw [Canvas.byte_store h] at hj
      split at hj
      · subst j; exact List.mem_cons_self
      · exact absurd rfl hj }

theorem Canvas.writes_applyMask {i : Nat} (hi : i < FBSIZE) (m : Byte) (c : Colour) :
    Canvas.Writes (Canvas.applyMask i m c) := fun cv h => Canvas.writes_store hi _ cv h

theorem Canvas.writes_putPixel (x y : Int) (c : Colour) : Canvas.Writes (Canvas.putPixel x y c) := fun cv h => by
  unfold Canvas.putPixel
  split
  · exact Canvas.writes_applyMask (by simp only [FBSIZE, W, H, pixelIndex] at *; omega) _ _ cv h
  · exact .refl h

theorem Canvas.writes_fill (c : Colour) : Canvas.Writes (Canvas.fill c) :=
  Canvas.writes_forUp fun _ hk => Canvas.writes_store hk _

theorem Canvas.writes_bankSpan (i n : Nat) (fromHigh : Bool) (c : Colour) :
    Canvas.Writes (Canvas.bankSpan i n fromHigh c) := fun cv h => by
  unfold Canvas.bankSpan
  split
  · rename_i hi
    exact Canvas.writes_applyMask hi.1 _ _ cv h
  · exact .refl h

theorem Canvas.writes_maskColumns {bank xl xr : Nat} (hx : xr < W) (hb : bank < NBANK) (m : Byte) (c : Colour) :
    Canvas.Writes (Canvas.maskColumns (bank * W) xl xr m c) :=
  Canvas.writes_forUp fun _ _ => Canvas.writes_applyMask (by simp only [W, NBANK, FBSIZE] at *; omega) _ _

theorem Canvas.writes_storeColumns {bank xl xr : Nat} (hx : xr < W) (hb : bank < NBANK) (c : Colour) :
    Canvas.Writes (Canvas.storeColumns (bank * W) xl xr c) :=
  Canvas.writes_forUp fun _ _ => Canvas.writes_store (by simp only [W, NBANK, FBSIZE] at *; omega) _

theorem Canvas.writes_fillFromBank {bank xl xr n : Nat} (hx : xr < W) (hn : bank * 8 + n ≤ H) (c : Colour) :
    Canvas.Writes (Canvas.fillFromBank (bank * W) xl xr n c) := fun cv h => by
  have hwhole : Canvas.Writes (forUp (n / 8) fun j => Canvas.storeColumns (bank * W + j * W) xl xr c) :=
    Canvas.writes_forUp fun j hj => by
      rw [← Nat.add_mul]
      exact Canvas.writes_storeColumns hx (by simp only [H, NBANK] at *; omega) c
  unfold Canvas.fillFromBank
  simp only
  split
  · rw [← Nat.add_mul]
    exact (hwhole.comp (Canvas.writes_maskColumns hx (by simp only [H, NBANK] at *; omega) _ c)) cv h
  · exact hwhole cv h

theorem Canvas.writes_bankFill {xl xr yt n : Nat} (hx : xr < W) (hn : 0 < n) (hy : yt + n ≤ H) (c : Colour) :
    Canvas.Writes (Canvas.bankFill xl xr yt n c) := fun cv h => by
  unfold Canvas.bankFill
  simp only
  split
  · exact Canvas.writes_fillFromBank (bank := yt / 8) hx (by omega) c cv h
  · have h1 := Canvas.writes_maskColumns (bank := yt / 8) (xl := xl) hx (by simp only [H, NBANK] at *; omega)
      (spanMask (yt % 8) (min n (8 - yt % 8))) c
    by_cases hmore : 8 - yt % 8 < n
    · rw [show yt / 8 * W + W = (yt / 8 + 1) * W by simp only [W]; omega]
      exact h1.comp (Canvas.writes_fillFromBank hx (by omega) c) cv h
    · rw [Nat.min_eq_left (by omega)] at *
      rw [Nat.sub_self]
      exact h1 cv h

theorem Canvas.writes_hLine (x y : Nat) (n : Int) (c : Colour) : Canvas.Writes (Canvas.hLine x y n c) := fun cv h => by
  unfold Canvas.hLine
  split
  · exact .refl h
  · refine Canvas.writes_forUp (fun k hk => Canvas.writes_applyMask ?_ _ c) cv h
    simp only [FBSIZE, W, H, pixelIndex] at *
    omega

theorem Canvas.writes_vLine (x y : Nat) (n : Int) (c : Colour) : Canvas.Writes (Canvas.vLine x y n c) := fun cv h => by
  unfold Canvas.vLine
  split
  · exact .refl h
  · refine Canvas.writes_bankFill ?_ ?_ ?_ c cv h <;> simp only [W, H] at * <;> omega

/-- The Bresenham loop draws by `PutPixel` only. -/
theorem Canvas.writes_bresenham (steep : Bool) (x0 y0 x1 y1 : Nat) (c : Colour) :
    Canvas.Writes (Canvas.bresenham steep x0 y0 x1 y1 c) := fun cv h => by
  have hwalk : ∀ (n : Nat) (dx dy : Nat) (ystep y err : Int),
      Canvas.Written cv (forUp n (fun i => LineWalk.step steep dx dy ystep c (x0 + i)) ⟨y, err, cv⟩).canvas := by
    intro n dx dy ystep y err
    induction n with
    | zero => exact .refl h
    | succ n ih =>
      refine ih.trans ?_
      simp only [forUp, LineWalk.step]
      split <;> cases steep <;> exact Canvas.writes_putPixel _ _ c _ ih.wf
  exact hwalk _ _ _ _ _ _

theorem Canvas.writes_line (x0 y0 x1 y1 : Nat) (c : Colour) : Canvas.Writes (Canvas.line x0 y0 x1 y1 c) :=
  fun cv h => by
  unfold Canvas.line Canvas.bresenhamOrdered
  repeat' split
  all_goals first
    | exact Canvas.writes_hLine _ _ _ c cv h
    | exact Canvas.writes_vLine _ _ _ c cv h
    | exact Canvas.writes_bresenham _ _ _ _ _ c cv h

theorem Canvas.writes_outline (xl xr yt yb : Nat) (c : Colour) : Canvas.Writes (Canvas.outline xl xr yt yb c) :=
  (((Canvas.writes_hLine _ _ _ c).comp (Canvas.writes_hLine _ _ _ c)).comp (Canvas.writes_vLine _ _ _ c)).comp
    (Canvas.writes_vLine _ _ _ c)

theorem Canvas.writes_block (xl xr yt yb : Nat) (c : Colour) :
    Canvas.Writes (Canvas.block xl xr yt yb c) := fun cv h => by
  unfold Canvas.block
  split
  · exact .refl h
  · refine Canvas.writes_bankFill ?_ ?_ ?_ c cv h <;> simp only [W, H] at * <;> omega

theorem Canvas.writes_triangle (x0 y0 x1 y1 x2 y2 : Nat) (c : Colour) :
    Canvas.Writes (Canvas.triangle x0 y0 x1 y1 x2 y2 c) :=
  ((Canvas.writes_line _ _ _ _ c).comp (Canvas.writes_line _ _ _ _ c)).comp (Canvas.writes_line _ _ _ _ c)

theorem Canvas.writes_span (y : Nat) (pa na da pb nb db : Int) (c : Colour) :
    Canvas.Writes (Canvas.span y pa na da pb nb db c) := fun cv h => by
  unfold Canvas.span
  simp only
  repeat' split
  all_goals first
    | exact Canvas.writes_hLine _ _ _ c cv h
    | exact .refl h

/-- A scan-fill loop draws by `Span` only. -/
theorem Scan.written_rows {cv : Canvas} {t : Scan} (h : Canvas.Written cv t.canvas) (n y0 : Nat)
    (pa dxa da pb dxb db : Int) (c : Colour) :
    Canvas.Written cv (forUp n (fun i => Scan.row pa dxa da pb dxb db c (y0 + i)) t).canvas := by
  induction n with
  | zero => exact h
  | succ n ih => exact ih.trans (Canvas.writes_span _ _ _ _ _ _ _ c _ ih.wf)

theorem Canvas.writes_scanTriangle (x0 y0 x1 y1 x2 y2 : Nat) (c : Colour) :
    Canvas.Writes (Canvas.scanTriangle x0 y0 x1 y1 x2 y2 c) := fun cv h => by
  unfold Canvas.scanTriangle
  simp only
  refine Scan.written_rows ?_ _ _ _ _ _ _ _ _ c
  refine Scan.written_rows ?_ _ _ _ _ _ _ _ _ c
  exact .refl h

theorem Canvas.writes_fillTriangle (p0 p1 p2 : Nat × Nat) (c : Colour) :
    Canvas.Writes (Canvas.fillTriangle p0 p1 p2 c) := fun cv h => by
  simp only [Canvas.fillTriangle]
  split
  · exact Canvas.writes_hLine _ _ _ c cv h
  · exact Canvas.writes_scanTriangle _ _ _ _ _ _ c cv h

theorem Canvas.writes_circlePoints (xc yc x y : Int) (q : BitVec 4) (c : Colour) :
    Canvas.Writes (Canvas.circlePoints xc yc x y q c) := by
  have hpair : ∀ (b : Bool) (x y x' y' : Int),
      Canvas.Writes fun cv => if b then (cv.putPixel x y c).putPixel x' y' c else cv := by
    intro b x y x' y' cv h
    cases b
    · exact .refl h
    · exact (Canvas.writes_putPixel _ _ c).comp (Canvas.writes_putPixel _ _ c) cv h
  exact (((hpair _ _ _ _ _).comp (hpair _ _ _ _ _)).comp (hpair _ _ _ _ _)).comp (hpair _ _ _ _ _)

theorem Canvas.writes_circleFrom (xc yc : Int) (q : BitVec 4) (c : Colour) (fuel : Nat) (x y d : Int) :
    Canvas.Writes (Canvas.circleFrom xc yc q c fuel x y d) := by
  induction fuel generalizing x y d with
  | zero => exact Canvas.writes_id
  | succ fuel ih =>
    intro cv h
    simp only [Canvas.circleFrom]
    have h1 := Canvas.writes_circlePoints xc yc x y q c cv h
    split
    · split
      · exact h1.trans (ih _ _ _ _ h1.wf)
      · exact h1.trans (ih _ _ _ _ h1.wf)
    · exact .refl h

theorem Canvas.writes_circleWalk (xc yc r : Nat) (q : BitVec 4) (c : Colour) :
    Canvas.Writes (Canvas.circleWalk xc yc r q c) := Canvas.writes_circleFrom _ _ _ _ _ _ _ _

theorem Canvas.writes_blitPixels (get : Nat → Nat → Bool) (x0 y0 : Nat) (e : Nat × Nat) :
    Canvas.Writes (Canvas.blitPixels get x0 y0 e) :=
  Canvas.writes_forUp fun _ _ => Canvas.writes_forUp fun _ _ => Canvas.writes_putPixel _ _ _

theorem Canvas.writes_blitAligned (get : Nat → Nat → Byte) (x0 y0 width height : Nat) :
    Canvas.Writes (Canvas.blitAligned get x0 y0 width height) := fun cv h => by
  unfold Canvas.blitAligned
  split
  · exact .refl h
  · refine Canvas.writes_forUp (fun k hk => Canvas.writes_forUp fun i hi => Canvas.writes_store ?_ _) cv h
    have := (clip_spec x0 y0 width height i (k * 8)).1 ⟨hi, by omega⟩
    simp only [OnScreen, FBSIZE, W, H] at *
    omega

/-! ## The state after such a procedure -/

/-- The frame of a drawing procedure on the state: bytes from 504 on are as before, `TX` changes at most below 504. -/
theorem Canvas.Written.frame {s : State} {cv : Canvas} (h : Canvas.Written s.canvas cv) :
    TransmitKept s (s.commit cv) (· < FBSIZE) ∧ ∀ i, FBSIZE ≤ i → (s.commit cv).fbByte i = s.fbByte i := by
  have ht : ∀ i ∈ cv.touched, i < FBSIZE := fun i hi => (h.touched i hi).resolve_left (by simp)
  refine ⟨(State.commit_transmit s cv).mono ht, fun i hi => ?_⟩
  by_contra hne
  exact absurd (ht i (h.changed i hne)) (by omega)

end Sys2Proof.Machine
end

