-- ==== Sys2Proof/Laws/Text.lean ====
section
/-! SUPPORT. What the text engine's shared procedures can do, each said once (spec/43_text.md). -/

namespace Sys2Proof.Machine

open Config

/-! ## Options and glyphs -/

/-- The font codes that name a font are the supported ones (R83). -/
theorem fontOfCode_isSome (font : BitVec 2) : (fontOfCode font).isSome = fontCodeSupported font := by
  revert font; decide

/-- The alignment codes a font accepts are the supported ones (R174). -/
theorem alignShift_isSome {font : BitVec 2} {f : Font} (h : fontOfCode font = some f) (align : BitVec 2) :
    (alignShift f align).isSome = alignCodeSupported font align := by
  revert font align f; intro font f; cases f <;> revert font <;> decide

theorem glyphColumns_length (cfg : Config) (f : Font) (g : Nat) : (glyphColumns cfg f g).length = f.width := by
  cases f <;> simp [glyphColumns, unpackSmall, Font.width]

theorem decodeGlyph_length (cfg : Config) (f : Font) (g sh : Nat) (inv : Bool) :
    (decodeGlyph cfg f g sh inv).length = f.width := by
  simp [decodeGlyph, glyphColumns_length]

/-- A character code is printable exactly from 0x20 to 0x7E (R171). -/
theorem printable_iff (ch : Byte) : printable ch = true ↔ 0x20 ≤ ch.toNat ∧ ch.toNat ≤ 0x7E := by
  simp only [printable, NGLYPH, Bool.and_eq_true, decide_eq_true_eq]
  omega

/-! ## PRINTC -/

/-- The cursor is in range (R26). -/
abbrev Printer.InRange (p : Printer) : Prop := p.x ≤ W ∧ p.y < NBANK

theorem Printer.nextLine_inRange (p : Printer) : p.nextLine.InRange := by
  simp only [Printer.InRange, Printer.nextLine, W, NBANK]
  split <;> omega

/-- The automatic wrap leaves room for the glyph, keeps a cursor in range and draws nothing (R178). -/
theorem Printer.wrap_spec {fw : Nat} (hfw : fw ≤ W) (p : Printer) :
    (p.wrap fw).x + fw ≤ W ∧ (p.InRange → (p.wrap fw).InRange) ∧ (p.wrap fw).canvas = p.canvas := by
  unfold Printer.wrap
  split
  · exact ⟨by simpa [Printer.nextLine] using hfw, fun _ => p.nextLine_inRange, rfl⟩
  · exact ⟨by omega, id, rfl⟩

/-- One character of PRINTC, wherever the cursor is: the writes are inside the framebuffer, and a cursor in range stays
in range (R26, R44, R179). -/
theorem Printer.char_spec {fw : Nat} (hfw : fw ≤ W) (glyph : Nat → List Byte) (ch : Byte) {p : Printer}
    (hwf : p.canvas.mem.wf) :
    Canvas.Written p.canvas (p.char fw glyph ch).canvas ∧ (p.InRange → (p.char fw glyph ch).InRange) := by
  unfold Printer.char
  split
  · exact ⟨.refl hwf, fun _ => p.nextLine_inRange⟩
  split
  · obtain ⟨hx, hr, hc⟩ := p.wrap_spec hfw
    refine ⟨?_, fun h => ⟨hx, (hr h).2⟩⟩
    rw [← hc] at hwf ⊢
    unfold Printer.putGlyph
    split
    · refine Canvas.writes_forUp (fun k hk => Canvas.writes_store ?_ _) _ hwf
      simp only [W, NBANK, FBSIZE] at *
      omega
    · exact .refl hwf
  · exact ⟨.refl hwf, id⟩

/-- All of PRINTC, wherever the cursor is (R26, R44, R179). -/
theorem Printer.print_spec {fw : Nat} (hfw : fw ≤ W) (glyph : Nat → List Byte) (text : List Byte) {p : Printer}
    (hwf : p.canvas.mem.wf) :
    Canvas.Written p.canvas (p.print fw glyph text).canvas ∧ (p.InRange → (p.print fw glyph text).InRange) := by
  unfold Printer.print
  induction text generalizing p with
  | nil => exact ⟨.refl hwf, id⟩
  | cons ch rest ih =>
    have h := Printer.char_spec hfw glyph ch hwf
    exact ⟨h.1.trans (ih h.1.wf).1, fun hp => (ih h.1.wf).2 (h.2 hp)⟩

/-- Printing a text is printing its first part, then its second (R182). -/
theorem Printer.print_append (fw : Nat) (glyph : Nat → List Byte) (a b : List Byte) (p : Printer) :
    p.print fw glyph (a ++ b) = (p.print fw glyph a).print fw glyph b := List.foldl_append ..

theorem Font.width_le (f : Font) : f.width ≤ W := by cases f <;> decide

/-! ## PRINTAT -/

/-- One character of PRINTAT writes inside the framebuffer only (R180). -/
theorem Placer.char_written (fw : Nat) (glyph : Nat → List Byte) (ch : Byte) {p : Placer} (hwf : p.canvas.mem.wf) :
    Canvas.Written p.canvas (p.char fw glyph ch).canvas := by
  unfold Placer.char
  split
  · exact .refl hwf
  split
  · have hc : (p.wrap fw).canvas = p.canvas := by unfold Placer.wrap; split <;> rfl
    rw [← hc] at hwf ⊢
    exact Canvas.writes_blitPixels _ _ _ _ _ hwf
  · exact .refl hwf

/-- All of PRINTAT writes inside the framebuffer only (R180). -/
theorem Placer.print_written (fw : Nat) (glyph : Nat → List Byte) (text : List Byte) {p : Placer}
    (hwf : p.canvas.mem.wf) : Canvas.Written p.canvas (p.print fw glyph text).canvas := by
  unfold Placer.print
  induction text generalizing p with
  | nil => exact .refl hwf
  | cons ch rest ih =>
    have h := Placer.char_written fw glyph ch hwf
    exact h.trans (ih h.wf)

end Sys2Proof.Machine
end

