-- ==== Sys2Proof/Laws/Exec.lean ====
section
/-! SUPPORT. The meaning of each command as one equation over the shared operations, and what a command that writes
nothing does to `TX`. -/

namespace Sys2Proof.Machine

open Config

/-! ## Each command, over the shared operations -/

section
variable (c v : Bool) (s : State)

theorem exec_fill : exec (.fill c) s = .next ((s.draw (Canvas.fill c)).respond .ok 0x00) := rfl

theorem exec_setpx (x y : Byte) :
    exec (.setpx c x y) s = .next ((s.draw (Canvas.putPixel x.toNat y.toNat c)).respond .ok 0x00) := rfl

theorem exec_getpx (x y : Byte) : exec (.getpx x y) s = .next (s.respond .ok (getpxValue x.toNat y.toNat s)) := rfl

theorem exec_bspan (dir : SpanDir) (i : BitVec 16) (n : Byte) : exec (.bspan c dir i n) s =
    .next ((s.draw (Canvas.bankSpan i.toNat n.toNat (dir = .fromHigh) c)).respond .ok 0x00) := rfl

theorem exec_refresh : exec .refresh s = .next (s.sendAndRespond .data s.frameBytes) := rfl

theorem exec_hline (x y n : Byte) :
    exec (.hline c x y n) s = .next ((s.draw (Canvas.hLine x.toNat y.toNat n.toNat c)).respond .ok 0x00) := rfl

theorem exec_vline (x y n : Byte) :
    exec (.vline c x y n) s = .next ((s.draw (Canvas.vLine x.toNat y.toNat n.toNat c)).respond .ok 0x00) := rfl

theorem exec_line (x0 y0 x1 y1 : Byte) : exec (.line c x0 y0 x1 y1) s =
    .next ((s.draw (Canvas.line x0.toNat y0.toNat x1.toNat y1.toNat c)).respond .ok 0x00) := rfl

theorem exec_rect (x0 x1 y0 y1 : Byte) : exec (.rect c x0 x1 y0 y1) s =
    .next ((s.draw (Canvas.outline (min x0.toNat x1.toNat) (max x0.toNat x1.toNat) (min y0.toNat y1.toNat)
      (max y0.toNat y1.toNat) c)).respond .ok 0x00) := rfl

theorem exec_frect (x0 x1 y0 y1 : Byte) : exec (.frect c x0 x1 y0 y1) s =
    .next ((s.draw (Canvas.block (min x0.toNat x1.toNat) (max x0.toNat x1.toNat) (min y0.toNat y1.toNat)
      (max y0.toNat y1.toNat) c)).respond .ok 0x00) := rfl

theorem exec_tri (x0 y0 x1 y1 x2 y2 : Byte) : exec (.tri c x0 y0 x1 y1 x2 y2) s =
    .next ((s.draw (Canvas.triangle x0.toNat y0.toNat x1.toNat y1.toNat x2.toNat y2.toNat c)).respond .ok 0x00) := rfl

theorem exec_ftri (x0 y0 x1 y1 x2 y2 : Byte) : exec (.ftri c x0 y0 x1 y1 x2 y2) s =
    .next ((s.draw (Canvas.fillTriangle (x0.toNat, y0.toNat) (x1.toNat, y1.toNat) (x2.toNat, y2.toNat) c)).respond
      .ok 0x00) := rfl

theorem exec_circle (xc yc r : Byte) : exec (.circle c xc yc r) s =
    .next ((s.draw (Canvas.circleWalk xc.toNat yc.toNat r.toNat 0b1111 c)).respond .ok 0x00) := rfl

theorem exec_pcircle (xc yc r : Byte) (q : BitVec 4) : exec (.pcircle c xc yc r q) s =
    .next ((s.draw (Canvas.circleWalk xc.toNat yc.toNat r.toNat q c)).respond .ok 0x00) := rfl

theorem exec_blit (addr : SrcAddr) (x0 y0 w h : Byte) : exec (.blit addr x0 y0 w h) s =
    .next ((s.draw (Canvas.blitPixels (s.srcBit addr.toNat w.toNat) x0.toNat y0.toNat
      (clip x0.toNat y0.toNat w.toNat h.toNat))).respond .ok 0x00) := rfl

theorem exec_blitf (addr : SrcAddr) (x0 y0 w h : Byte) : exec (.blitf addr x0 y0 w h) s =
    .next ((s.draw (Canvas.blitAligned (fun k i => s.memRead (addr.toNat + k * w.toNat + i)) x0.toNat y0.toNat
      w.toNat h.toNat)).respond .ok 0x00) := rfl

/-- PRINTC with supported options prints the text (R179). -/
theorem exec_printc {font align : BitVec 2} {f : Font} {sh : Nat} (hf : fontOfCode font = some f)
    (hs : alignShift f align = some sh) (tinv : Bool) (addr : SrcAddr) (len : Byte) :
    exec (.printc tinv font align addr len) s = .next (s.printText f sh tinv addr.toNat len.toNat) := by
  simp [exec, execPrintc, hf, hs]

/-- PRINTAT with a supported font places the text (R180). -/
theorem exec_printat {font : BitVec 2} {f : Font} (hf : fontOfCode font = some f) (tinv : Bool) (addr : SrcAddr)
    (len x y : Byte) :
    exec (.printat tinv font addr len x y) s = .next (s.placeText f tinv addr.toNat len.toNat x.toNat y.toNat) := by
  simp [exec, execPrintat, hf]

theorem exec_invert : exec (.invert v) s =
    .next (s.sendAndRespond .command [if v then s.cfg.cmd.dispInverse else s.cfg.cmd.dispNormal]) := rfl

theorem exec_sleep : exec (.sleep v) s =
    .next (s.sendAndRespond .command (if v then [s.cfg.cmd.powerDown] else s.initSequence)) := rfl

end

/-! ## Writing nothing -/

@[simp] theorem Frame.unsettle_nil (draw : Nat) (f : Frame) : f.unsettle [] draw = f := by
  have h : f.bytes.mapIdx (fun _ b => b) = f.bytes := List.ext_getElem? fun i => by simp
  simp [Frame.unsettle, h]

/-- Without a written index `TX` is as before (R243). -/
@[simp] theorem State.txAfterWrites_nil (s : State) : s.txAfterWrites [] = s.tx := by
  unfold State.txAfterWrites
  split
  · rfl
  · rename_i k _
    have h : Frame.unsettle [] s.draws = id := funext fun f => Frame.unsettle_nil s.draws f
    rw [h]
    apply List.ext_getElem?
    intro i
    rw [List.getElem?_modify]
    split <;> simp

/-- The text at an address is its first character, then the text at the next address (R182). -/
theorem State.text_succ (s : State) (addr n : Nat) :
    s.text addr (n + 1) = s.memRead addr :: s.text (addr + 1) n := by
  simp [State.text, List.range_succ_eq_map, Nat.add_assoc, Nat.add_comm 1]

/-- The text at an address in two parts (R182). -/
theorem State.text_add (s : State) (addr m n : Nat) : s.text addr (m + n) = s.text addr m ++ s.text (addr + m) n := by
  simp [State.text, List.range_add, Nat.add_assoc]

end Sys2Proof.Machine
end

