-- ==== Sys2Proof/Laws/PerInstr.lean ====
section
/-! SUPPORT. The family `EncodeMatchesRow`: the word of a command matches its own row of the table of
spec/30_encoding.md R75, one lemma per command. -/

namespace Sys2Proof.Laws.EncodeMatchesRow

open Sys2Proof Sys2Proof.Machine

/-- The word of the command is selected by the row of the command's mnemonic (R75, R77). -/
def Statement (i : Instr) : Prop :=
  ∃ r ∈ opcodeTable, r.mnemonic = mnemonicOf i ∧ encode i &&& r.mask = r.pattern

/-- The match test reads the eight bytes of a packed word one by one. -/
theorem of_bytes {i : Instr} (op md a b c d e f op' md' a' b' c' d' e' f' p : Byte) (name : String)
    (hr : ⟨name, packWord p 0 0 0 0 0 0 0, packWord op' md' a' b' c' d' e' f'⟩ ∈ opcodeTable)
    (hm : name = mnemonicOf i) (hi : encode i = packWord op md a b c d e f)
    (h : op &&& op' = p ∧ md &&& md' = 0 ∧ a &&& a' = 0 ∧ b &&& b' = 0 ∧ c &&& c' = 0 ∧ d &&& d' = 0 ∧
      e &&& e' = 0 ∧ f &&& f' = 0) : Statement i := by
  refine ⟨_, hr, hm, ?_⟩
  obtain ⟨h0, h1, h2, h3, h4, h5, h6, h7⟩ := h
  simp only [hi, and_packWord, h0, h1, h2, h3, h4, h5, h6, h7]

/-! The bits of `MOD` and `D` that a command does not use are 0 in its word (R73, R75). -/

theorem modV_unused (v : Bool) : modV v &&& 0xFE#8 = 0#8 := by revert v; decide
theorem modBspan_unused (dir v : Bool) : packMod 0#2 0#2 false dir v &&& 0xFC#8 = 0#8 := by revert dir v; decide
theorem modPrintc_unused (align font : BitVec 2) (tinv : Bool) :
    packMod align font tinv false false &&& 0x83#8 = 0#8 := by revert align font tinv; decide
theorem modPrintat_unused (font : BitVec 2) (tinv : Bool) : packMod 0#2 font tinv false false &&& 0xE3#8 = 0#8 := by
  revert font tinv; decide
theorem corners_unused (q : BitVec 4) : 0#4 ++ q &&& 0xF0#8 = 0#8 := by revert q; decide

theorem fill (c : Colour) : Statement (.fill c) :=
  of_bytes _ _ _ _ _ _ _ _ 0xFF 0xFE 0xFF 0xFF 0xFF 0xFF 0xFF 0xFF 0x01 "FILL"
    (by decide) rfl rfl (by simp [modV_unused])

theorem setpx (c : Colour) (x y : Byte) : Statement (.setpx c x y) :=
  of_bytes _ _ _ _ _ _ _ _ 0xFF 0xFE 0x00 0x00 0xFF 0xFF 0xFF 0xFF 0x02 "SETPX"
    (by decide) rfl rfl (by simp [modV_unused])

theorem getpx (x y : Byte) : Statement (.getpx x y) :=
  of_bytes _ _ _ _ _ _ _ _ 0xFF 0xFF 0x00 0x00 0xFF 0xFF 0xFF 0xFF 0x03 "GETPX"
    (by decide) rfl rfl (by simp)

theorem bspan (c : Colour) (dir : SpanDir) (byteIndex : BitVec 16) (bitCount : Byte) : Statement (.bspan c dir byteIndex bitCount) :=
  of_bytes _ _ _ _ _ _ _ _ 0xFF 0xFC 0x00 0x00 0x00 0xFF 0xFF 0xFF 0x04 "BSPAN"
    (by decide) rfl rfl (by simp [modBspan_unused])

theorem refresh : Statement (.refresh) :=
  of_bytes _ _ _ _ _ _ _ _ 0xFF 0xFF 0xFF 0xFF 0xFF 0xFF 0xFF 0xFF 0x05 "REFRESH"
    (by decide) rfl rfl (by simp)

theorem hline (c : Colour) (x y length : Byte) : Statement (.hline c x y length) :=
  of_bytes _ _ _ _ _ _ _ _ 0xFF 0xFE 0x00 0x00 0x00 0xFF 0xFF 0xFF 0x10 "HLINE"
    (by decide) rfl rfl (by simp [modV_unused])

theorem vline (c : Colour) (x y length : Byte) : Statement (.vline c x y length) :=
  of_bytes _ _ _ _ _ _ _ _ 0xFF 0xFE 0x00 0x00 0x00 0xFF 0xFF 0xFF 0x11 "VLINE"
    (by decide) rfl rfl (by simp [modV_unused])

theorem line (c : Colour) (x0 y0 x1 y1 : Byte) : Statement (.line c x0 y0 x1 y1) :=
  of_bytes _ _ _ _ _ _ _ _ 0xFF 0xFE 0x00 0x00 0x00 0x00 0xFF 0xFF 0x12 "LINE"
    (by decide) rfl rfl (by simp [modV_unused])

theorem rect (c : Colour) (x0 x1 y0 y1 : Byte) : Statement (.rect c x0 x1 y0 y1) :=
  of_bytes _ _ _ _ _ _ _ _ 0xFF 0xFE 0x00 0x00 0x00 0x00 0xFF 0xFF 0x13 "RECT"
    (by decide) rfl rfl (by simp [modV_unused])

theorem frect (c : Colour) (x0 x1 y0 y1 : Byte) : Statement (.frect c x0 x1 y0 y1) :=
  of_bytes _ _ _ _ _ _ _ _ 0xFF 0xFE 0x00 0x00 0x00 0x00 0xFF 0xFF 0x14 "FRECT"
    (by decide) rfl rfl (by simp [modV_unused])

theorem tri (c : Colour) (x0 y0 x1 y1 x2 y2 : Byte) : Statement (.tri c x0 y0 x1 y1 x2 y2) :=
  of_bytes _ _ _ _ _ _ _ _ 0xFF 0xFE 0x00 0x00 0x00 0x00 0x00 0x00 0x15 "TRI"
    (by decide) rfl rfl (by simp [modV_unused])

theorem ftri (c : Colour) (x0 y0 x1 y1 x2 y2 : Byte) : Statement (.ftri c x0 y0 x1 y1 x2 y2) :=
  of_bytes _ _ _ _ _ _ _ _ 0xFF 0xFE 0x00 0x00 0x00 0x00 0x00 0x00 0x16 "FTRI"
    (by decide) rfl rfl (by simp [modV_unused])

theorem circle (c : Colour) (xc yc r : Byte) : Statement (.circle c xc yc r) :=
  of_bytes _ _ _ _ _ _ _ _ 0xFF 0xFE 0x00 0x00 0x00 0xFF 0xFF 0xFF 0x17 "CIRCLE"
    (by decide) rfl rfl (by simp [modV_unused])

theorem pcircle (c : Colour) (xc yc r : Byte) (corners : BitVec 4) : Statement (.pcircle c xc yc r corners) :=
  of_bytes _ _ _ _ _ _ _ _ 0xFF 0xFE 0x00 0x00 0x00 0xF0 0xFF 0xFF 0x18 "PCIRCLE"
    (by decide) rfl rfl (by simp [modV_unused, corners_unused])

theorem blit (addr : SrcAddr) (x0 y0 width height : Byte) : Statement (.blit addr x0 y0 width height) :=
  of_bytes _ _ _ _ _ _ _ _ 0xFF 0xFF 0x00 0x00 0x00 0x00 0x00 0x00 0x20 "BLIT"
    (by decide) rfl rfl (by simp)

theorem blitf (addr : SrcAddr) (x0 y0 width height : Byte) : Statement (.blitf addr x0 y0 width height) :=
  of_bytes _ _ _ _ _ _ _ _ 0xFF 0xFF 0x00 0x00 0x00 0x00 0x00 0x00 0x21 "BLITF"
    (by decide) rfl rfl (by simp)

theorem setcur (x y : Byte) : Statement (.setcur x y) :=
  of_bytes _ _ _ _ _ _ _ _ 0xFF 0xFF 0x00 0x00 0xFF 0xFF 0xFF 0xFF 0x30 "SETCUR"
    (by decide) rfl rfl (by simp)

theorem printc (tinv : Bool) (font align : BitVec 2) (addr : SrcAddr) (len : Byte) : Statement (.printc tinv font align addr len) :=
  of_bytes _ _ _ _ _ _ _ _ 0xFF 0x83 0x00 0x00 0x00 0xFF 0xFF 0xFF 0x31 "PRINTC"
    (by decide) rfl rfl (by simp [modPrintc_unused])

theorem printat (tinv : Bool) (font : BitVec 2) (addr : SrcAddr) (len x y : Byte) : Statement (.printat tinv font addr len x y) :=
  of_bytes _ _ _ _ _ _ _ _ 0xFF 0xE3 0x00 0x00 0x00 0x00 0x00 0xFF 0x32 "PRINTAT"
    (by decide) rfl rfl (by simp [modPrintat_unused])

theorem init (contrast bias : Byte) : Statement (.init contrast bias) :=
  of_bytes _ _ _ _ _ _ _ _ 0xFF 0xFF 0x00 0x00 0xFF 0xFF 0xFF 0xFF 0x40 "INIT"
    (by decide) rfl rfl (by simp)

theorem invert (v : Bool) : Statement (.invert v) :=
  of_bytes _ _ _ _ _ _ _ _ 0xFF 0xFE 0xFF 0xFF 0xFF 0xFF 0xFF 0xFF 0x41 "INVERT"
    (by decide) rfl rfl (by simp [modV_unused])

theorem sleep (v : Bool) : Statement (.sleep v) :=
  of_bytes _ _ _ _ _ _ _ _ 0xFF 0xFE 0xFF 0xFF 0xFF 0xFF 0xFF 0xFF 0x42 "SLEEP"
    (by decide) rfl rfl (by simp [modV_unused])

theorem contrast (value : Byte) : Statement (.contrast value) :=
  of_bytes _ _ _ _ _ _ _ _ 0xFF 0xFF 0x00 0xFF 0xFF 0xFF 0xFF 0xFF 0x43 "CONTRAST"
    (by decide) rfl rfl (by simp)

theorem bias (value : Byte) : Statement (.bias value) :=
  of_bytes _ _ _ _ _ _ _ _ 0xFF 0xFF 0x00 0xFF 0xFF 0xFF 0xFF 0xFF 0x44 "BIAS"
    (by decide) rfl rfl (by simp)

end Sys2Proof.Laws.EncodeMatchesRow
end

