-- ==== Sys2Proof/Laws/Shapes.lean ====
section
/-! SUPPORT. What one row of the filled triangle and one step of the circle draw, each said once
(spec/41_rasterizer.md R131, R132). -/

namespace Sys2Proof.Machine

open Config

/-- The rounded-up bound is the least integer not left of the exact one (R6). -/
theorem ceilDiv_le_iff {n d : Int} (hd : 0 < d) (k : Int) : ceilDiv n d ≤ k ↔ n ≤ k * d := by
  unfold ceilDiv
  have h : -((-n) / d) ≤ k ↔ -k ≤ (-n) / d := by omega
  rw [h, Int.le_ediv_iff_mul_le hd]
  constructor <;> intro h <;> linarith

/-- The rounded-down bound is the greatest integer not right of the exact one (R6). -/
theorem le_floorDiv_iff {n d : Int} (hd : 0 < d) (k : Int) : k ≤ floorDiv n d ↔ k * d ≤ n := by
  unfold floorDiv
  exact Int.le_ediv_iff_mul_le hd

/-- A left bound not left of the screen and a right bound: `Span`'s row between them. -/
theorem Canvas.fills_between (y : Nat) (left right : Int) (h : 0 ≤ left) (c : Colour) :
    Canvas.Fills (fun px py => py = y ∧ left ≤ px ∧ (px : Int) ≤ right) c
      (fun cv => if left ≤ right then cv.hLine left.toNat y (right - left + 1) c else cv) := by
  by_cases hlr : left ≤ right
  · simp only [hlr, if_true]
    exact (Canvas.fills_hLine left.toNat y (right - left + 1)).congr fun px py _ => by omega
  · simp only [hlr, if_false]
    exact Canvas.fills_id fun px py _ => by omega

/-- `Span` draws the columns of row `y` between its two exact bounds `pa + na/da` and `pb + nb/db`, whichever is the
left one (R131). -/
theorem Canvas.fills_scanRow {y : Nat} {pa na da pb nb db : Int} (hda : 0 < da) (hdb : 0 < db)
    (ha : 0 ≤ pa * da + na) (hb : 0 ≤ pb * db + nb) (c : Colour) :
    Canvas.Fills (fun px py => py = y ∧
      ((pa * da + na ≤ px * da ∧ px * db ≤ pb * db + nb) ∨ (pb * db + nb ≤ px * db ∧ px * da ≤ pa * da + na))) c
      (Canvas.span y pa na da pb nb db c) := by
  have hleft : ∀ p n d : Int, 0 < d → ∀ k : Int, p + ceilDiv n d ≤ k ↔ p * d + n ≤ k * d := fun p n d hd k => by
    rw [show p + ceilDiv n d ≤ k ↔ ceilDiv n d ≤ k - p by omega, ceilDiv_le_iff hd, sub_mul]
    constructor <;> intro h <;> linarith
  have hright : ∀ p n d : Int, 0 < d → ∀ k : Int, k ≤ p + floorDiv n d ↔ k * d ≤ p * d + n := fun p n d hd k => by
    rw [show k ≤ p + floorDiv n d ↔ k - p ≤ floorDiv n d by omega, le_floorDiv_iff hd, sub_mul]
    constructor <;> intro h <;> linarith
  have hpos : ∀ p n d : Int, 0 < d → 0 ≤ p * d + n → 0 ≤ p + ceilDiv n d := fun p n d hd h => by
    by_contra hneg
    have := (hleft p n d hd (-1)).1 (by omega)
    linarith
  by_cases hord : (pa * da + na) * db ≤ (pb * db + nb) * da
  · have hspan : Canvas.span y pa na da pb nb db c = fun cv =>
        if pa + ceilDiv na da ≤ pb + floorDiv nb db then
          cv.hLine (pa + ceilDiv na da).toNat y (pb + floorDiv nb db - (pa + ceilDiv na da) + 1) c else cv := by
      funext cv; simp only [Canvas.span, hord, if_true]
    rw [hspan]
    refine (Canvas.fills_between y _ _ (hpos pa na da hda ha) c).congr fun px py _ => ?_
    rw [hleft pa na da hda, hright pb nb db hdb]
    refine and_congr_right fun _ => ⟨.inl, ?_⟩
    rintro (h | ⟨h1, h2⟩)
    · exact h
    · exact ⟨by nlinarith, by nlinarith⟩
  · have hspan : Canvas.span y pa na da pb nb db c = fun cv =>
        if pb + ceilDiv nb db ≤ pa + floorDiv na da then
          cv.hLine (pb + ceilDiv nb db).toNat y (pa + floorDiv na da - (pb + ceilDiv nb db) + 1) c else cv := by
      funext cv; simp only [Canvas.span, hord, if_false]
    rw [hspan]
    refine (Canvas.fills_between y _ _ (hpos pb nb db hdb hb) c).congr fun px py _ => ?_
    rw [hleft pb nb db hdb, hright pa na da hda]
    refine and_congr_right fun _ => ⟨.inr, ?_⟩
    rintro (⟨h1, h2⟩ | h)
    · exact absurd (by nlinarith : (pa * da + na) * db ≤ (pb * db + nb) * da) hord
    · exact h

/-- One step of the circle walk draws the two symmetric pixels of each enabled quadrant (R132). -/
theorem Canvas.fills_circlePoints (xc yc : Int) (a b : Nat) (q : BitVec 4) (c : Colour) :
    Canvas.Fills (fun x y =>
      (q.getLsbD 0 = true ∧ InQuadrant xc yc (-1) (-1) a b x y) ∨
      (q.getLsbD 1 = true ∧ InQuadrant xc yc 1 (-1) a b x y) ∨
      (q.getLsbD 2 = true ∧ InQuadrant xc yc 1 1 a b x y) ∨
      (q.getLsbD 3 = true ∧ InQuadrant xc yc (-1) 1 a b x y)) c (Canvas.circlePoints xc yc a b q c) := by
  have hpair : ∀ (on : Bool) (sx sy : Int) (x y x' y' : Int), x = xc + sx * a → y = yc + sy * b → x' = xc + sx * b →
      y' = yc + sy * a →
      Canvas.Fills (fun px py => on = true ∧ InQuadrant xc yc sx sy a b px py) c
        (fun cv => if on then (cv.putPixel x y c).putPixel x' y' c else cv) := by
    rintro on sx sy _ _ _ _ rfl rfl rfl rfl
    cases on
    · exact Canvas.fills_id (by simp)
    · exact (Canvas.paints_putPixel _ _ c).comp (Canvas.paints_putPixel _ _ c) |>.congr
        (by
          rintro i (⟨x, y, ho, hx, hi⟩ | ⟨x, y, ho, hx, hi⟩)
          · exact ⟨x, y, ho, ⟨rfl, .inl hx⟩, hi⟩
          · exact ⟨x, y, ho, ⟨rfl, .inr hx⟩, hi⟩)
        (fun _ _ _ => by simp [InQuadrant]) fun _ _ _ _ => rfl
  have h := (((hpair (q.getLsbD 0) (-1) (-1) (xc - a) (yc - b) (xc - b) (yc - a) (by ring) (by ring) (by ring) (by ring)).comp
    (hpair (q.getLsbD 1) 1 (-1) (xc + a) (yc - b) (xc + b) (yc - a) (by ring) (by ring) (by ring) (by ring))
    fun _ _ _ => Iff.rfl).comp
    (hpair (q.getLsbD 2) 1 1 (xc + a) (yc + b) (xc + b) (yc + a) (by ring) (by ring) (by ring) (by ring))
    fun _ _ _ => Iff.rfl).comp
    (hpair (q.getLsbD 3) (-1) 1 (xc - a) (yc + b) (xc - b) (yc + a) (by ring) (by ring) (by ring) (by ring))
    fun _ _ _ => Iff.rfl
  exact h.congr fun _ _ _ => by tauto

end Sys2Proof.Machine
end

