-- ==== Sys2Proof/Tests/Slice0.lean ====
section
/-! SUPPORT. Tests of the model by evaluation. Every expected value is from spec/: the words of 30_encoding.md R81 and of
95_test_vectors.md, and the vectors V1 to V84 of that file, whose test font ROMs stand here as data. -/

namespace Sys2Proof.Tests

open Sys2Proof Sys2Proof.Machine Sys2Proof.Config

-- One theorem after another: each evaluation holds a thread of its own.
set_option Elab.async false

/-! ## Small states -/

/-- `FONT_SMALL` of 95_test_vectors.md section 1: the packing of four 6-bit columns. -/
def smallRom : List Byte := (List.range 95).flatMap fun g =>
  let c0 := (g + 1) % 64
  let c1 := (2 * g + 3) % 64
  let c2 := (3 * g + 5) % 64
  let c3 := (5 * g + 7) % 64
  [BitVec.ofNat 8 (c0 + c1 % 4 * 64), BitVec.ofNat 8 (c1 / 4 + c2 % 16 * 16), BitVec.ofNat 8 (c2 / 16 + c3 * 4)]

/-- `FONT_MEDIUM` of 95_test_vectors.md section 1. -/
def mediumRom : List Byte := (List.range 95).flatMap fun g => (List.range 5).map fun k => BitVec.ofNat 8 (8 * g + k + 1)

/-- `FONT_LARGE` of 95_test_vectors.md section 1. -/
def largeRom : List Byte := (List.range 95).flatMap fun g => (List.range 6).map fun k => BitVec.ofNat 8 (16 * g + k)

/-- The parameters of the vectors: test ROMs, default command bytes. -/
def config (nonBlocking : Bool) : Config where
  nonBlocking := nonBlocking
  cmd := defaultCommandBytes
  fontSmall := ⟨smallRom.toArray, by decide +kernel⟩
  fontMedium := ⟨mediumRom.toArray, by decide +kernel⟩
  fontLarge := ⟨largeRom.toArray, by decide +kernel⟩

/-- The start of a vector in the blocking configuration: `FB` all 0x00, cursor (0, 0), the transport answers `ok`. -/
def blank : State := { State.reset with cfg := config false, answers := [.ok, .ok] }

/-- The start of a vector in the non-blocking configuration. -/
def blankNb : State := { blank with cfg := config true }

/-- A blocking state with something in `FB`. -/
def drawn : State := { blank with fb := [(0, 0xFF), (94, 0xDF), (503, 0x80)] }

/-- A non-blocking state with the data frame of an all-zero `FB` in flight. -/
def flying : State :=
  { blankNb with busy := true, inFlight := some 0, tx := [⟨.data, List.replicate 504 0x00, .ok⟩] }

/-- The state with the given bytes in SRC from `addr` on. -/
def withSrc (s : State) (addr : Nat) (bytes : List Byte) : State := { s with src := Memory.load s.src addr bytes }

/-- The state with the given cursor. -/
def withCursor (s : State) (x y : Nat) : State := s.setCursor x y

/-- The state after one step on the command word; a stop leaves an empty transmit history and no response. -/
def run (s : State) (w : Nat) : State :=
  match step (s.withFetchWord 64 w) with
  | .next t => t
  | _ => { s with responses := [], tx := [] }

/-- Bytes `i` to `i + n - 1` of the framebuffer, as numbers. -/
def bytes (s : State) (i n : Nat) : List Nat := (List.range n).map fun k => (s.fbByte (i + k)).toNat

/-- The last response word. -/
def reply (s : State) : Option Nat := s.responses.getLast?.map fun r => r.word.toNat

/-- The cursor. -/
def cursor (s : State) : Nat × Nat := (s.curX.toNat, s.curY.toNat)

/-- Text "AB" at 0x2000 in SRC. -/
def ab (s : State) : State := withSrc s 0x2000 [0x41, 0x42]

/-! ## WellFormed: each check refuses an ill-formed term -/

theorem test_illFormed_font_reserved : (Instr.wellFormed (.printc false 3 0 0x2000 2)) = false := by decide

theorem test_illFormed_align_reserved : (Instr.wellFormed (.printc false 0 3 0x2000 2)) = false := by decide

theorem test_illFormed_medium_center : (Instr.wellFormed (.printc false 1 2 0x2000 2)) = false := by decide

theorem test_illFormed_large_bottom : (Instr.wellFormed (.printc false 2 1 0x2000 2)) = false := by decide

theorem test_illFormed_printat_font_reserved : (Instr.wellFormed (.printat false 3 0x2000 1 0 0)) = false := by decide

theorem test_wellFormed_supported : (Instr.wellFormed (.printc true 0 2 0x2000 2) && Instr.wellFormed (.printc true 1 1 0x2000 2) &&
    Instr.wellFormed (.printc true 2 0 0x2000 2) && Instr.wellFormed (.printat true 2 0x2000 1 0 0)) = true := by decide

/-! ## Decoding: words written out in R81 and 95_test_vectors.md, one for every command -/

theorem test_decode_fill : decode 0x0101000000000000 = .ok (.fill true) := by decide

theorem test_decode_setpx : decode 0x02010A0500000000 = .ok (.setpx true 10 5) := by decide

theorem test_decode_getpx : decode 0x0300321400000000 = .ok (.getpx 50 20) := by decide

theorem test_decode_bspan : decode 0x0403005E03000000 = .ok (.bspan true .fromHigh 94 3) := by decide

theorem test_decode_refresh : decode 0x0500000000000000 = .ok (.refresh) := by decide

theorem test_decode_hline : decode 0x100150070A000000 = .ok (.hline true 80 7 10) := by decide

theorem test_decode_vline : decode 0x110105030C000000 = .ok (.vline true 5 3 12) := by decide

theorem test_decode_line : decode 0x1201000005020000 = .ok (.line true 0 0 5 2) := by decide

theorem test_decode_rect : decode 0x1301020601040000 = .ok (.rect true 2 6 1 4) := by decide

theorem test_decode_frect : decode 0x14010A14050F0000 = .ok (.frect true 10 20 5 15) := by decide

theorem test_decode_tri : decode 0x1501000004000004 = .ok (.tri true 0 0 4 0 0 4) := by decide

theorem test_decode_ftri : decode 0x1601000003020402 = .ok (.ftri true 0 0 3 2 4 2) := by decide

theorem test_decode_circle : decode 0x170128140A000000 = .ok (.circle true 40 20 10) := by decide

theorem test_decode_pcircle : decode 0x180128140A030000 = .ok (.pcircle true 40 20 10 3) := by decide

theorem test_decode_blit : decode 0x200010000203030A = .ok (.blit 0x1000 2 3 3 10) := by decide

theorem test_decode_blitf : decode 0x2100100050280610 = .ok (.blitf 0x1000 80 40 6 16) := by decide

theorem test_decode_setcur : decode 0x30004E0500000000 = .ok (.setcur 78 5) := by decide

theorem test_decode_printc : decode 0x3144200002000000 = .ok (.printc true 0 2 0x2000 2) := by decide

theorem test_decode_printat : decode 0x320C2000010A1400 = .ok (.printat true 1 0x2000 1 10 20) := by decide

theorem test_decode_init : decode 0x40003F0400000000 = .ok (.init 0x3F 4) := by decide

theorem test_decode_invert : decode 0x4101000000000000 = .ok (.invert true) := by decide

theorem test_decode_sleep : decode 0x4200000000000000 = .ok (.sleep false) := by decide

theorem test_decode_contrast : decode 0x4300450000000000 = .ok (.contrast 0x45) := by decide

theorem test_decode_bias : decode 0x4400030000000000 = .ok (.bias 3) := by decide

theorem test_decode_reserved : decode 0x0000000000000000 = .error (.reservedOpcode 0x00) := by decide

/-- V14: PCIRCLE with bit 4 of `D` set. -/
theorem test_decode_unusedBit : decode 0x18010A0A03130000 = .error (.unusedBitSet "PCIRCLE") := by decide

/-! ## The commands, at most two each -/

/-- FILL c=0. -/
theorem test_fill : bytes (run drawn 0x0100000000000000) 0 3 = [0, 0, 0] ∧ (run drawn 0x0100000000000000).fbByte 503 = 0 := by decide +kernel

/-- V3. -/
theorem test_setpx : bytes (run blank 0x0201532F00000000) 502 2 = [0, 0x80] ∧ reply (run blank 0x0201532F00000000) = some 0 := by decide +kernel

/-- V4. -/
theorem test_setpx_offscreen : (run drawn 0x0201540000000000).fb = drawn.fb ∧ reply (run drawn 0x0201540000000000) = some 0 := by decide +kernel

/-- V1, V6: pixel (83, 47). -/
theorem test_getpx : reply (run drawn 0x0300532F00000000) = some 1 ∧ reply (run blank 0x0300532F00000000) = some 0 := by decide +kernel

/-- V6. -/
theorem test_getpx_offscreen : reply (run drawn 0x0300540000000000) = some 0xFF ∧ reply (run drawn 0x0300003000000000) = some 0xFF := by decide +kernel

/-- V7. -/
theorem test_bspan : bytes (run blank 0x0403005E03000000) 93 3 = [0, 0xE0, 0] := by decide +kernel

/-- V10: count 8, index 504, index 503. -/
theorem test_bspan_bounds : (run drawn 0x0401000208000000).fb = drawn.fb ∧ (run drawn 0x040101F803000000).fb = drawn.fb ∧
    bytes (run blank 0x040101F703000000) 503 2 = [7, 0] := by decide +kernel

/-- R104, blocking. -/
theorem test_refresh : (run drawn 0x0500000000000000).tx.map (fun f => (f.kind, f.bytes.length, f.bytes.getD 94 0, f.result)) =
    [(.data, 504, 0xDF, .ok)] ∧ (run drawn 0x0500000000000000).busy = false := by decide +kernel

/-- V78. -/
theorem test_refresh_fail : reply (run { drawn with answers := [.fail] } 0x0500000000000000) = some 0x100 ∧
    (run { drawn with answers := [.fail] } 0x0500000000000000).fb = drawn.fb := by decide +kernel

/-- V20: clipped to four pixels. -/
theorem test_hline : bytes (run blank 0x100150070A000000) 79 6 = [0, 0x80, 0x80, 0x80, 0x80, 0] := by decide +kernel

/-- V22. -/
theorem test_hline_empty : (run drawn 0x1001050500000000).fb = drawn.fb ∧ (run drawn 0x1001540503000000).fb = drawn.fb := by decide +kernel

/-- V26: all three phases. -/
theorem test_vline : ((run blank 0x1101050614000000).fb.map fun p => (p.1, p.2.toNat)) =
    [(5, 0xC0), (89, 0xFF), (173, 0xFF), (257, 0x03)] := by decide +kernel

/-- V25. -/
theorem test_vline_interior : ((run blank 0x1101050104000000).fb.map fun p => (p.1, p.2.toNat)) = [(5, 0x1E)] := by decide +kernel

/-- V30. -/
theorem test_line : bytes (run blank 0x1201000005020000) 0 7 = [1, 1, 2, 2, 4, 4, 0] := by decide +kernel

/-- V31. -/
theorem test_line_steep : bytes (run blank 0x1201000002050000) 0 4 = [0x03, 0x0C, 0x30, 0] := by decide +kernel

/-- V38, corners swapped. -/
theorem test_rect : bytes (run blank 0x1301060204010000) 1 7 = [0, 0x1E, 0x12, 0x12, 0x12, 0x1E, 0] := by decide +kernel

/-- V38b. -/
theorem test_rect_clipped : bytes (run blank 0x1301505A2C3C0000) 499 5 = [0, 0xF0, 0x10, 0x10, 0x10] := by decide +kernel

/-- V39c. -/
theorem test_frect : bytes (run blank 0x1401030406190000) 2 4 = [0, 0xC0, 0xC0, 0] ∧ bytes (run blank 0x1401030406190000) 254 4 = [0, 3, 3, 0] := by decide +kernel

/-- V39e. -/
theorem test_frect_offscreen : (run drawn 0x1401545A00050000).fb = drawn.fb ∧ (run drawn 0x14010005303C0000).fb = drawn.fb := by decide +kernel

/-- V46c. -/
theorem test_tri : bytes (run blank 0x1501010106030207) 0 8 = [0, 0x1E, 0xE2, 0x44, 0x24, 0x18, 0x08, 0] := by decide +kernel

/-- V46d. -/
theorem test_tri_point : bytes (run blank 0x1501030303030303) 2 3 = [0, 0x08, 0] := by decide +kernel

/-- V42. -/
theorem test_ftri : bytes (run blank 0x1601040000030806) 0 10 = [8, 8, 0x0C, 0x1E, 0x1F, 0x1C, 0x38, 0x20, 0x40, 0] := by decide +kernel

/-- V41: pixel (1, 1) is outside. -/
theorem test_ftri_thin : bytes (run blank 0x1601000003020402) 0 5 = [1, 0, 2, 4, 4] := by decide +kernel

/-- V48d. -/
theorem test_circle : bytes (run blank 0x17010A0A02000000) 91 7 = [0, 0x0E, 0x11, 0x11, 0x11, 0x0E, 0] := by decide +kernel

/-- V48e: negative coordinates are dropped. -/
theorem test_circle_corner : bytes (run blank 0x1701000003000000) 0 5 = [8, 8, 4, 3, 0] := by decide +kernel

/-- V49, q = 1. -/
theorem test_pcircle_upperLeft : bytes (run blank 0x18010A0A03010000) 8 4 = [0, 0x80, 0x80, 0] ∧ bytes (run blank 0x18010A0A03010000) 90 4 = [0, 6, 1, 0] := by decide +kernel

/-- V49, q = 4. -/
theorem test_pcircle_lowerRight : bytes (run blank 0x18010A0A03040000) 93 6 = [0, 0x20, 0x20, 0x10, 0x0C, 0] := by decide +kernel

/-- V50. -/
theorem test_blit : bytes (run (withSrc drawn 0x1000 [0xFF, 0x01, 0x80, 0x03, 0x00, 0x02]) 0x200010000203030A) 2 3 = [0xF8, 8, 0] ∧
    bytes (run (withSrc drawn 0x1000 [0xFF, 0x01, 0x80, 0x03, 0x00, 0x02]) 0x200010000203030A) 86 3 = [0x1F, 0, 0x14] := by decide +kernel

/-- V53b: the source address wraps. -/
theorem test_blit_wraps : bytes (run (withSrc (withSrc blank 0xFFFE [0x11, 0x22]) 0 [0x33]) 0x2000FFFE00000308) 0 4 = [0x11, 0x22, 0x33, 0] := by decide +kernel

/-- V54: clipped to four columns and one bank row. -/
theorem test_blitf : bytes (run (withSrc blank 0x1000 [0x11, 0x22, 0x33, 0x44, 0x55, 0x66]) 0x2100100050280610) 499 5 =
    [0, 0x11, 0x22, 0x33, 0x44] := by decide +kernel

/-- V55. -/
theorem test_blitf_unaligned : (run (withSrc drawn 0x1000 [0x11, 0x22]) 0x2100100000040610).fb = drawn.fb ∧
    reply (run (withSrc drawn 0x1000 [0x11, 0x22]) 0x210010000008060C) = some 0 := by decide +kernel

/-- V58. -/
theorem test_setcur : cursor (run blank 0x30004E0500000000) = (78, 5) := by decide +kernel

/-- V59. -/
theorem test_setcur_ignored : cursor (run (withCursor blank 3 2) 0x30004E0600000000) = (3, 2) ∧
    cursor (run (withCursor blank 3 2) 0x3000540000000000) = (3, 2) := by decide +kernel

/-- V60: the automatic wrap, past the last bank row. -/
theorem test_printc : bytes (run (withCursor (ab blank) 78 5) 0x3110200002000000) 498 6 = [0x10, 0x11, 0x12, 0x13, 0x14, 0x15] ∧
    bytes (run (withCursor (ab blank) 78 5) 0x3110200002000000) 0 7 = [0x20, 0x21, 0x22, 0x23, 0x24, 0x25, 0] ∧
    cursor (run (withCursor (ab blank) 78 5) 0x3110200002000000) = (6, 0) := by decide +kernel

/-- V64c: small, center, inverted. V65: medium has no center. -/
theorem test_printc_options : bytes (run (ab blank) 0x3144200002000000) 0 8 = [0xBB, 0xF5, 0xAF, 0xA7, 0xB9, 0xF1, 0xA9, 0x9D] ∧
    reply (run (ab blank) 0x3148200002000000) = some 0x200 := by decide +kernel

/-- V63b. -/
theorem test_printat : bytes (run (withSrc blank 0x2000 [0x21]) 0x320C2000010A1400) 178 5 = [0x60, 0x50, 0x40, 0x30, 0x20] ∧
    bytes (run (withSrc blank 0x2000 [0x21]) 0x320C2000010A1400) 262 5 = [0x0F, 0x0F, 0x0F, 0x0F, 0x0F] := by decide +kernel

/-- V68: from row 44 the next line is row 0. -/
theorem test_printat_wraps : bytes (run (ab blank) 0x3210200002502C00) 0 12 =
    [0x10, 0x11, 0x12, 0x13, 0x14, 0x15, 0x20, 0x21, 0x22, 0x23, 0x24, 0x25] := by decide +kernel

/-- V71. -/
theorem test_init : (run blank 0x4000C80900000000).tx = [⟨.command, [0x21, 0x17, 0xFF, 0x20, 0x80, 0x40, 0x0C], .ok⟩] ∧
    (run blank 0x4000C80900000000).contrast = 0x7F ∧ (run blank 0x4000C80900000000).bias = 7 := by decide +kernel

/-- V72: the registers keep the new values. -/
theorem test_init_fail : reply (run { blank with answers := [.fail] } 0x40003F0400000000) = some 0x100 ∧
    (run { blank with answers := [.fail] } 0x40003F0400000000).contrast = 0x3F := by decide +kernel

/-- V73. -/
theorem test_invert : (run blank 0x4101000000000000).tx = [⟨.command, [0x0D], .ok⟩] ∧ (run blank 0x4100000000000000).tx = [⟨.command, [0x0C], .ok⟩] := by decide +kernel

/-- V80. -/
theorem test_invert_busy : reply (run flying 0x4101000000000000) = some 0x100 ∧ (run flying 0x4101000000000000).tx.length = 1 := by decide +kernel

/-- V74. -/
theorem test_sleep : (run blank 0x4201000000000000).tx = [⟨.command, [0x24], .ok⟩] := by decide +kernel

/-- V77. -/
theorem test_sleep_wake : (run { blank with contrast := 0x50, bias := 2 } 0x4200000000000000).tx =
    [⟨.command, [0x21, 0x12, 0xD0, 0x20, 0x80, 0x40, 0x0C], .ok⟩] := by decide +kernel

/-- V75: saturation, not truncation. -/
theorem test_contrast : (run { blank with bias := 5 } 0x4300800000000000).tx = [⟨.command, [0x21, 0xFF, 0x20], .ok⟩] ∧
    (run { blank with bias := 5 } 0x4300800000000000).contrast = 0x7F ∧
    (run { blank with bias := 5 } 0x4300800000000000).bias = 5 := by decide +kernel

/-- V82, R29. -/
theorem test_contrast_nonblocking : (run blankNb 0x4300450000000000).busy = true ∧ (run blankNb 0x4300450000000000).inFlight = some 0 := by decide +kernel

/-- V76. -/
theorem test_bias : (run { blank with contrast := 0x30 } 0x4400080000000000).tx = [⟨.command, [0x21, 0x17, 0x20], .ok⟩] ∧
    (run { blank with contrast := 0x30 } 0x4400080000000000).bias = 7 ∧
    (run { blank with contrast := 0x30 } 0x4400080000000000).contrast = 0x30 := by decide +kernel

/-- V80. -/
theorem test_bias_busy : reply (run { flying with bias := 5 } 0x4400030000000000) = some 0x100 ∧
    (run { flying with bias := 5 } 0x4400030000000000).bias = 5 := by decide +kernel

/-! ## The environment and the hazard of R243 -/

/-- V13. -/
theorem test_rejected : reply (run drawn 0x0102000000000000) = some 0x200 ∧ (run drawn 0x0102000000000000).fb = drawn.fb := by decide +kernel

/-- V84, on a shorter frame: only byte 0 of the frame in flight is unconstrained. -/
theorem test_inFlight_kept : ((run { flying with tx := [⟨.data, [0, 0, 0], .ok⟩] } 0x0201000000000000).tx.map fun f => f.bytes.drop 1) =
    [[0, 0]] := by decide +kernel

/-- 95_test_vectors.md section 3.8. -/
theorem test_unpack : unpackSmall 0x3F 0x50 0xA9 = [0x3F, 0x00, 0x15, 0x2A] := by decide
/-! ## Witnesses: states and operands that meet the hypotheses of the statements of Certificates/Slice0 -/

/-- The state that is presented the given command word next. -/
def presented (s : State) (w : CommandWord) : State := { s with inputs := [.command w] }

/-- A line break, an unprintable and a printable character at 0x3000, 0x3001 and 0xFFFF. -/
def lineBreak (s : State) : State := withSrc (withSrc s 0x3000 [0x0A, 0x7F]) 0xFFFF [0x7E]

theorem witness_DecodedWordIsItsEncoding : decode 0x310F_FFFF_0000_0000 = .error (.unusedBitSet "PRINTC") ∧
    decode 0x317C_FFFF_FF00_0000 = .ok (.printc true 3 3 0xFFFF 255) := by decide

/-- A word of the last row and, for the clause about words of no row, a word one bit away from it. -/
theorem witness_DecodingFollowsTheTable :
    (∃ r ∈ opcodeTable, (0x4400FF0000000000 : CommandWord) &&& r.mask = r.pattern) ∧
    (∀ r ∈ opcodeTable, (0x4401FF0000000000 : CommandWord) &&& r.mask ≠ r.pattern) ∧
    (presented blank 0x4401FF0000000000).inputs = .command 0x4401FF0000000000 :: [] := by decide

/-- The first and the last opcode of each reserved range. -/
theorem witness_ReservedOpcodesRejected :
    (∀ n ∈ [0x00, 0x06, 0x0F, 0x19, 0x1F, 0x22, 0x2F, 0x33, 0x3F, 0x45, 0xFF],
      let op := ((BitVec.ofNat 64 n <<< 56 : CommandWord) >>> 56).toNat
      op = 0x00 ∨ (0x06 ≤ op ∧ op ≤ 0x0F) ∨ (0x19 ≤ op ∧ op ≤ 0x1F) ∨ (0x22 ≤ op ∧ op ≤ 0x2F) ∨
        (0x33 ≤ op ∧ op ≤ 0x3F) ∨ (0x45 ≤ op ∧ op ≤ 0xFF)) ∧
    (presented blank 0).inputs = .command 0 :: [] := by decide

theorem witness_StepRunsTheDecodedCommand :
    (presented blank 0x0500000000000000).inputs = .command 0x0500000000000000 :: [] ∧
    decode 0x0500000000000000 = .ok .refresh := by decide

theorem witness_CompletionClearsBusyOnly :
    ({ flying with inputs := [.completion] } : State).inputs = .completion :: [] ∧ flying.FailsFast ∧
    ¬ blank.FailsFast ∧ ¬ blankNb.FailsFast := by decide

theorem witness_ResetInputResets :
    ({ flying with inputs := [.reset ⟨[0x5A], 0x7F, 7⟩] } : State).inputs = .reset ⟨[0x5A], 0x7F, 7⟩ :: [] := by decide

/-- The first and the last address of SRC; nothing presented. -/
theorem witness_SourceWriteAndIdleStep :
    (ab blank).src.wf ∧
    ({ ab blank with inputs := [.srcWrite 0x0000 1, .srcWrite 0xFFFF 0] } : State).inputs =
      .srcWrite 0x0000 1 :: [.srcWrite 0xFFFF 0] ∧ blank.inputs = [] := by decide +kernel

theorem witness_StepKeepsLegal :
    (presented (withCursor drawn 84 5) 0x30004E0500000000).Legal ∧
    step (presented (withCursor drawn 84 5) 0x30004E0500000000) =
      .next { withCursor drawn 78 5 with responses := [⟨.ok, 0⟩] } := by
  constructor
  · decide +kernel
  · rfl

/-- A word that decodes, and answers OK from a row R26 excludes, and a word that does not decode. -/
theorem witness_StepsAndCommandsNeverStop :
    (presented blank 0x3110200002000000).inputs = .command 0x3110200002000000 :: [] ∧
    reply (run (withCursor (ab blank) 78 7) 0x3110200002000000) = some 0x000 ∧
    (presented blank 0xFF00000000000000).inputs = .command 0xFF00000000000000 :: [] := by decide +kernel

theorem witness_EveryCommandRespondsOnce :
    exec (.getpx 84 0) blank = .next { blank with responses := [⟨.ok, 0xFF⟩] } ∧
    exec (.printat false 3 0 0 0 0) blank = .next { blank with responses := [⟨.rejected, 0⟩] } := ⟨rfl, rfl⟩

theorem witness_CommandsChangeOnlyTheirState :
    exec (.setcur 83 5) blank = .next { blank with curX := 83, curY := 5, responses := [⟨.ok, 0⟩] } ∧
    Draws (.setcur 83 5) = false ∧ Sends (.setcur 83 5) = false ∧ MovesCursor .refresh = false := ⟨rfl, rfl, rfl, rfl⟩

/-- `BUSY` from 1 to 0 by the completion, from 0 to 1 by INVERT. -/
theorem witness_BusyChangesOnlyByItsEvents :
    step { flying with inputs := [.completion] } = .next { flying with busy := false, inFlight := none } ∧
    (run blankNb 0x4101000000000000).busy = true ∧ blankNb.busy = false := by
  refine ⟨rfl, ?_⟩
  decide +kernel

theorem witness_BusyCommandsFailFast :
    Sends .refresh = true ∧ flying.FailsFast ∧ blank.cfg.nonBlocking = false := by decide

theorem witness_DrawingIgnoresTheTransport :
    blankNb.fb = flying.fb ∧ blankNb.curX = flying.curX ∧ blankNb.curY = flying.curY ∧ blankNb.src = flying.src ∧
    blankNb.cfg = flying.cfg ∧ exec (.getpx 84 0) blankNb = .next { blankNb with responses := [⟨.ok, 0xFF⟩] } :=
  ⟨rfl, rfl, rfl, rfl, rfl, rfl⟩

theorem witness_InFlightBytesBecomeFree :
    flying.fb.wf ∧ flying.dataInFlight = some 0 ∧ flying.tx[0]? = some ⟨.data, List.replicate 504 0x00, .ok⟩ ∧
    (run flying 0x0201532F00000000).fbByte 503 ≠ flying.fbByte 503 := by decide +kernel

theorem witness_EveryFramebufferBitIsOnePixel : 503 < FBSIZE ∧ 7 < 8 := by decide

/-! The drawing commands ask only that the framebuffer is in canonical form. -/

theorem witness_FillResult : drawn.fb.wf := by decide
theorem witness_SetpxResult : drawn.fb.wf := by decide
theorem witness_BspanResult : drawn.fb.wf := by decide
theorem witness_HlineResult : drawn.fb.wf := by decide
theorem witness_VlineResult : drawn.fb.wf := by decide
theorem witness_LineResult : drawn.fb.wf := by decide
theorem witness_RectResult : drawn.fb.wf := by decide
theorem witness_FrectResult : drawn.fb.wf := by decide
theorem witness_FrectIsIdempotent : drawn.fb.wf := by decide
theorem witness_TriResult : drawn.fb.wf := by decide
theorem witness_CircleResult : drawn.fb.wf := by decide
theorem witness_PcircleResult : drawn.fb.wf := by decide
theorem witness_BlitResult : drawn.fb.wf := by decide

/-- Pixel (1, 1) is outside the triangle (0,0), (3,2), (4,2) (V41). -/
theorem witness_FtriStaysInTheTriangle : drawn.fb.wf ∧ OnScreen 1 1 ∧ ¬ InTriangle 0 0 3 2 4 2 1 1 := by
  refine ⟨by decide, by decide, ?_⟩
  rintro ⟨a, b, d, h0, hx, hy⟩
  omega

/-- Pixel (2, 1) is inside it: the mean of the first and the last vertex (V41). -/
theorem witness_FtriCoversTheTriangle : drawn.fb.wf ∧ OnScreen 2 1 ∧ InTriangle 0 0 3 2 4 2 2 1 :=
  ⟨by decide, by decide, 1, 0, 1, by decide, by decide, by decide⟩

/-- Aligned operands, the last bank row and one past the screen; operands that are not aligned. -/
theorem witness_BlitfResult :
    drawn.fb.wf ∧ ((40 : Byte).toNat % 8 = 0 ∧ (16 : Byte).toNat % 8 = 0) ∧
    (0 < (16 : Byte).toNat / 8 ∧ 3 < (6 : Byte).toNat ∧ (40 : Byte).toNat / 8 + 0 < 6 ∧ (80 : Byte).toNat + 3 < 84) ∧
    ¬ ((4 : Byte).toNat % 8 = 0 ∧ (16 : Byte).toNat % 8 = 0) := by decide

theorem witness_AlignedBlitsAgree :
    drawn.fb.wf ∧ (48 : Byte).toNat % 8 = 0 ∧ (40 : Byte).toNat % 8 = 0 ∧ (16 : Byte).toNat % 8 = 0 := by decide

theorem witness_UnpackFollowsTheStream : 3 < 4 ∧ 5 < 6 := by decide

theorem witness_DecodeGlyphShiftsThenInverts : 3 < Font.width .small ∧ 4 < Font.width .medium ∧ 5 < Font.width .large ∧
    7 < 8 := by decide

theorem witness_PrintcCompletes :
    drawn.fb.wf ∧ (withCursor drawn 84 5).curX.toNat ≤ 84 ∧ (withCursor drawn 84 5).curY.toNat < 6 ∧
    ¬ (withCursor drawn 127 7).curY.toNat < 6 ∧ (Instr.printc true 0 2 0x2000 255).wellFormed = true := by decide

/-- At (84, 5) a large glyph wraps, at (78, 5) it fits; the code 0x7E is printable. -/
theorem witness_PrintcStoresOneGlyph :
    (let s := withCursor (lineBreak drawn) 84 5
     s.fb.wf ∧ s.curX.toNat ≤ 84 ∧ s.curY.toNat < 6 ∧ 84 < s.curX.toNat + Font.width .large ∧
      0x20 ≤ (s.src.read (0xFFFF : SrcAddr).toNat).toNat ∧ (s.src.read (0xFFFF : SrcAddr).toNat).toNat ≤ 0x7E) ∧
    (let s := withCursor (lineBreak drawn) 78 5
     s.fb.wf ∧ s.curX.toNat ≤ 84 ∧ s.curY.toNat < 6 ∧ ¬ 84 < s.curX.toNat + Font.width .large ∧
      0x20 ≤ (s.src.read (0xFFFF : SrcAddr).toNat).toNat ∧ (s.src.read (0xFFFF : SrcAddr).toNat).toNat ≤ 0x7E) ∧
    fontOfCode 2 = some .large ∧ alignShift .large 0 = some 0 := by decide +kernel

theorem witness_PrintcLineBreakAndSkip :
    (Instr.printc false 1 1 0x3000 1).wellFormed = true ∧ 5 ≤ (withCursor (lineBreak drawn) 40 5).curY.toNat ∧
    ¬ 5 ≤ (withCursor (lineBreak drawn) 40 4).curY.toNat ∧
    (lineBreak drawn).src.read (0x3000 : SrcAddr).toNat = 0x0A ∧
    (lineBreak drawn).src.read (0x3001 : SrcAddr).toNat ≠ 0x0A ∧
    0x7E < ((lineBreak drawn).src.read (0x3001 : SrcAddr).toNat).toNat := by decide +kernel

/-- An unprintable character, then none at all. -/
theorem witness_TextWithoutGlyphsDrawsNothing :
    (∀ j, j < (2 : Byte).toNat → ((lineBreak drawn).src.read (((0x3000 : SrcAddr).toNat + j) % 65536)).toNat < 0x20 ∨
      0x7E < ((lineBreak drawn).src.read (((0x3000 : SrcAddr).toNat + j) % 65536)).toNat) ∧
    (∀ j, j < (1 : Byte).toNat → (lineBreak drawn).src.read (((0x3001 : SrcAddr).toNat + j) % 65536) ≠ 0x0A) ∧
    (Instr.printc false 0 1 0x3000 2).wellFormed = true ∧ (Instr.printat false 2 0x3000 2 0 0).wellFormed = true := by
  decide +kernel

/-- Two line breaks, printed at once and one by one. -/
theorem witness_PrintcOfASplitText :
    (1 : Byte).toNat + (1 : Byte).toNat ≤ 255 ∧
    (run (withSrc blank 0x3000 [0x0A, 0x0A]) 0x3100300002000000).responses = [⟨.ok, 0⟩] ∧
    (run (withSrc blank 0x3000 [0x0A, 0x0A]) 0x3100300001000000).responses = [⟨.ok, 0⟩] ∧
    (run (run (withSrc blank 0x3000 [0x0A, 0x0A]) 0x3100300001000000) 0x3100300101000000).responses =
      [⟨.ok, 0⟩, ⟨.ok, 0⟩] := by decide +kernel

/-- At x = 79 a medium glyph fits, at x = 80 it wraps, from y = 40 to the top and from y = 39 to row 47. -/
theorem witness_PrintatBlitsOneGlyph :
    (lineBreak drawn).fb.wf ∧ fontOfCode 1 = some .medium ∧ ¬ 84 < (79 : Byte).toNat + Font.width .medium ∧
    84 < (80 : Byte).toNat + Font.width .medium ∧ 48 ≤ (40 : Byte).toNat + 8 ∧ ¬ 48 ≤ (39 : Byte).toNat + 8 ∧
    0x20 ≤ ((lineBreak drawn).src.read (0xFFFF : SrcAddr).toNat).toNat ∧
    ((lineBreak drawn).src.read (0xFFFF : SrcAddr).toNat).toNat ≤ 0x7E := by decide +kernel

theorem witness_PrintatRunsCharByChar :
    drawn.fb.wf ∧ fontOfCode 0 = some .small ∧ (254 : Byte).toNat < 255 := by decide

theorem witness_UnsupportedOptionsRejected : (Instr.printc false 3 0 0x2000 0).wellFormed = false := by decide

/-! The device commands and REFRESH, not failing fast: blocking, and non-blocking with nothing in flight. -/

theorem witness_RefreshResult : ¬ drawn.FailsFast ∧ ¬ blankNb.FailsFast := by decide
theorem witness_InitResult : ¬ drawn.FailsFast ∧ ¬ blankNb.FailsFast := by decide
theorem witness_InvertResult : ¬ drawn.FailsFast ∧ ¬ blankNb.FailsFast := by decide
theorem witness_SleepResult : ¬ drawn.FailsFast ∧ ¬ blankNb.FailsFast := by decide
theorem witness_ContrastResult : ¬ drawn.FailsFast ∧ ¬ blankNb.FailsFast := by decide
theorem witness_BiasResult : ¬ drawn.FailsFast ∧ ¬ blankNb.FailsFast := by decide

end Sys2Proof.Tests
end

section
/-! PROOFS. The family of the state (spec/10_state.md): what each command may change, the invariant `State.Legal` along
every step, `BUSY`, and PRINTC's frame. One lemma says what a command can do (`exec_effect`) and one what a step can do
(`step_effect`); each statement is derived from these two. -/

namespace Sys2Proof.Machine

open Config

/-! ## The commands whose equation over the shared operations is missing above -/

section
variable (s : State)

theorem exec_setcur (x y : Byte) : exec (.setcur x y) s =
    .next ((if x.toNat < W ∧ y.toNat < NBANK then s.setCursor x.toNat y.toNat else s).respond .ok 0x00) := rfl

theorem exec_init (contrast bias : Byte) : exec (.init contrast bias) s = .next (s.unlessBusy fun s =>
    let s' := { s with contrast := clampContrast contrast, bias := clampBias bias }
    s'.sendAndRespond .command s'.initSequence) := rfl

theorem exec_contrast (value : Byte) : exec (.contrast value) s = .next (s.unlessBusy fun s =>
    let s' := { s with contrast := clampContrast value }
    s'.sendAndRespond .command [s'.cfg.cmd.ext, s'.vopByte, s'.cfg.cmd.normal]) := rfl

theorem exec_bias (value : Byte) : exec (.bias value) s = .next (s.unlessBusy fun s =>
    let s' := { s with bias := clampBias value }
    s'.sendAndRespond .command [s'.cfg.cmd.ext, s'.biasByte, s'.cfg.cmd.normal]) := rfl

/-- PRINTC with an unsupported font or alignment is REJECTED (R181). -/
theorem exec_printc_unsupported {font align : BitVec 2} (h : ∀ f, fontOfCode font = some f → alignShift f align = none)
    (tinv : Bool) (addr : SrcAddr) (len : Byte) : exec (.printc tinv font align addr len) s = .next s.reject := by
  cases hf : fontOfCode font with
  | none => simp [exec, execPrintc, hf]
  | some f => simp [exec, execPrintc, hf, h f hf]

/-- PRINTAT with an unsupported font is REJECTED (R181). -/
theorem exec_printat_unsupported {font : BitVec 2} (h : fontOfCode font = none) (tinv : Bool) (addr : SrcAddr)
    (len x y : Byte) : exec (.printat tinv font addr len x y) s = .next s.reject := by
  simp [exec, execPrintat, h]

end

/-! ## What a command reads -/

/-- The two states hold the same framebuffer, SRC and parameters; all else, the cursor too, may differ. -/
structure State.SameData (s s' : State) : Prop where
  fb : s'.fb = s.fb
  src : s'.src = s.src
  cfg : s'.cfg = s.cfg

theorem State.SameData.refl (s : State) : s.SameData s := ⟨rfl, rfl, rfl⟩

namespace State.SameData

variable {s s' : State} (h : s.SameData s')
include h

theorem canvas : s'.canvas = s.canvas := by rw [State.canvas, h.fb, State.canvas]

theorem memRead (addr : Nat) : s'.memRead addr = s.memRead addr := by rw [State.memRead, h.src, State.memRead]

theorem srcBit (base w : Nat) : s'.srcBit base w = s.srcBit base w := by
  funext i j
  rw [State.srcBit, h.memRead, State.srcBit]

theorem text (addr len : Nat) : s'.text addr len = s.text addr len := by simp only [State.text, h.memRead]

theorem getpxValue (x y : Nat) : getpxValue x y s' = getpxValue x y s := by
  rw [Machine.getpxValue, State.pixel, h.fb, Machine.getpxValue, State.pixel]

/-- With the cursors equal too, PRINTC starts from the same printer. -/
theorem printer (hx : s'.curX = s.curX) (hy : s'.curY = s.curY) : s'.printer = s.printer := by
  rw [State.printer, h.canvas, hx, hy, State.printer]

end State.SameData

/-! ## What a command can do -/

/-- A text procedure that writes inside the framebuffer only and keeps a cursor in range (R26, R44). -/
def Printer.Safe (p : Printer → Printer) : Prop :=
  ∀ q, q.canvas.mem.wf → Canvas.Written q.canvas (p q).canvas ∧ (q.InRange → (p q).InRange)

/-- A text procedure run at the state's cursor. -/
def State.printWith (s : State) (p : Printer → Printer) : State :=
  ((s.commit (p s.printer).canvas).setCursor (p s.printer).x (p s.printer).y).respond .ok 0x00

theorem Printer.print_safe {fw : Nat} (hfw : fw ≤ W) (glyph : Nat → List Byte) (text : List Byte) :
    Printer.Safe (Printer.print fw glyph text) := fun _ hwf => Printer.print_spec hfw glyph text hwf

theorem State.printText_eq (s : State) (f : Font) (sh : Nat) (inv : Bool) (addr len : Nat) :
    s.printText f sh inv addr len =
      s.printWith (Printer.print f.width (fun g => decodeGlyph s.cfg f g sh inv) (s.text addr len)) := rfl

/-- What a sending command `i` leads to (R56): it fails fast, or its frame is sent after INIT, CONTRAST and BIAS have
written their registers. -/
inductive Transmitted (i : Instr) (s : State) : State → Prop
  | failed (busy : s.FailsFast) : Transmitted i s (s.respond .fail 0x00)
  | sent (idle : ¬ s.FailsFast) (contrast : BitVec 7) (bias : BitVec 3) (kind : FrameKind) (bytes : List Byte)
      (legal : Frame.legal ⟨kind, bytes, s.answer⟩)
      (keepsContrast : mnemonicOf i ≠ "INIT" ∧ mnemonicOf i ≠ "CONTRAST" → contrast = s.contrast)
      (keepsBias : mnemonicOf i ≠ "INIT" ∧ mnemonicOf i ≠ "BIAS" → bias = s.bias) :
      Transmitted i s ({ s with contrast := contrast, bias := bias }.afterSend kind bytes)

/-- What command `i` does from `s`, and alike from every state with the data of `s`: it draws, prints at the cursor,
moves the cursor, only answers, or sends a frame. -/
inductive CommandEffect (i : Instr) (s : State) : Prop
  | draw (p : Canvas → Canvas) (draws : Draws i = true) (writes : Canvas.Writes p)
      (run : ∀ s', s.SameData s' → exec i s' = .next ((s'.draw p).respond .ok 0x00))
  | print (p : Printer → Printer) (draws : Draws i = true) (moves : MovesCursor i = true) (safe : Printer.Safe p)
      (run : ∀ s', s.SameData s' → exec i s' = .next (s'.printWith p))
  | move (x y : Nat) (moves : MovesCursor i = true) (inRange : x ≤ W ∧ y < NBANK)
      (run : ∀ s', exec i s' = .next ((s'.setCursor x y).respond .ok 0x00))
  | answer (st : Status) (v : Byte) (run : ∀ s', s.SameData s' → exec i s' = .next (s'.respond st v))
  | send (sends : Sends i = true) (run : ∀ s', ∃ t, exec i s' = .next t ∧ Transmitted i s' t)

/-- A guarded send that writes no register. -/
theorem State.sendAndRespond_transmitted (i : Instr) (s : State) (kind : FrameKind) (bytes : List Byte)
    (hl : Frame.legal ⟨kind, bytes, s.answer⟩) : Transmitted i s (s.sendAndRespond kind bytes) := by
  by_cases hb : s.FailsFast
  · rw [State.sendAndRespond_of_failsFast hb]
    exact .failed hb
  · rw [State.sendAndRespond_of_not_failsFast hb]
    exact .sent hb s.contrast s.bias kind bytes hl (fun _ => rfl) fun _ => rfl

/-- A command frame sent after the busy test and the write of `CONTRAST` and `BIAS` (R203, R206, R207). -/
theorem State.unlessBusy_transmitted (i : Instr) (s : State) (contrast : BitVec 7) (bias : BitVec 3)
    (bytes : State → List Byte) (hl : ∀ s', bytes s' ≠ [])
    (hc : mnemonicOf i ≠ "INIT" ∧ mnemonicOf i ≠ "CONTRAST" → contrast = s.contrast)
    (hb : mnemonicOf i ≠ "INIT" ∧ mnemonicOf i ≠ "BIAS" → bias = s.bias) :
    Transmitted i s (s.unlessBusy fun s =>
      let s' := { s with contrast := contrast, bias := bias }
      s'.sendAndRespond .command (bytes s')) := by
  by_cases hf : s.FailsFast
  · rw [State.unlessBusy_of_failsFast hf]
    exact .failed hf
  · rw [State.unlessBusy_of_not_failsFast hf]
    dsimp only
    rw [State.sendAndRespond_of_not_failsFast (s := { s with contrast := contrast, bias := bias }) hf]
    exact .sent hf contrast bias .command _ ⟨hl _, nofun⟩ hc hb

theorem State.frameBytes_length (s : State) : s.frameBytes.length = FBSIZE := by simp [State.frameBytes]

/-- The data frame of REFRESH is one `Send` takes (R55, R57). -/
theorem State.frameBytes_legal (s : State) (a : SendResult) : Frame.legal ⟨.data, s.frameBytes, a⟩ := by
  rw [Frame.legal, ← List.length_pos_iff, State.frameBytes_length]
  exact ⟨by decide, fun _ => rfl⟩

theorem setcur_effect (x y : Byte) (s : State) : CommandEffect (.setcur x y) s := by
  by_cases h : x.toNat < W ∧ y.toNat < NBANK
  · exact .move x.toNat y.toNat rfl ⟨h.1.le, h.2⟩ fun s' => by rw [exec_setcur, if_pos h]
  · exact .answer .ok 0x00 fun s' _ => by rw [exec_setcur, if_neg h]

theorem printc_effect (tinv : Bool) (font align : BitVec 2) (addr : SrcAddr) (len : Byte) (s : State) :
    CommandEffect (.printc tinv font align addr len) s := by
  by_cases h : ∃ f sh, fontOfCode font = some f ∧ alignShift f align = some sh
  · obtain ⟨f, sh, hf, hs⟩ := h
    refine .print _ rfl rfl (Printer.print_safe f.width_le (fun g => decodeGlyph s.cfg f g sh tinv)
      (s.text addr.toNat len.toNat)) fun s' hd => ?_
    rw [exec_printc s' hf hs, State.printText_eq, hd.cfg, hd.text]
  · refine .answer .rejected 0x00 fun s' _ => exec_printc_unsupported s' (fun f hf => ?_) tinv addr len
    exact Option.eq_none_iff_forall_ne_some.2 fun sh hs => h ⟨f, sh, hf, hs⟩

theorem printat_effect (tinv : Bool) (font : BitVec 2) (addr : SrcAddr) (len x y : Byte) (s : State) :
    CommandEffect (.printat tinv font addr len x y) s := by
  cases hf : fontOfCode font with
  | none => exact .answer .rejected 0x00 fun s' _ => exec_printat_unsupported s' hf tinv addr len x y
  | some f =>
    refine .draw (fun cv => (Placer.print f.width (fun g => decodeGlyph s.cfg f g 0 tinv)
      (s.text addr.toNat len.toNat) ⟨cv, x.toNat, y.toNat⟩).canvas) rfl
      (fun cv hwf => Placer.print_written _ _ _ (p := ⟨cv, x.toNat, y.toNat⟩) hwf) fun s' hd => ?_
    rw [exec_printat s' hf, State.placeText, hd.cfg, hd.text]
    rfl

/-- What every command can do, from every state. -/
theorem exec_effect (i : Instr) (s : State) : CommandEffect i s := by
  cases i with
  | fill c => exact .draw _ rfl (Canvas.writes_fill c) fun s' _ => exec_fill c s'
  | setpx c x y => exact .draw _ rfl (Canvas.writes_putPixel _ _ c) fun s' _ => exec_setpx c s' x y
  | getpx x y => exact .answer _ _ fun s' hd => by rw [exec_getpx, hd.getpxValue]
  | bspan c dir i n => exact .draw _ rfl (Canvas.writes_bankSpan _ _ _ c) fun s' _ => exec_bspan c s' dir i n
  | refresh =>
    exact .send rfl fun s' => ⟨_, exec_refresh s', s'.sendAndRespond_transmitted _ _ _ (s'.frameBytes_legal _)⟩
  | hline c x y n => exact .draw _ rfl (Canvas.writes_hLine _ _ _ c) fun s' _ => exec_hline c s' x y n
  | vline c x y n => exact .draw _ rfl (Canvas.writes_vLine _ _ _ c) fun s' _ => exec_vline c s' x y n
  | line c x0 y0 x1 y1 => exact .draw _ rfl (Canvas.writes_line _ _ _ _ c) fun s' _ => exec_line c s' x0 y0 x1 y1
  | rect c x0 x1 y0 y1 => exact .draw _ rfl (Canvas.writes_outline _ _ _ _ c) fun s' _ => exec_rect c s' x0 x1 y0 y1
  | frect c x0 x1 y0 y1 => exact .draw _ rfl (Canvas.writes_block _ _ _ _ c) fun s' _ => exec_frect c s' x0 x1 y0 y1
  | tri c x0 y0 x1 y1 x2 y2 =>
    exact .draw _ rfl (Canvas.writes_triangle _ _ _ _ _ _ c) fun s' _ => exec_tri c s' x0 y0 x1 y1 x2 y2
  | ftri c x0 y0 x1 y1 x2 y2 =>
    exact .draw _ rfl (Canvas.writes_fillTriangle _ _ _ c) fun s' _ => exec_ftri c s' x0 y0 x1 y1 x2 y2
  | circle c xc yc r => exact .draw _ rfl (Canvas.writes_circleWalk _ _ _ _ c) fun s' _ => exec_circle c s' xc yc r
  | pcircle c xc yc r q =>
    exact .draw _ rfl (Canvas.writes_circleWalk _ _ _ q c) fun s' _ => exec_pcircle c s' xc yc r q
  | blit addr x0 y0 w h =>
    exact .draw _ rfl (Canvas.writes_blitPixels _ _ _ _) fun s' hd => by rw [exec_blit, hd.srcBit]
  | blitf addr x0 y0 w h =>
    exact .draw _ rfl (Canvas.writes_blitAligned _ _ _ _ _) fun s' hd => by
      rw [exec_blitf, funext₂ fun _ _ => hd.memRead _]
  | setcur x y => exact setcur_effect x y s
  | printc tinv font align addr len => exact printc_effect tinv font align addr len s
  | printat tinv font addr len x y => exact printat_effect tinv font addr len x y s
  | init contrast bias =>
    exact .send rfl fun s' => ⟨_, exec_init s' contrast bias,
      s'.unlessBusy_transmitted _ _ _ State.initSequence (fun _ => List.cons_ne_nil _ _) (by simp [mnemonicOf])
        (by simp [mnemonicOf])⟩
  | invert v =>
    exact .send rfl fun s' => ⟨_, exec_invert v s', s'.sendAndRespond_transmitted _ _ _ ⟨List.cons_ne_nil _ _, nofun⟩⟩
  | sleep v =>
    refine .send rfl fun s' => ⟨_, exec_sleep v s', s'.sendAndRespond_transmitted _ _ _ ⟨?_, nofun⟩⟩
    cases v <;> exact List.cons_ne_nil _ _
  | contrast value =>
    exact .send rfl fun s' => ⟨_, exec_contrast s' value,
      s'.unlessBusy_transmitted _ _ s'.bias (fun s' => [s'.cfg.cmd.ext, s'.vopByte, s'.cfg.cmd.normal])
        (fun _ => List.cons_ne_nil _ _) (by simp [mnemonicOf]) fun _ => rfl⟩
  | bias value =>
    exact .send rfl fun s' => ⟨_, exec_bias s' value,
      s'.unlessBusy_transmitted _ s'.contrast _ (fun s' => [s'.cfg.cmd.ext, s'.biasByte, s'.cfg.cmd.normal])
        (fun _ => List.cons_ne_nil _ _) (fun _ => rfl) (by simp [mnemonicOf])⟩

/-- A command has one outcome. -/
theorem exec_next_unique {i : Instr} {s t u : State} (h : exec i s = .next t) (hu : exec i s = .next u) : t = u :=
  Host.Outcome.next.inj (h.symm.trans hu)

/-! ## What a step can do -/

/-- What the first input makes of the state (R9, R251). -/
inductive StepEffect (s : State) : State → Prop
  | idle (input : s.inputs.head? = none) : StepEffect s s
  | command (w : CommandWord) (i : Instr) (t : State) (input : s.inputs.head? = some (.command w))
      (decoded : decode w = .ok i) (run : exec i s.takeInput = .next t) : StepEffect s t
  | undefined (w : CommandWord) (input : s.inputs.head? = some (.command w)) : StepEffect s s.takeInput.reject
  | srcWrite (addr : SrcAddr) (v : Byte) (input : s.inputs.head? = some (.srcWrite addr v)) :
      StepEffect s (s.takeInput.srcWrite addr v)
  | completion (input : s.inputs.head? = some .completion) : StepEffect s s.takeInput.completeTransfer
  | reset (d : ResetDraw) (input : s.inputs.head? = some (.reset d)) : StepEffect s (s.takeInput.hardwareReset d)

theorem step_effect {s t : State} (h : step s = .next t) : StepEffect s t := by
  unfold step at h
  split at h
  next hin => cases h; exact .idle (by simp [hin])
  next w _ hin =>
    split at h
    next i hd => exact .command w i t (by simp [hin]) hd h
    next => cases h; exact .undefined w (by simp [hin])
  next addr v _ hin => cases h; exact .srcWrite addr v (by simp [hin])
  next _ hin => cases h; exact .completion (by simp [hin])
  next d _ hin => cases h; exact .reset d (by simp [hin])

/-! ## Each operation keeps a state legal -/

/-- A cursor in range fits `CUR_X` and `CUR_Y` (R21, R22, R26). -/
theorem cursor_inRange_ofNat {x y : Nat} (hx : x ≤ W) (hy : y < NBANK) :
    (BitVec.ofNat 7 x).toNat ≤ W ∧ (BitVec.ofNat 3 y).toNat < NBANK := by
  simp only [BitVec.toNat_ofNat, W, NBANK] at *
  omega

section
variable {s : State} (h : s.Legal)
include h

theorem State.Legal.respond (st : Status) (v : Byte) : (s.respond st v).Legal := h

theorem State.Legal.takeInput : s.takeInput.Legal := h

theorem State.Legal.setCursor {x y : Nat} (hx : x ≤ W) (hy : y < NBANK) : (s.setCursor x y).Legal := by
  obtain ⟨hfb, hsrc, -, hrest⟩ := h
  exact ⟨hfb, hsrc, cursor_inRange_ofNat hx hy, hrest⟩

/-- A drawing that writes inside the framebuffer only (R44) leaves every frame's kind and length as it was (R243). -/
theorem State.Legal.commit {cv : Canvas} (hw : Canvas.Written s.canvas cv) : (s.commit cv).Legal := by
  obtain ⟨⟨-, hbelow⟩, hsrc, hcur, hbusy, hflight, hne, hframes⟩ := h
  obtain ⟨-, hlen, hkept⟩ := s.commit_transmit cv
  refine ⟨⟨hw.wf, hw.below hbelow⟩, hsrc, hcur, hbusy, by rw [hlen]; exact hflight, fun hb => ?_, fun g hg => ?_⟩
  · exact List.ne_nil_of_length_pos (hlen ▸ List.length_pos_iff.2 (hne hb))
  · obtain ⟨k, hk⟩ := List.mem_iff_getElem?.1 hg
    have hks : k < s.tx.length := hlen ▸ (List.getElem?_eq_some_iff.1 hk).1
    obtain ⟨g', hg', hkind, -, hbytes, -⟩ := hkept k s.tx[k] (List.getElem?_eq_getElem hks)
    obtain rfl : g = g' := Option.some.inj (hk.symm.trans hg')
    obtain ⟨hnil, hdata⟩ := hframes _ (List.getElem_mem hks)
    rw [Frame.legal, ← List.length_pos_iff, hbytes, hkind]
    exact ⟨List.length_pos_iff.2 hnil, hdata⟩

theorem State.Legal.draw {p : Canvas → Canvas} (hp : Canvas.Writes p) : (s.draw p).Legal :=
  h.commit (hp s.canvas h.1.1)

theorem State.Legal.printWith {p : Printer → Printer} (hp : Printer.Safe p) : (s.printWith p).Legal := by
  obtain ⟨hw, hr⟩ := hp s.printer h.1.1
  obtain ⟨hx, hy⟩ := hr h.2.2.1
  exact ((h.commit hw).setCursor hx hy).respond _ _

/-- A sent frame is the latest entry of `TX`; in a legal state that does not fail fast `BUSY` is 0, so the marker is on
it exactly when `BUSY` is set (R24, R29, R56). -/
theorem State.Legal.afterSend (idle : ¬ s.FailsFast) {kind : FrameKind} {bytes : List Byte}
    (hf : Frame.legal ⟨kind, bytes, s.answer⟩) : (s.afterSend kind bytes).Legal := by
  obtain ⟨hfb, hsrc, hcur, hbusy, hflight, -, hframes⟩ := h
  have hb : s.busy = false := Bool.eq_false_iff.2 fun hb => idle ⟨hbusy hb, hb⟩
  refine ⟨hfb, hsrc, hcur, ?_, ?_, ?_, ?_⟩
  · simp [State.afterSend, hb]
  · simp [State.afterSend, hb, hflight]
  · simp [State.afterSend]
  · intro f hm
    rcases List.mem_append.1 hm with hm | hm
    · exact hframes f hm
    · exact List.mem_singleton.1 hm ▸ hf

theorem State.Legal.of_transmitted {i : Instr} {t : State} (ht : Transmitted i s t) : t.Legal := by
  cases ht with
  | failed _ => exact h.respond _ _
  | sent idle contrast bias kind bytes legal _ _ =>
    exact State.Legal.afterSend (s := { s with contrast := contrast, bias := bias }) h idle legal

/-- HOST's write stays inside SRC: an address has 16 bits (R40, R48). -/
theorem State.Legal.srcWrite (addr : SrcAddr) (v : Byte) : (s.srcWrite addr v).Legal := by
  obtain ⟨hfb, ⟨hwf, hbelow⟩, hrest⟩ := h
  exact ⟨hfb, ⟨Memory.wf_write hwf _ v, Memory.below_write hbelow addr.isLt v⟩, hrest⟩

theorem State.Legal.completeTransfer : s.completeTransfer.Legal := by
  by_cases hf : s.FailsFast
  · obtain ⟨hfb, hsrc, hcur, -, -, -, hframes⟩ := h
    rw [State.completeTransfer_of_failsFast hf]
    exact ⟨hfb, hsrc, hcur, nofun, rfl, nofun, hframes⟩
  · rwa [State.completeTransfer_of_not_failsFast hf]

theorem State.Legal.hardwareReset (d : ResetDraw) : (s.hardwareReset d).Legal := by
  obtain ⟨-, hsrc, -⟩ := h
  have hload : 0 + (d.fb.take FBSIZE).length ≤ FBSIZE := by simp
  exact ⟨⟨Memory.wf_load Memory.wf_nil _ _, Memory.below_load (by simp) _ _ hload⟩, hsrc, by simp, by simp, rfl,
    by simp, by simp⟩

end

/-- Every command leads from a legal state to a legal state. -/
theorem exec_keeps_legal {i : Instr} {s t : State} (h : s.Legal) (ht : exec i s = .next t) : t.Legal := by
  cases exec_effect i s with
  | draw p _ writes run =>
    rw [exec_next_unique ht (run s (.refl s))]
    exact (h.draw writes).respond _ _
  | print p _ _ safe run =>
    rw [exec_next_unique ht (run s (.refl s))]
    exact h.printWith safe
  | move x y _ inRange run =>
    rw [exec_next_unique ht (run s)]
    exact (h.setCursor inRange.1 inRange.2).respond _ _
  | answer st v run =>
    rw [exec_next_unique ht (run s (.refl s))]
    exact h.respond st v
  | send _ run =>
    obtain ⟨u, hu, htr⟩ := run s
    rw [exec_next_unique ht hu]
    exact h.of_transmitted htr

/-- Settles O12, by the operations' lemmas above. -/
theorem stepKeepsLegal : Obligations.StepKeepsLegal := by
  intro s t h ht
  cases step_effect ht with
  | idle _ => exact h
  | command w i _ _ _ run => exact exec_keeps_legal h.takeInput run
  | undefined w _ => exact h.takeInput.respond _ _
  | srcWrite addr v _ => exact h.takeInput.srcWrite addr v
  | completion _ => exact h.takeInput.completeTransfer
  | reset d _ => exact h.takeInput.hardwareReset d

/-! ## What a command leaves unchanged -/

/-- A sending command changes `BUSY`, the marker, `TX` and, for INIT, CONTRAST and BIAS, their registers; never the
framebuffer, the cursor, SRC, the parameters or the inputs. -/
theorem Transmitted.frame {i : Instr} {s t : State} (h : Transmitted i s t) :
    (t.fb = s.fb ∧ t.curX = s.curX ∧ t.curY = s.curY) ∧ (t.src = s.src ∧ t.cfg = s.cfg ∧ t.inputs = s.inputs) ∧
    (mnemonicOf i ≠ "INIT" ∧ mnemonicOf i ≠ "CONTRAST" → t.contrast = s.contrast) ∧
    (mnemonicOf i ≠ "INIT" ∧ mnemonicOf i ≠ "BIAS" → t.bias = s.bias) := by
  cases h with
  | failed _ => exact ⟨⟨rfl, rfl, rfl⟩, ⟨rfl, rfl, rfl⟩, fun _ => rfl, fun _ => rfl⟩
  | sent _ _ _ _ _ _ keepsContrast keepsBias => exact ⟨⟨rfl, rfl, rfl⟩, ⟨rfl, rfl, rfl⟩, keepsContrast, keepsBias⟩

/-- A sending command never clears `BUSY`, and sets it only in the non-blocking configuration (R24, R56). -/
theorem Transmitted.busy {i : Instr} {s t : State} (h : Transmitted i s t) :
    (s.busy = true → t.busy = true) ∧ (s.busy = false → t.busy = true → s.cfg.nonBlocking = true) := by
  cases h with
  | failed _ => exact ⟨id, fun h0 h1 => by simp [h0] at h1⟩
  | sent _ _ _ _ _ _ _ _ => cases hn : s.cfg.nonBlocking <;> simp +contextual [State.afterSend, hn]

/-- The number of entries of `TX` is what it was after a drawing (R243). -/
theorem State.commit_tx_length (s : State) (cv : Canvas) : (s.commit cv).tx.length = s.tx.length :=
  (s.commit_transmit cv).2.1

/-- Settles O16, by the five kinds of command. -/
theorem commandsChangeOnlyTheirState : Obligations.CommandsChangeOnlyTheirState := by
  intro i s t ht
  cases exec_effect i s with
  | draw p draws _ run =>
    obtain rfl := exec_next_unique ht (run s (.refl s))
    exact ⟨rfl, rfl, rfl, by simp [draws], fun _ => ⟨rfl, rfl⟩, fun _ => ⟨rfl, rfl, rfl, s.commit_tx_length _⟩,
      fun _ => rfl, fun _ => rfl⟩
  | print p draws moves _ run =>
    obtain rfl := exec_next_unique ht (run s (.refl s))
    exact ⟨rfl, rfl, rfl, by simp [draws], by simp [moves], fun _ => ⟨rfl, rfl, rfl, s.commit_tx_length _⟩,
      fun _ => rfl, fun _ => rfl⟩
  | move x y moves _ run =>
    obtain rfl := exec_next_unique ht (run s)
    exact ⟨rfl, rfl, rfl, fun _ => rfl, by simp [moves], fun _ => ⟨rfl, rfl, rfl, rfl⟩, fun _ => rfl, fun _ => rfl⟩
  | answer st v run =>
    obtain rfl := exec_next_unique ht (run s (.refl s))
    exact ⟨rfl, rfl, rfl, fun _ => rfl, fun _ => ⟨rfl, rfl⟩, fun _ => ⟨rfl, rfl, rfl, rfl⟩, fun _ => rfl, fun _ => rfl⟩
  | send sends run =>
    obtain ⟨u, hu, htr⟩ := run s
    obtain rfl := exec_next_unique ht hu
    obtain ⟨⟨hfb, hx, hy⟩, ⟨hsrc, hcfg, hin⟩, hcontrast, hbias⟩ := htr.frame
    exact ⟨hsrc, hcfg, hin, fun _ => hfb, fun _ => ⟨hx, hy⟩, by simp [sends], hcontrast, hbias⟩

/-- `BUSY` changes only where a sending command transmits (R24). -/
theorem exec_busy_or_transmitted {i : Instr} {s t : State} (ht : exec i s = .next t) :
    t.busy = s.busy ∨ (Sends i = true ∧ Transmitted i s t) := by
  cases exec_effect i s with
  | draw p _ _ run => exact .inl (exec_next_unique ht (run s (.refl s)) ▸ rfl)
  | print p _ _ _ run => exact .inl (exec_next_unique ht (run s (.refl s)) ▸ rfl)
  | move x y _ _ run => exact .inl (exec_next_unique ht (run s) ▸ rfl)
  | answer st v run => exact .inl (exec_next_unique ht (run s (.refl s)) ▸ rfl)
  | send sends run =>
    obtain ⟨u, hu, htr⟩ := run s
    exact .inr ⟨sends, exec_next_unique ht hu ▸ htr⟩

/-- A completion notification never sets `BUSY` (R226). -/
theorem State.completeTransfer_busy {s : State} (h : s.completeTransfer.busy = true) : s.busy = true := by
  by_cases hf : s.FailsFast
  · exact hf.2
  · rwa [State.completeTransfer_of_not_failsFast hf] at h

/-- Settles O17: of a step's events only a command can set `BUSY`, and no command clears it. -/
theorem busyChangesOnlyByItsEvents : Obligations.BusyChangesOnlyByItsEvents := by
  intro s t ht
  have unchanged {p q : Prop} : (s.busy = true → s.busy = false → p) ∧ (s.busy = false → s.busy = true → q) :=
    ⟨fun h1 h0 => by simp [h1] at h0, fun h0 h1 => by simp [h0] at h1⟩
  cases step_effect ht with
  | idle _ => exact unchanged
  | command w i _ input decoded run =>
    rcases exec_busy_or_transmitted run with hbusy | ⟨hsends, htr⟩
    · rw [hbusy]
      exact unchanged
    · refine ⟨fun h1 h0 => ?_, fun h0 h1 => ⟨htr.busy.2 h0 h1, w, i, input, decoded, hsends⟩⟩
      simp [htr.busy.1 h1] at h0
  | undefined w _ => exact unchanged
  | srcWrite addr v _ => exact unchanged
  | completion input =>
    exact ⟨fun _ _ => .inl input, fun h0 h1 => absurd (State.completeTransfer_busy h1) (by simp [h0])⟩
  | reset d input => exact ⟨fun _ _ => .inr ⟨d, input⟩, nofun⟩

/-- Settles O19: each kind of command runs alike from both states, and a sending one touches neither. -/
theorem drawingIgnoresTheTransport : Obligations.DrawingIgnoresTheTransport := by
  intro i s s' t hfb hx hy hsrc hcfg ht
  have hd : s.SameData s' := ⟨hfb.symm, hsrc.symm, hcfg.symm⟩
  cases exec_effect i s with
  | draw p _ _ run =>
    obtain rfl := exec_next_unique ht (run s (.refl s))
    exact ⟨_, run s' hd, by simp [hd.canvas], hx.symm, hy.symm, fun _ => by simp⟩
  | print p _ _ _ run =>
    obtain rfl := exec_next_unique ht (run s (.refl s))
    have hp := hd.printer hx.symm hy.symm
    exact ⟨_, run s' hd, by simp [State.printWith, hp], by simp [State.printWith, hp], by simp [State.printWith, hp],
      fun _ => by simp [State.printWith]⟩
  | move x y _ _ run =>
    obtain rfl := exec_next_unique ht (run s)
    exact ⟨_, run s', hfb.symm, rfl, rfl, fun _ => by simp⟩
  | answer st v run =>
    obtain rfl := exec_next_unique ht (run s (.refl s))
    exact ⟨_, run s' hd, hfb.symm, hx.symm, hy.symm, fun _ => by simp⟩
  | send sends run =>
    obtain ⟨u, hu, htr⟩ := run s
    obtain rfl := exec_next_unique ht hu
    obtain ⟨u', hu', htr'⟩ := run s'
    obtain ⟨⟨hfb₁, hx₁, hy₁⟩, -⟩ := htr.frame
    obtain ⟨⟨hfb₂, hx₂, hy₂⟩, -⟩ := htr'.frame
    exact ⟨u', hu', by rw [hfb₁, hfb₂, hfb], by rw [hx₁, hx₂, hx], by rw [hy₁, hy₂, hy], by simp [sends]⟩

/-! ## PRINTC -/

/-- The options of a well-formed PRINTC name a font and a shift (R83, R174). -/
theorem options_of_wellFormed {tinv : Bool} {font align : BitVec 2} {addr : SrcAddr} {len : Byte}
    (h : (Instr.printc tinv font align addr len).wellFormed = true) :
    ∃ f sh, fontOfCode font = some f ∧ alignShift f align = some sh := by
  obtain ⟨hfont, halign⟩ := (Bool.and_eq_true _ _).mp h
  obtain ⟨f, hf⟩ := Option.isSome_iff_exists.1 (fontOfCode_isSome font ▸ hfont)
  obtain ⟨sh, hs⟩ := Option.isSome_iff_exists.1 (alignShift_isSome hf align ▸ halign)
  exact ⟨f, sh, hf, hs⟩

/-- Settles O46, by `Printer.print_safe`: the text is written inside the framebuffer from any cursor. -/
theorem printcCompletes : Obligations.PrintcCompletes := by
  intro tinv font align addr len s hwf hopt
  obtain ⟨f, sh, hf, hs⟩ := options_of_wellFormed hopt
  obtain ⟨hw, hr⟩ := Printer.print_safe f.width_le (fun g => decodeGlyph s.cfg f g sh tinv)
    (s.text addr.toNat len.toNat) s.printer hwf
  refine ⟨_, exec_printc s hf hs tinv addr len, rfl, fun hcur => ?_, hw.frame⟩
  obtain ⟨hx, hy⟩ := hr hcur
  exact cursor_inRange_ofNat hx hy

/-! ## Reset -/

/-- Settles O10, by the definition of the state after reset (R31). -/
theorem resetValues : Obligations.ResetValues := ⟨rfl, rfl, rfl, rfl, rfl⟩

/-- Settles O11: both memories and `TX` are empty, the cursor is (0, 0), `BUSY` is 0. -/
theorem resetStateIsLegal : Obligations.ResetStateIsLegal :=
  ⟨⟨Memory.wf_nil, nofun⟩, ⟨Memory.wf_nil, nofun⟩, ⟨by decide, by decide⟩, nofun, rfl, nofun, nofun⟩

end Sys2Proof.Machine
end

section
/-! PROOFS. The family of the memories (spec/20_memory.md): HOST's write of SRC, the layout of the framebuffer, and
the data frame of REFRESH. -/

namespace Sys2Proof.Machine

/-! ## SRC -/

theorem State.takeInput_of_inputs {s : State} {input : Input} {rest : List Input} (h : s.inputs = input :: rest) :
    s.takeInput = { s with inputs := rest } := by
  rw [State.takeInput, h, List.tail_cons]

theorem step_of_srcWrite {s : State} {addr : SrcAddr} {v : Byte} {rest : List Input}
    (h : s.inputs = .srcWrite addr v :: rest) :
    step s = .next (State.srcWrite { s with inputs := rest } addr v) := by
  rw [← State.takeInput_of_inputs h, step, h]

theorem step_of_no_input {s : State} (h : s.inputs = []) : step s = .next s := by
  rw [step, h]

/-- Settles O9: the step is `State.srcWrite` once the input is taken, and SRC reads as after one `Memory.write`. -/
theorem sourceWriteAndIdleStep : Obligations.SourceWriteAndIdleStep := by
  intro s
  refine ⟨fun addr v rest hwf hin => ?_, step_of_no_input⟩
  exact ⟨_, step_of_srcWrite hin, rfl, fun a => Memory.read_write hwf addr.toNat a v⟩

/-! ## The layout of the framebuffer -/

/-- Two screen pixels in the same bit of the same byte are one pixel (R41). -/
theorem pixel_eq_of_same_bit {x y x' y' : Nat} (h : OnScreen x y) (h' : OnScreen x' y')
    (hindex : pixelIndex x y = pixelIndex x' y') (hbit : y % 8 = y' % 8) : (x, y) = (x', y') := by
  obtain ⟨hx, hbank⟩ := (pixelIndex_inj h h').1 hindex
  have hy : y = y' := by omega
  rw [hx, hy]

/-- Settles O21: `pixelIndex_surj` names the pixel of the bit, and no other pixel has this byte and this bit. -/
theorem everyFramebufferBitIsOnePixel : Obligations.EveryFramebufferBitIsOnePixel := by
  intro i b hi hb
  obtain ⟨hon, hindex, hbit⟩ := pixelIndex_surj hi b hb
  refine ⟨(i % 84, i / 84 * 8 + b), ⟨hon, hindex, hbit⟩, ?_⟩
  rintro ⟨x, y⟩ ⟨hon', hindex', hbit'⟩
  exact pixel_eq_of_same_bit hon' hon (hindex'.trans hindex.symm) (hbit'.trans hbit.symm)

/-! ## REFRESH -/

/-- Settles O26: REFRESH is one guarded send of the framebuffer's bytes, and it does not fail fast (R56, R57). -/
theorem refreshResult : Obligations.RefreshResult := by
  intro s idle
  rw [exec_refresh, State.sendAndRespond_of_not_failsFast idle]
  rfl

end Sys2Proof.Machine
end

section
/-! PROOFS. The family of the encoding (spec/30_encoding.md R70 to R81): decoding and encoding are inverse to each other,
and decoding follows the table. `decode_eq_ok_iff` says once when a word decodes, `decode_of_reserved` when it cannot;
the statements are derived from these two. -/

namespace Sys2Proof

open Machine

/-! ## A word as its eight bytes -/

/-- The `MOD` byte, bits 55:48 (R71). -/
def modByte (w : CommandWord) : Byte := w.extractLsb' 48 8

@[simp] theorem modByte_packWord (op md a b c d e f : Byte) : modByte (packWord op md a b c d e f) = md :=
  mod_packWord op md a b c d e f

@[simp] theorem opAB_packWord (op md a b c d e f : Byte) : opAB (packWord op md a b c d e f) = a ++ b := by
  rw [opAB, opA_packWord, opB_packWord]

/-- Every word is packed from its eight bytes (R71). -/
theorem packWord_bytes (w : CommandWord) :
    packWord (opcode w) (modByte w) (opA w) (opB w) (opC w) (opD w) (opE w) (opF w) = w := by
  apply BitVec.eq_of_toNat_eq
  simp only [append_toNat_bytes, opcode, modByte, opA, opB, opC, opD, opE, opF, BitVec.extractLsb'_toNat,
    Nat.shiftRight_eq_div_pow]
  have := w.isLt
  omega

/-- The match test reads a word byte by byte (R77). -/
theorem bytes_of_match {w mask pattern : CommandWord} (h : w &&& mask = pattern) :
    opcode w &&& opcode mask = opcode pattern ∧ modByte w &&& modByte mask = modByte pattern ∧
    opA w &&& opA mask = opA pattern ∧ opB w &&& opB mask = opB pattern ∧ opC w &&& opC mask = opC pattern ∧
    opD w &&& opD mask = opD pattern ∧ opE w &&& opE mask = opE pattern ∧ opF w &&& opF mask = opF pattern := by
  subst h
  simp only [opcode, modByte, opA, opB, opC, opD, opE, opF, BitVec.extractLsb'_and, and_self]

/-! ## The fields of a byte -/

section
variable (align font : BitVec 2) (tinv dir v : Bool)

@[simp] theorem packMod_v : (packMod align font tinv dir v)[0] = v := (packMod_fields align font tinv dir v).1

@[simp] theorem packMod_dir : (packMod align font tinv dir v)[1] = dir := (packMod_fields align font tinv dir v).2.1

@[simp] theorem packMod_tinv : (packMod align font tinv dir v)[2] = tinv := (packMod_fields align font tinv dir v).2.2.1

@[simp] theorem packMod_font : (packMod align font tinv dir v).extractLsb' 3 2 = font :=
  (packMod_fields align font tinv dir v).2.2.2.1

@[simp] theorem packMod_align : (packMod align font tinv dir v).extractLsb' 5 2 = align :=
  (packMod_fields align font tinv dir v).2.2.2.2

@[simp] theorem modV_v : (modV v)[0] = v := packMod_v 0 0 false false v

end

@[simp] theorem spanDir_of_toBit (dir : SpanDir) : (if dir.toBit then SpanDir.fromHigh else .fromLow) = dir := by
  cases dir <;> rfl

@[simp] theorem toBit_of_bit (b : Bool) : SpanDir.toBit (if b then .fromHigh else .fromLow) = b := by
  cases b <;> rfl

@[simp] theorem corners_of_append (q : BitVec 4) : (0#4 ++ q).extractLsb' 0 4 = q := by
  revert q
  decide

/-- The number of a 16-bit field (R74). -/
theorem append_bytes_toNat (a b : Byte) : (a ++ b).toNat = a.toNat * 2 ^ 8 + b.toNat := by
  rw [BitVec.toNat_append, ← Nat.shiftLeft_add_eq_or_of_lt b.isLt, Nat.shiftLeft_eq]

@[simp] theorem highByte_append (a b : Byte) : highByte (a ++ b) = a := by
  apply BitVec.eq_of_toNat_eq
  rw [highByte, BitVec.extractLsb'_toNat, append_bytes_toNat, Nat.shiftRight_eq_div_pow]
  omega

@[simp] theorem lowByte_append (a b : Byte) : lowByte (a ++ b) = b := by
  apply BitVec.eq_of_toNat_eq
  rw [lowByte, BitVec.extractLsb'_toNat, append_bytes_toNat, Nat.shiftRight_zero]
  omega

/-! A `MOD` or `D` byte whose unused bits are 0 is packed from the fields its command reads (R73, R75). -/

theorem modV_of_unused {md : Byte} (h : md &&& 0xFE#8 = 0#8) : modV md[0] = md := by
  revert md
  decide

theorem modBspan_of_unused {md : Byte} (h : md &&& 0xFC#8 = 0#8) : packMod 0#2 0#2 false md[1] md[0] = md := by
  revert md
  decide

theorem modPrintc_of_unused {md : Byte} (h : md &&& 0x83#8 = 0#8) :
    packMod (md.extractLsb' 5 2) (md.extractLsb' 3 2) md[2] false false = md := by
  revert md
  decide

theorem modPrintat_of_unused {md : Byte} (h : md &&& 0xE3#8 = 0#8) :
    packMod 0#2 (md.extractLsb' 3 2) md[2] false false = md := by
  revert md
  decide

theorem corners_of_unused {d : Byte} (h : d &&& 0xF0#8 = 0#8) : 0#4 ++ d.extractLsb' 0 4 = d := by
  revert d
  decide

/-- A mask byte of ones keeps the whole byte. -/
theorem and_onesByte (b : Byte) : b &&& 0xFF#8 = b := BitVec.and_allOnes

/-! ## The rows of the table -/

theorem opcode_mask {r : OpcodeRow} (hr : r ∈ opcodeTable) : opcode r.mask = 0xFF#8 := by
  revert r
  decide

/-- A word that matches a row carries the row's opcode: every mask holds all of `OP` (R75). -/
theorem opcode_of_match {w : CommandWord} {r : OpcodeRow} (hr : r ∈ opcodeTable) (h : w &&& r.mask = r.pattern) :
    opcode w = opcode r.pattern := by
  have hop := (bytes_of_match h).1
  rwa [opcode_mask hr, and_onesByte] at hop

/-- No two rows share an opcode (R75). -/
theorem row_eq_of_opcode_eq {r r' : OpcodeRow} (hr : r ∈ opcodeTable) (hr' : r' ∈ opcodeTable)
    (h : opcode r.pattern = opcode r'.pattern) : r = r' := by
  have hnodup : (opcodeTable.map fun r => opcode r.pattern).Nodup := by decide
  exact List.inj_on_of_nodup_map hnodup hr hr' h

/-- No two rows share a mnemonic (R75). -/
theorem row_eq_of_mnemonic_eq {r r' : OpcodeRow} (hr : r ∈ opcodeTable) (hr' : r' ∈ opcodeTable)
    (h : r.mnemonic = r'.mnemonic) : r = r' := by
  have hnodup : (opcodeTable.map OpcodeRow.mnemonic).Nodup := by decide
  exact List.inj_on_of_nodup_map hnodup hr hr' h

/-- Each row of the table with the command it reads from a word (R71 to R75). -/
def readRows : List (OpcodeRow × (CommandWord → Instr)) :=
  opcodeTable.zip
    [ fun w => .fill (vBit w),
      fun w => .setpx (vBit w) (opA w) (opB w),
      fun w => .getpx (opA w) (opB w),
      fun w => .bspan (vBit w) (dirBit w) (opAB w) (opC w),
      fun _ => .refresh,
      fun w => .hline (vBit w) (opA w) (opB w) (opC w),
      fun w => .vline (vBit w) (opA w) (opB w) (opC w),
      fun w => .line (vBit w) (opA w) (opB w) (opC w) (opD w),
      fun w => .rect (vBit w) (opA w) (opB w) (opC w) (opD w),
      fun w => .frect (vBit w) (opA w) (opB w) (opC w) (opD w),
      fun w => .tri (vBit w) (opA w) (opB w) (opC w) (opD w) (opE w) (opF w),
      fun w => .ftri (vBit w) (opA w) (opB w) (opC w) (opD w) (opE w) (opF w),
      fun w => .circle (vBit w) (opA w) (opB w) (opC w),
      fun w => .pcircle (vBit w) (opA w) (opB w) (opC w) (cornerBits w),
      fun w => .blit (opAB w) (opC w) (opD w) (opE w) (opF w),
      fun w => .blitf (opAB w) (opC w) (opD w) (opE w) (opF w),
      fun w => .setcur (opA w) (opB w),
      fun w => .printc (tinvBit w) (fontBits w) (alignBits w) (opAB w) (opC w),
      fun w => .printat (tinvBit w) (fontBits w) (opAB w) (opC w) (opD w) (opE w),
      fun w => .init (opA w) (opB w),
      fun w => .invert (vBit w),
      fun w => .sleep (vBit w),
      fun w => .contrast (opA w),
      fun w => .bias (opA w) ]

theorem readRows_map_fst : readRows.map Prod.fst = opcodeTable := rfl

theorem mem_table_of_mem_readRows {p : OpcodeRow × (CommandWord → Instr)} (hp : p ∈ readRows) : p.1 ∈ opcodeTable :=
  readRows_map_fst ▸ List.mem_map_of_mem hp

theorem exists_mem_readRows {r : OpcodeRow} (hr : r ∈ opcodeTable) : ∃ p ∈ readRows, p.1 = r :=
  List.mem_map.1 (readRows_map_fst.symm ▸ hr)

/-- A row reads a command of its own mnemonic (R75). -/
theorem mnemonicOf_read (w : CommandWord) : ∀ p ∈ readRows, mnemonicOf (p.2 w) = p.1.mnemonic := by
  simp [readRows, opcodeTable, mnemonicOf]

/-! ## When a word decodes -/

/-- The opcode names the row whose mask decides (R77). -/
theorem decode_of_opcode (w : CommandWord) : ∀ p ∈ readRows, opcode w = opcode p.1.pattern →
    decode w = accept w p.1.mnemonic p.1.pattern p.1.mask (p.2 w) := by
  simp only [readRows, opcodeTable, List.zip_cons_cons, List.zip_nil_right, List.forall_mem_cons, List.not_mem_nil,
    false_implies, implies_true, and_true]
  and_intros <;>
  · intro h
    rw [decode, h]
    rfl

/-- The opcodes of the table (R75). -/
theorem opcodes_of_table : opcodeTable.map (fun r => (opcode r.pattern).toNat) =
    [0x01, 0x02, 0x03, 0x04, 0x05, 0x10, 0x11, 0x12, 0x13, 0x14, 0x15, 0x16, 0x17, 0x18, 0x20, 0x21, 0x30, 0x31, 0x32,
      0x40, 0x41, 0x42, 0x43, 0x44] := by
  decide

/-- An opcode of no row is reserved (R78). -/
theorem decode_of_reserved {w : CommandWord} (h : ∀ r ∈ opcodeTable, opcode w ≠ opcode r.pattern) :
    decode w = .error (.reservedOpcode (opcode w)) := by
  have hop : (opcode w).toNat ∉ opcodeTable.map fun r => (opcode r.pattern).toNat := by
    rw [List.mem_map]
    rintro ⟨r, hr, he⟩
    exact h r hr (BitVec.eq_of_toNat_eq he.symm)
  rw [opcodes_of_table] at hop
  unfold decode
  split <;> simp_all only [List.mem_cons, true_or, or_true, not_true_eq_false]

/-- A word decodes to a command exactly when it matches a row that reads the command from it (R77). -/
theorem decode_eq_ok_iff {w : CommandWord} {i : Instr} :
    decode w = .ok i ↔ ∃ p ∈ readRows, w &&& p.1.mask = p.1.pattern ∧ p.2 w = i := by
  constructor
  · intro h
    by_cases hop : ∃ r ∈ opcodeTable, opcode w = opcode r.pattern
    · obtain ⟨r, hr, hop⟩ := hop
      obtain ⟨p, hp, rfl⟩ := exists_mem_readRows hr
      exact ⟨p, hp, accept_eq_ok.1 (decode_of_opcode w p hp hop ▸ h)⟩
    · rw [decode_of_reserved fun r hr he => hop ⟨r, hr, he⟩] at h
      cases h
  · rintro ⟨p, hp, hmatch⟩
    rw [decode_of_opcode w p hp (opcode_of_match (mem_table_of_mem_readRows hp) hmatch.1), accept_eq_ok]
    exact hmatch

/-- A word that matches a row decodes to a command of the row's mnemonic (R77). -/
theorem decode_of_match {w : CommandWord} {r : OpcodeRow} (hr : r ∈ opcodeTable) (h : w &&& r.mask = r.pattern) :
    ∃ i, decode w = .ok i ∧ mnemonicOf i = r.mnemonic := by
  obtain ⟨p, hp, rfl⟩ := exists_mem_readRows hr
  exact ⟨p.2 w, decode_eq_ok_iff.2 ⟨p, hp, h, rfl⟩, mnemonicOf_read w p hp⟩

/-- A word that matches no row does not decode (R77). -/
theorem decode_of_no_match {w : CommandWord} (h : ∀ r ∈ opcodeTable, w &&& r.mask ≠ r.pattern) :
    ∃ e, decode w = .error e := by
  cases hd : decode w with
  | error e => exact ⟨e, rfl⟩
  | ok i =>
    obtain ⟨p, hp, hmatch, -⟩ := decode_eq_ok_iff.1 hd
    exact absurd hmatch (h p.1 (mem_table_of_mem_readRows hp))

/-! ## Encoding, then decoding -/

open Laws.EncodeMatchesRow in
/-- A command's word matches the command's row (`Statement`), so it decodes to the command if the row reads every
operand back. -/
theorem decode_encode_of_row (n : Nat) {i : Instr} (hi : Statement i)
    (hread : readRows[n]?.map (fun p => p.2 (encode i)) = some i) : decode (encode i) = .ok i := by
  obtain ⟨r, hr, hname, hmatch⟩ := hi
  obtain ⟨p, hn, hread⟩ := Option.map_eq_some_iff.1 hread
  have hp := List.mem_of_getElem? hn
  have hnames : r.mnemonic = p.1.mnemonic := by rw [hname, ← mnemonicOf_read (encode i) p hp, hread]
  obtain rfl := row_eq_of_mnemonic_eq hr (mem_table_of_mem_readRows hp) hnames
  exact decode_eq_ok_iff.2 ⟨p, hp, hmatch, hread⟩

open Laws.EncodeMatchesRow in
/-- Each row reads the operands back from the bytes and bits the encoder packed them in (R71 to R75). -/
theorem decode_encode (i : Instr) : decode (encode i) = .ok i := by
  cases i with
  | fill c => exact decode_encode_of_row 0 (fill c) (by simp [readRows, opcodeTable, encode])
  | setpx c x y => exact decode_encode_of_row 1 (setpx c x y) (by simp [readRows, opcodeTable, encode])
  | getpx x y => exact decode_encode_of_row 2 (getpx x y) (by simp [readRows, opcodeTable, encode])
  | bspan c dir i n => exact decode_encode_of_row 3 (bspan c dir i n) (by simp [readRows, opcodeTable, encode])
  | refresh => exact decode_encode_of_row 4 refresh (by simp [readRows, opcodeTable, encode])
  | hline c x y n => exact decode_encode_of_row 5 (hline c x y n) (by simp [readRows, opcodeTable, encode])
  | vline c x y n => exact decode_encode_of_row 6 (vline c x y n) (by simp [readRows, opcodeTable, encode])
  | line c x0 y0 x1 y1 =>
    exact decode_encode_of_row 7 (line c x0 y0 x1 y1) (by simp [readRows, opcodeTable, encode])
  | rect c x0 x1 y0 y1 =>
    exact decode_encode_of_row 8 (rect c x0 x1 y0 y1) (by simp [readRows, opcodeTable, encode])
  | frect c x0 x1 y0 y1 =>
    exact decode_encode_of_row 9 (frect c x0 x1 y0 y1) (by simp [readRows, opcodeTable, encode])
  | tri c x0 y0 x1 y1 x2 y2 =>
    exact decode_encode_of_row 10 (tri c x0 y0 x1 y1 x2 y2) (by simp [readRows, opcodeTable, encode])
  | ftri c x0 y0 x1 y1 x2 y2 =>
    exact decode_encode_of_row 11 (ftri c x0 y0 x1 y1 x2 y2) (by simp [readRows, opcodeTable, encode])
  | circle c xc yc r => exact decode_encode_of_row 12 (circle c xc yc r) (by simp [readRows, opcodeTable, encode])
  | pcircle c xc yc r q =>
    exact decode_encode_of_row 13 (pcircle c xc yc r q) (by simp [readRows, opcodeTable, encode])
  | blit addr x0 y0 w h =>
    exact decode_encode_of_row 14 (blit addr x0 y0 w h) (by simp [readRows, opcodeTable, encode])
  | blitf addr x0 y0 w h =>
    exact decode_encode_of_row 15 (blitf addr x0 y0 w h) (by simp [readRows, opcodeTable, encode])
  | setcur x y => exact decode_encode_of_row 16 (setcur x y) (by simp [readRows, opcodeTable, encode])
  | printc tinv font align addr len =>
    exact decode_encode_of_row 17 (printc tinv font align addr len) (by simp [readRows, opcodeTable, encode])
  | printat tinv font addr len x y =>
    exact decode_encode_of_row 18 (printat tinv font addr len x y) (by simp [readRows, opcodeTable, encode])
  | init ct bs => exact decode_encode_of_row 19 (init ct bs) (by simp [readRows, opcodeTable, encode])
  | invert v => exact decode_encode_of_row 20 (invert v) (by simp [readRows, opcodeTable, encode])
  | sleep v => exact decode_encode_of_row 21 (sleep v) (by simp [readRows, opcodeTable, encode])
  | contrast v => exact decode_encode_of_row 22 (contrast v) (by simp [readRows, opcodeTable, encode])
  | bias v => exact decode_encode_of_row 23 (bias v) (by simp [readRows, opcodeTable, encode])

/-- Settles O1, by `decode_encode`. -/
theorem encodedCommandDecodes : Obligations.EncodedCommandDecodes := decode_encode

/-! ## Decoding, then encoding -/

/-- The command a row reads from a matching word is encoded by that word: the match makes every byte and bit that the
row does not read 0, and the others are written back. -/
theorem encode_read (w : CommandWord) : ∀ p ∈ readRows, w &&& p.1.mask = p.1.pattern → encode (p.2 w) = w := by
  have hw := packWord_bytes w
  generalize opcode w = op, modByte w = md, opA w = a, opB w = b, opC w = c, opD w = d, opE w = e, opF w = f at hw
  subst hw
  simp only [readRows, opcodeTable, List.zip_cons_cons, List.zip_nil_right, List.forall_mem_cons, List.not_mem_nil,
    false_implies, implies_true, and_true]
  and_intros <;>
  · intro hmatch
    have hbytes := bytes_of_match hmatch
    simp only [opcode_packWord, modByte_packWord, opA_packWord, opB_packWord, opC_packWord, opD_packWord, opE_packWord,
      opF_packWord] at hbytes
    simp only [opcode, modByte, opA, opB, opC, opD, opE, opF, BitVec.ofNat_eq_ofNat, BitVec.reduceExtractLsb',
      and_onesByte, BitVec.and_zero] at hbytes
    simp [encode, hbytes, modV_of_unused, modBspan_of_unused, modPrintc_of_unused, modPrintat_of_unused,
      corners_of_unused]

theorem decode_eq_ok_iff_encode {w : CommandWord} {i : Instr} : decode w = .ok i ↔ encode i = w := by
  constructor
  · intro h
    obtain ⟨p, hp, hmatch, rfl⟩ := decode_eq_ok_iff.1 h
    exact encode_read w p hp hmatch
  · rintro rfl
    exact decode_encode i

/-- Settles O2, by `encode_read`. -/
theorem decodedWordIsItsEncoding : Obligations.DecodedWordIsItsEncoding := fun _ _ => decode_eq_ok_iff_encode.1

/-- Settles O5: each word is the encoding of its command. -/
theorem assemblyExamplesDecode : Obligations.AssemblyExamplesDecode := by
  simp only [Obligations.AssemblyExamplesDecode, decode_eq_ok_iff_encode]
  decide

/-! ## The step that takes a command word -/

theorem step_of_decode_ok {s : State} {w : CommandWord} {rest : List Input} {i : Instr}
    (hin : s.inputs = .command w :: rest) (hd : decode w = .ok i) : step s = exec i { s with inputs := rest } := by
  rw [← State.takeInput_of_inputs hin, step, hin]
  simp only [hd]

/-- An undefined word is answered `(REJECTED, 0x00)` (R77). -/
theorem step_of_decode_error {s : State} {w : CommandWord} {rest : List Input} {e : DecodeError}
    (hin : s.inputs = .command w :: rest) (hd : decode w = .error e) :
    step s = .next { s with inputs := rest, responses := s.responses ++ [⟨.rejected, 0x00⟩] } := by
  rw [step, hin]
  simp only [hd, State.takeInput_of_inputs hin]
  rfl

/-- Settles O6, by `step_of_decode_ok`. -/
theorem stepRunsTheDecodedCommand : Obligations.StepRunsTheDecodedCommand := fun _ _ _ _ => step_of_decode_ok

/-- Settles O3: a word's opcode leaves at most one row (`row_eq_of_opcode_eq`), and the row's mask decides. -/
theorem decodingFollowsTheTable : Obligations.DecodingFollowsTheTable := by
  intro w
  refine ⟨fun r hr r' hr' h h' => ?_, fun r hr h => ?_, fun h s rest hin => ?_⟩
  · exact row_eq_of_opcode_eq hr hr' ((opcode_of_match hr h).symm.trans (opcode_of_match hr' h'))
  · obtain ⟨i, hd, hname⟩ := decode_of_match hr h
    exact ⟨i, hd, hname, fun s rest hin => step_of_decode_ok hin hd⟩
  · obtain ⟨e, hd⟩ := decode_of_no_match h
    exact step_of_decode_error hin hd

/-- The reserved values of `OP` (R78). -/
abbrev ReservedOp (op : Nat) : Prop :=
  op = 0x00 ∨ (0x06 ≤ op ∧ op ≤ 0x0F) ∨ (0x19 ≤ op ∧ op ≤ 0x1F) ∨ (0x22 ≤ op ∧ op ≤ 0x2F) ∨
    (0x33 ≤ op ∧ op ≤ 0x3F) ∨ (0x45 ≤ op ∧ op ≤ 0xFF)

/-- No row of the table has a reserved opcode (R75, R78). -/
theorem opcode_not_reserved {r : OpcodeRow} (hr : r ∈ opcodeTable) : ¬ ReservedOp (opcode r.pattern).toNat := by
  revert r
  decide

theorem opcode_toNat (w : CommandWord) : (opcode w).toNat = (w >>> 56).toNat := by
  rw [opcode, BitVec.extractLsb'_toNat, BitVec.toNat_ushiftRight, Nat.shiftRight_eq_div_pow]
  have := w.isLt
  omega

/-- Settles O4, by `opcode_not_reserved`. -/
theorem reservedOpcodesRejected : Obligations.ReservedOpcodesRejected := by
  intro w s rest hop hin
  refine step_of_decode_error hin (decode_of_reserved fun r hr he => opcode_not_reserved hr ?_)
  rwa [← he, opcode_toNat]

end Sys2Proof
end

section
/-! PROOFS. The response of every command (spec/30_encoding.md R76, spec/60_exceptions.md R220, R221), the codes of the
options (R83, R84), and a text printed in two parts (R82). -/

namespace Sys2Proof.Machine

open Config

/-! ## The response word and the option codes -/

/-- Settles O15: the word is the status code above the value (R76). -/
theorem responseWordLayout : Obligations.ResponseWordLayout := by
  intro v
  simp only [Response.word, append_bytes_toNat]
  exact ⟨Nat.zero_add _, rfl, rfl⟩

/-- Settles O43, by evaluating the tables. -/
theorem fontAndAlignmentCodes : Obligations.FontAndAlignmentCodes :=
  ⟨⟨rfl, rfl, rfl, rfl⟩, ⟨rfl, rfl, rfl⟩, ⟨rfl, rfl, rfl⟩⟩

/-- PRINTC is well-formed exactly when its options name a font and a shift (R83, R174). -/
theorem printc_wellFormed_iff (tinv : Bool) (font align : BitVec 2) (addr : SrcAddr) (len : Byte) :
    (Instr.printc tinv font align addr len).wellFormed = true ↔
      ∃ f sh, fontOfCode font = some f ∧ alignShift f align = some sh := by
  refine ⟨options_of_wellFormed, ?_⟩
  rintro ⟨f, sh, hf, hs⟩
  simp [Instr.wellFormed, ← fontOfCode_isSome, ← alignShift_isSome hf, hf, hs]

/-- A PRINTC that is not well-formed is REJECTED (R181). -/
theorem exec_printc_of_not_wellFormed {tinv : Bool} {font align : BitVec 2} {addr : SrcAddr} {len : Byte}
    (h : (Instr.printc tinv font align addr len).wellFormed = false) (s : State) :
    exec (.printc tinv font align addr len) s = .next s.reject := by
  refine exec_printc_unsupported s (fun f hf => Option.eq_none_iff_forall_ne_some.2 fun sh hs => ?_) tinv addr len
  exact Bool.eq_false_iff.1 h ((printc_wellFormed_iff ..).2 ⟨f, sh, hf, hs⟩)

/-! ## The response of every command -/

/-- The responses a command can give (R76, R221). -/
structure MayRespond (i : Instr) (r : Response) : Prop where
  fail : r.status = .fail → Sends i = true
  rejected : r.status = .rejected ↔ i.wellFormed = false
  value : mnemonicOf i ≠ "GETPX" → r.value = 0x00
  values : r.value = 0x00 ∨ r.value = 0x01 ∨ r.value = 0xFF

/-- The command completes with exactly one response, one it can give (R220). -/
def Responds (i : Instr) (s : State) : Prop :=
  ∃ t r, exec i s = .next t ∧ t.responses = s.responses ++ [r] ∧ MayRespond i r

/-- The one response since `s` is OK or FAIL, with value 0x00. -/
def State.Answered (s t : State) : Prop := ∃ st, st ≠ .rejected ∧ t.responses = s.responses ++ [⟨st, 0x00⟩]

theorem State.sendAndRespond_answered {s u : State} (hu : u.responses = s.responses) (kind : FrameKind)
    (bytes : List Byte) : s.Answered (u.sendAndRespond kind bytes) := by
  by_cases hb : u.FailsFast
  · rw [State.sendAndRespond_of_failsFast hb]
    exact ⟨.fail, nofun, by rw [State.respond_responses, hu]⟩
  · rw [State.sendAndRespond_of_not_failsFast hb]
    refine ⟨if u.answer = .ok then .ok else .fail, ?_, by rw [State.afterSend, hu]⟩
    split <;> nofun

theorem State.unlessBusy_answered {s : State} {go : State → State} (h : s.Answered (go s)) :
    s.Answered (s.unlessBusy go) := by
  by_cases hb : s.FailsFast
  · rw [State.unlessBusy_of_failsFast hb]
    exact ⟨.fail, nofun, rfl⟩
  · rwa [State.unlessBusy_of_not_failsFast hb]

section
variable {i : Instr} {s : State}

/-- A well-formed command that answers OK once it is done. -/
theorem Responds.of_ok (hwf : i.wellFormed = true) {u : State} (hrun : exec i s = .next (u.respond .ok 0x00))
    (hu : u.responses = s.responses) : Responds i s :=
  ⟨_, ⟨.ok, 0x00⟩, hrun, by rw [State.respond_responses, hu], nofun, by simp [hwf], fun _ => rfl, .inl rfl⟩

theorem Responds.of_draw (hwf : i.wellFormed = true) {p : Canvas → Canvas}
    (hrun : exec i s = .next ((s.draw p).respond .ok 0x00)) : Responds i s := .of_ok hwf hrun (s.draw_responses p)

theorem Responds.of_reject (hwf : i.wellFormed = false) (hrun : exec i s = .next s.reject) : Responds i s :=
  ⟨_, ⟨.rejected, 0x00⟩, hrun, rfl, nofun, by simp [hwf], fun _ => rfl, .inl rfl⟩

/-- A sending command answers OK or FAIL (R56). -/
theorem Responds.of_answered (hsends : Sends i = true) (hwf : i.wellFormed = true) {t : State}
    (hrun : exec i s = .next t) (ht : s.Answered t) : Responds i s := by
  obtain ⟨st, hst, ht⟩ := ht
  exact ⟨t, ⟨st, 0x00⟩, hrun, ht, fun _ => hsends, by simp [hwf, hst], fun _ => rfl, .inl rfl⟩

end

theorem getpxValue_cases (x y : Nat) (s : State) :
    getpxValue x y s = 0x00 ∨ getpxValue x y s = 0x01 ∨ getpxValue x y s = 0xFF := by
  unfold getpxValue
  split
  · split
    · exact .inr (.inl rfl)
    · exact .inl rfl
  · exact .inr (.inr rfl)

theorem getpx_responds (x y : Byte) (s : State) : Responds (.getpx x y) s :=
  ⟨_, _, exec_getpx s x y, rfl, nofun, by simp [Instr.wellFormed], absurd rfl, getpxValue_cases _ _ s⟩

theorem setcur_responds (x y : Byte) (s : State) : Responds (.setcur x y) s :=
  .of_ok rfl (exec_setcur s x y) (by split <;> rfl)

theorem printc_responds (tinv : Bool) (font align : BitVec 2) (addr : SrcAddr) (len : Byte) (s : State) :
    Responds (.printc tinv font align addr len) s := by
  cases hwf : (Instr.printc tinv font align addr len).wellFormed with
  | false => exact .of_reject hwf (exec_printc_of_not_wellFormed hwf s)
  | true =>
    obtain ⟨f, sh, hf, hs⟩ := options_of_wellFormed hwf
    exact .of_ok hwf (exec_printc s hf hs tinv addr len) rfl

theorem printat_responds (tinv : Bool) (font : BitVec 2) (addr : SrcAddr) (len x y : Byte) (s : State) :
    Responds (.printat tinv font addr len x y) s := by
  have hwf : (Instr.printat tinv font addr len x y).wellFormed = (fontOfCode font).isSome :=
    (fontOfCode_isSome font).symm
  cases hf : fontOfCode font with
  | none => exact .of_reject (by rw [hwf, hf]; rfl) (exec_printat_unsupported s hf tinv addr len x y)
  | some f => exact .of_ok (by rw [hwf, hf]; rfl) (exec_printat s hf tinv addr len x y) rfl

theorem exec_responds (i : Instr) (s : State) : Responds i s := by
  cases i with
  | fill c => exact .of_draw rfl (exec_fill c s)
  | setpx c x y => exact .of_draw rfl (exec_setpx c s x y)
  | getpx x y => exact getpx_responds x y s
  | bspan c dir i n => exact .of_draw rfl (exec_bspan c s dir i n)
  | refresh => exact .of_answered rfl rfl (exec_refresh s) (State.sendAndRespond_answered rfl _ _)
  | hline c x y n => exact .of_draw rfl (exec_hline c s x y n)
  | vline c x y n => exact .of_draw rfl (exec_vline c s x y n)
  | line c x0 y0 x1 y1 => exact .of_draw rfl (exec_line c s x0 y0 x1 y1)
  | rect c x0 x1 y0 y1 => exact .of_draw rfl (exec_rect c s x0 x1 y0 y1)
  | frect c x0 x1 y0 y1 => exact .of_draw rfl (exec_frect c s x0 x1 y0 y1)
  | tri c x0 y0 x1 y1 x2 y2 => exact .of_draw rfl (exec_tri c s x0 y0 x1 y1 x2 y2)
  | ftri c x0 y0 x1 y1 x2 y2 => exact .of_draw rfl (exec_ftri c s x0 y0 x1 y1 x2 y2)
  | circle c xc yc r => exact .of_draw rfl (exec_circle c s xc yc r)
  | pcircle c xc yc r q => exact .of_draw rfl (exec_pcircle c s xc yc r q)
  | blit addr x0 y0 w h => exact .of_draw rfl (exec_blit s addr x0 y0 w h)
  | blitf addr x0 y0 w h => exact .of_draw rfl (exec_blitf s addr x0 y0 w h)
  | setcur x y => exact setcur_responds x y s
  | printc tinv font align addr len => exact printc_responds tinv font align addr len s
  | printat tinv font addr len x y => exact printat_responds tinv font addr len x y s
  | init contrast bias =>
    exact .of_answered rfl rfl (exec_init s contrast bias)
      (State.unlessBusy_answered (State.sendAndRespond_answered rfl _ _))
  | invert v => exact .of_answered rfl rfl (exec_invert v s) (State.sendAndRespond_answered rfl _ _)
  | sleep v => exact .of_answered rfl rfl (exec_sleep v s) (State.sendAndRespond_answered rfl _ _)
  | contrast value =>
    exact .of_answered rfl rfl (exec_contrast s value)
      (State.unlessBusy_answered (State.sendAndRespond_answered rfl _ _))
  | bias value =>
    exact .of_answered rfl rfl (exec_bias s value)
      (State.unlessBusy_answered (State.sendAndRespond_answered rfl _ _))

/-- Settles O14, by `exec_responds`. -/
theorem everyCommandRespondsOnce : Obligations.EveryCommandRespondsOnce := by
  intro i s t ht
  obtain ⟨u, r, hu, hr, hmay⟩ := exec_responds i s
  obtain rfl := exec_next_unique ht hu
  exact ⟨r, hr, hmay.fail, hmay.rejected, hmay.value, hmay.values⟩

/-! ## A text in two parts -/

/-- Two printers with the same framebuffer and position; which indices they have written may differ. -/
structure Printer.Same (p q : Printer) : Prop where
  mem : p.canvas.mem = q.canvas.mem
  x : p.x = q.x
  y : p.y = q.y

theorem forUp_store_mem_congr {cv cv' : Canvas} (h : cv.mem = cv'.mem) (n : Nat) (index : Nat → Nat)
    (value : Nat → Byte) :
    (forUp n (fun k => Canvas.store (index k) (value k)) cv).mem =
      (forUp n (fun k => Canvas.store (index k) (value k)) cv').mem := by
  induction n with
  | zero => exact h
  | succ n ih => exact congrArg (Memory.write · (index n) (value n)) ih

namespace Printer.Same

variable {p q : Printer} (h : p.Same q)
include h

theorem nextLine : p.nextLine.Same q.nextLine :=
  ⟨h.mem, rfl, by rw [Printer.nextLine, Printer.nextLine, h.y]⟩

theorem wrap (fw : Nat) : (p.wrap fw).Same (q.wrap fw) := by
  unfold Printer.wrap
  rw [h.x]
  split
  · exact h.nextLine
  · exact h

theorem putGlyph (fw : Nat) (cols : List Byte) : (p.putGlyph fw cols).Same (q.putGlyph fw cols) := by
  unfold Printer.putGlyph
  rw [h.x, h.y]
  refine ⟨?_, rfl, rfl⟩
  split
  · exact forUp_store_mem_congr h.mem ..
  · exact h.mem

theorem char (fw : Nat) (glyph : Nat → List Byte) (ch : Byte) : (p.char fw glyph ch).Same (q.char fw glyph ch) := by
  unfold Printer.char
  split
  · exact h.nextLine
  split
  · exact (h.wrap fw).putGlyph fw _
  · exact h

end Printer.Same

theorem Printer.Same.print (fw : Nat) (glyph : Nat → List Byte) (text : List Byte) {p q : Printer} (h : p.Same q) :
    (p.print fw glyph text).Same (q.print fw glyph text) := by
  unfold Printer.print
  induction text generalizing p q with
  | nil => exact h
  | cons ch rest ih => exact ih (h.char fw glyph ch)

/-- The position fits the 7 bits of `CUR_X` and the 3 bits of `CUR_Y` (R21, R22), in range or not. -/
abbrev Printer.FitsCursor (p : Printer) : Prop := p.x < 2 ^ 7 ∧ p.y < 2 ^ 3

theorem Printer.nextLine_fitsCursor (p : Printer) : p.nextLine.FitsCursor := by
  obtain ⟨hx, hy⟩ := p.nextLine_inRange
  simp only [W, NBANK] at hx hy
  exact ⟨by omega, by omega⟩

theorem Printer.wrap_fitsCursor (fw : Nat) {p : Printer} (h : p.FitsCursor) : (p.wrap fw).FitsCursor := by
  unfold Printer.wrap
  split
  · exact p.nextLine_fitsCursor
  · exact h

theorem Printer.char_fitsCursor {fw : Nat} (hfw : fw ≤ W) (glyph : Nat → List Byte) (ch : Byte) {p : Printer}
    (h : p.FitsCursor) : (p.char fw glyph ch).FitsCursor := by
  unfold Printer.char
  split
  · exact p.nextLine_fitsCursor
  split
  · have hx := (p.wrap_spec hfw).1
    simp only [W] at hx
    exact ⟨show (p.wrap fw).x + fw < _ by omega, (Printer.wrap_fitsCursor fw h).2⟩
  · exact h

/-- A print from a position that fits leaves one that fits: the automatic wrap keeps every advance on the screen. -/
theorem Printer.print_fitsCursor {fw : Nat} (hfw : fw ≤ W) (glyph : Nat → List Byte) (text : List Byte) {p : Printer}
    (h : p.FitsCursor) : (p.print fw glyph text).FitsCursor := by
  unfold Printer.print
  induction text generalizing p with
  | nil => exact h
  | cons ch rest ih => exact ih (Printer.char_fitsCursor hfw glyph ch h)

theorem State.printer_fitsCursor (s : State) : s.printer.FitsCursor := ⟨s.curX.isLt, s.curY.isLt⟩

/-- After PRINTC the state's printer stands where the print ended. -/
theorem State.printer_printWith {s : State} {p : Printer → Printer} (h : (p s.printer).FitsCursor) :
    (s.printWith p).printer.Same (p s.printer) :=
  ⟨rfl, Nat.mod_eq_of_lt h.1, Nat.mod_eq_of_lt h.2⟩

/-- Two prints that end alike leave the same framebuffer and cursor. -/
theorem State.printWith_of_same {s s' : State} {p q : Printer → Printer} (h : (p s.printer).Same (q s'.printer)) :
    (s.printWith p).fb = (s'.printWith q).fb ∧ (s.printWith p).curX = (s'.printWith q).curX ∧
      (s.printWith p).curY = (s'.printWith q).curY := by
  simp [State.printWith, h.mem, h.x, h.y]

/-- SRC wraps: a text is the same from an address and from its 16-bit rest (R48, R182). -/
theorem State.text_mod (s : State) (addr len : Nat) : s.text (addr % SRCSIZE) len = s.text addr len := by
  simp only [State.text, State.memRead, Nat.mod_add_mod]

/-- The address of the second part of a text (R182). -/
theorem State.text_add_addr (s : State) (addr : SrcAddr) (m : Byte) (len : Nat) :
    s.text (addr + m.setWidth 16).toNat len = s.text (addr.toNat + m.toNat) len := by
  have haddr : (addr + m.setWidth 16).toNat = (addr.toNat + m.toNat) % SRCSIZE := by
    rw [BitVec.toNat_add, BitVec.toNat_setWidth, Nat.add_mod_mod]
  rw [haddr, s.text_mod]

/-- Two prints with the same options, one after the other, are the one long print (R82). -/
theorem State.printText_split (s : State) (f : Font) (sh : Nat) (inv : Bool) (addr : SrcAddr) (m : Byte) (n : Nat)
    {t u v : State} (ht : t = s.printText f sh inv addr.toNat (m.toNat + n))
    (hu : u = s.printText f sh inv addr.toNat m.toNat)
    (hv : v = u.printText f sh inv (addr + m.setWidth 16).toNat n) :
    v.fb = t.fb ∧ v.curX = t.curX ∧ v.curY = t.curY := by
  have hcfg : u.cfg = s.cfg := by rw [hu]; rfl
  have hsrc : u.src = s.src := by rw [hu]; rfl
  have hfirst : u.printer.Same (s.printer.print f.width (fun g => decodeGlyph s.cfg f g sh inv)
      (s.text addr.toNat m.toNat)) := by
    rw [hu, State.printText_eq]
    exact State.printer_printWith (Printer.print_fitsCursor f.width_le _ _ s.printer_fitsCursor)
  have htext : u.text (addr + m.setWidth 16).toNat n = s.text (addr.toNat + m.toNat) n := by
    rw [State.text_add_addr]
    simp only [State.text, State.memRead, hsrc]
  rw [hv, ht, State.printText_eq, State.printText_eq, hcfg, htext, State.text_add]
  refine State.printWith_of_same ?_
  rw [Printer.print_append]
  exact .print _ _ _ hfirst

/-- Settles O50: with supported options by `State.printText_split`, with others all three are REJECTED. -/
theorem printcOfASplitText : Obligations.PrintcOfASplitText := by
  intro tinv font align addr m n s hlen
  have hsum : (m + n).toNat = m.toNat + n.toNat := by
    rw [BitVec.toNat_add]
    omega
  cases hwf : (Instr.printc tinv font align addr m).wellFormed with
  | false =>
    have hreject (addr' : SrcAddr) (len : Byte) (s' : State) :
        exec (.printc tinv font align addr' len) s' = .next s'.reject :=
      exec_printc_of_not_wellFormed (addr := addr') (len := len) hwf s'
    exact ⟨_, _, _, hreject .., hreject .., hreject .., rfl, rfl, rfl⟩
  | true =>
    obtain ⟨f, sh, hf, hs⟩ := options_of_wellFormed hwf
    refine ⟨_, _, _, exec_printc s hf hs .., exec_printc s hf hs .., exec_printc _ hf hs .., ?_⟩
    exact s.printText_split f sh tinv addr m n.toNat (by rw [hsum]) rfl rfl

end Sys2Proof.Machine
end

section
/-! PROOFS. The family of the framebuffer commands (spec/40_framebuffer.md R100 to R103): the bytes that FILL leaves
and the bits that BSPAN leaves in its byte, each said once of the canvas, and the statements derived from them. -/

namespace Sys2Proof.Machine

open Config

/-! ## The state after a drawing command -/

theorem State.draw_transmit (s : State) (p : Canvas → Canvas) :
    TransmitKept s ((s.draw p).respond .ok 0x00) (· ∈ (p s.canvas).touched) := State.commit_transmit s (p s.canvas)

theorem State.draw_fbByte (s : State) (p : Canvas → Canvas) (i : Nat) :
    ((s.draw p).respond .ok 0x00).fbByte i = (p s.canvas).byte i := rfl

/-! ## FILL -/

/-- A loop that stores one byte at every index below `n` leaves that byte there, and every other byte as it was. -/
theorem Canvas.byte_forUp_store {cv : Canvas} (h : cv.mem.wf) (n : Nat) (v : Byte) (i : Nat) :
    (forUp n (fun k => Canvas.store k v) cv).byte i = if i < n then v else cv.byte i := by
  induction n with
  | zero => rfl
  | succ n ih =>
    have hwf := (Canvas.paints_forUp (n := n) (fun k _ => Canvas.paints_store k v) cv h).wf
    rw [forUp, Canvas.byte_store hwf, ih]
    by_cases hin : i = n
    · rw [if_pos hin, if_pos (by omega)]
    · rw [if_neg hin]
      exact if_congr (by omega) rfl rfl

theorem Canvas.byte_fill {cv : Canvas} (h : cv.mem.wf) (c : Colour) (i : Nat) :
    (cv.fill c).byte i = if i < FBSIZE then solidByte c else cv.byte i :=
  Canvas.byte_forUp_store h FBSIZE (solidByte c) i

/-- Settles O22: the bytes by `Canvas.byte_fill`; FILL writes inside the framebuffer only (R44), so `TX` keeps the
rest (R243). -/
theorem fillResult : Obligations.FillResult := by
  intro c s hwf
  have hwritten := Canvas.writes_fill c s.canvas hwf
  refine ⟨_, exec_fill c s, State.draw_onlyDrew s _, ?_, fun i hi => ?_, fun i hi => ?_⟩
  · exact (State.draw_transmit s _).mono fun i hi => (hwritten.touched i hi).resolve_left List.not_mem_nil
  · rw [State.draw_fbByte, Canvas.byte_fill hwf, if_pos hi, solidByte]
  · rw [State.draw_fbByte, Canvas.byte_fill hwf, if_neg hi.not_gt]
    rfl

/-! ## SETPX and GETPX -/

/-- Settles O23: SETPX is one `PutPixel`, whose pixel is given by integers (R46). -/
theorem setpxResult : Obligations.SetpxResult := by
  intro c x y s hwf
  have hfills : Canvas.Fills (fun px py => px = x.toNat ∧ py = y.toNat) c (Canvas.putPixel x.toNat y.toNat c) :=
    Canvas.Fills.congr (Canvas.paints_putPixel x.toNat y.toNat c) fun px py _ => by simp only [Nat.cast_inj]
  exact ⟨_, exec_setpx c s x y, State.draw_onlyDrew s _, hfills.drew hwf⟩

/-- Settles O24: `exec_getpx` with `getpxValue`, the pixel's byte and bit written out (R41, R102). -/
theorem getpxResult : Obligations.GetpxResult := by
  intro x y s
  rw [exec_getpx]
  rfl

/-! ## BSPAN -/

/-- `ApplyMask(i, m, c)` gives the bits of the mask the colour and keeps the other bits of byte `i` (R45). -/
theorem Canvas.applyMask_getLsbD {cv : Canvas} (h : cv.mem.wf) (i : Nat) (m : Byte) (c : Colour) {b : Nat}
    (hb : b < 8) : ((cv.applyMask i m c).byte i).getLsbD b = if m.getLsbD b then c else (cv.byte i).getLsbD b := by
  rw [Canvas.applyMask, Canvas.byte_store h, if_pos rfl]
  cases c with
  | true =>
    rw [if_pos rfl, BitVec.getLsbD_or]
    cases m.getLsbD b <;> simp
  | false =>
    rw [if_neg Bool.false_ne_true, BitVec.getLsbD_and, BitVec.getLsbD_not, decide_eq_true hb]
    cases m.getLsbD b <;> simp

/-- Bit `b` is in the run of `n` bits at the named end of a byte (R103). -/
abbrev InEndRun (dir : SpanDir) (n b : Nat) : Prop := dir = .fromLow ∧ b < n ∨ dir = .fromHigh ∧ 8 - n ≤ b

/-- The mask of BSPAN holds the bits of the run (R47, R103). -/
theorem endMask_getLsbD (dir : SpanDir) {n b : Nat} (hn : n < 8) (hb : b < 8) :
    (if decide (dir = .fromHigh) then spanMask (8 - n) n else spanMask 0 n).getLsbD b =
      decide (InEndRun dir n b) := by
  cases dir with
  | fromLow =>
    have hrun : InEndRun .fromLow n b ↔ 0 ≤ b ∧ b < 0 + n := by simp [InEndRun]
    exact (spanMask_getLsbD 0 n b hb).trans (decide_eq_decide.2 hrun.symm)
  | fromHigh =>
    have hrun : InEndRun .fromHigh n b ↔ 8 - n ≤ b ∧ b < 8 - n + n := by simp [InEndRun]; omega
    exact (spanMask_getLsbD (8 - n) n b hb).trans (decide_eq_decide.2 hrun.symm)

section
variable {i n : Nat} (cv : Canvas) (fromHigh : Bool) (c : Colour)

theorem Canvas.bankSpan_of_inRange (h : i < FBSIZE ∧ n < 8) : cv.bankSpan i n fromHigh c =
    cv.applyMask i (if fromHigh then spanMask (8 - n) n else spanMask 0 n) c := if_pos h

theorem Canvas.bankSpan_of_not_inRange (h : ¬ (i < FBSIZE ∧ n < 8)) : cv.bankSpan i n fromHigh c = cv := if_neg h

end

/-- `bankSpan` writes at most the named byte, and that only with index and count in range (R103). -/
theorem Canvas.bankSpan_writes_only {cv : Canvas} (h : cv.mem.wf) (i n : Nat) (fromHigh : Bool) (c : Colour) :
    (∀ j, j ≠ i → (cv.bankSpan i n fromHigh c).byte j = cv.byte j) ∧
    ∀ j ∈ (cv.bankSpan i n fromHigh c).touched, j ∈ cv.touched ∨ j = i ∧ j < FBSIZE ∧ n < 8 := by
  by_cases hr : i < FBSIZE ∧ n < 8
  · rw [Canvas.bankSpan_of_inRange _ _ _ hr]
    have hp := Canvas.paints_applyMask i (if fromHigh then spanMask (8 - n) n else spanMask 0 n) c cv h
    exact ⟨hp.bytes, fun j hj => (hp.touched j hj).imp_right fun hji => ⟨hji, hji ▸ hr⟩⟩
  · rw [Canvas.bankSpan_of_not_inRange _ _ _ hr]
    exact ⟨fun _ _ => rfl, fun _ => .inl⟩

/-- The bits of the named byte after `bankSpan`, in range or not (R103). -/
theorem Canvas.bankSpan_getLsbD {cv : Canvas} (h : cv.mem.wf) (i n : Nat) (dir : SpanDir) (c : Colour) {b : Nat}
    (hb : b < 8) : ((cv.bankSpan i n (dir = .fromHigh) c).byte i).getLsbD b =
      if i < FBSIZE ∧ n < 8 ∧ InEndRun dir n b then c else (cv.byte i).getLsbD b := by
  by_cases hr : i < FBSIZE ∧ n < 8
  · rw [Canvas.bankSpan_of_inRange _ _ _ hr, Canvas.applyMask_getLsbD h _ _ _ hb, endMask_getLsbD dir hr.2 hb]
    simp only [hr.1, hr.2, true_and, decide_eq_true_eq]
  · rw [Canvas.bankSpan_of_not_inRange _ _ _ hr, if_neg fun hrun => hr ⟨hrun.1, hrun.2.1⟩]

/-- Settles O25: the bits by `Canvas.bankSpan_getLsbD`, all else by what `bankSpan` writes. -/
theorem bspanResult : Obligations.BspanResult := by
  intro c dir byteIndex bitCount s hwf
  obtain ⟨hbytes, htouched⟩ := Canvas.bankSpan_writes_only (cv := s.canvas) hwf byteIndex.toNat bitCount.toNat
    (dir = .fromHigh) c
  refine ⟨_, exec_bspan c s dir byteIndex bitCount, State.draw_onlyDrew s _, ?_, hbytes, fun b hb => ?_⟩
  · exact (State.draw_transmit s _).mono fun i hi => (htouched i hi).resolve_left List.not_mem_nil
  · exact Canvas.bankSpan_getLsbD (cv := s.canvas) hwf byteIndex.toNat bitCount.toNat dir c hb

end Sys2Proof.Machine
end

section
/-! PROOFS. The family of the rasterizer (spec/41_rasterizer.md): the lines, the rectangles and the outline triangle
(R122 to R130). Each procedure of the model is shown to fill a shape (`Canvas.Fills`), and `State.draw_result` turns
that into the statement about its command. -/

namespace Sys2Proof.Machine

open Config

/-! ## From a shape to a command -/

/-- A command that runs a procedure filling `shape` draws that shape and nothing else. -/
theorem State.draw_result {i : Instr} {s : State} {p : Canvas → Canvas} {shape : Nat → Nat → Prop} {c : Colour}
    (hexec : exec i s = .next ((s.draw p).respond .ok 0x00)) (hfills : Canvas.Fills shape c p) (hs : s.fb.wf) :
    ∃ t, exec i s = .next t ∧ OnlyDrew s t ∧ Drew s t shape fun _ _ => c :=
  ⟨_, hexec, State.draw_onlyDrew s p, hfills.drew hs⟩

/-! ## HLINE and VLINE -/

/-- Settles O27, by `Canvas.fills_hLine`. -/
theorem hlineResult : Obligations.HlineResult := by
  intro c x y length s hs
  refine State.draw_result (exec_hline c s x y length) ?_ hs
  exact (Canvas.fills_hLine x.toNat y.toNat length.toNat).congr fun px py _ => by omega

/-- Settles O28, by `Canvas.fills_vLine`. -/
theorem vlineResult : Obligations.VlineResult := by
  intro c x y length s hs
  refine State.draw_result (exec_vline c s x y length) ?_ hs
  exact (Canvas.fills_vLine x.toNat y.toNat length.toNat).congr fun px py _ => by omega

/-! ## RECT and FRECT -/

/-- The four segments of `Canvas.outline` are the four edges of the rectangle (R128). -/
theorem Canvas.fills_outline {xl xr yt yb : Nat} (hx : xl ≤ xr) (hy : yt ≤ yb) (c : Colour) :
    Canvas.Fills (fun x y => ((x = xl ∨ x = xr) ∧ yt ≤ y ∧ y ≤ yb) ∨ ((y = yt ∨ y = yb) ∧ xl ≤ x ∧ x ≤ xr)) c
      (Canvas.outline xl xr yt yb c) := by
  have htopBottom := (Canvas.fills_hLine (c := c) xl yt (xr - xl + 1 : Nat)).comp
    (Canvas.fills_hLine xl yb (xr - xl + 1 : Nat)) fun _ _ _ => Iff.rfl
  have hleft := htopBottom.comp (Canvas.fills_vLine xl yt (yb - yt + 1 : Nat)) fun _ _ _ => Iff.rfl
  exact hleft.comp (Canvas.fills_vLine xr yt (yb - yt + 1 : Nat)) fun x y _ => by omega

/-- Settles O31, by `Canvas.fills_outline` for the sorted corners. -/
theorem rectResult : Obligations.RectResult := by
  intro c x0 x1 y0 y1 s hs
  exact State.draw_result (exec_rect c s x0 x1 y0 y1) (Canvas.fills_outline min_le_max min_le_max c) hs

/-- Settles O32, by `Canvas.fills_block` for the sorted corners. -/
theorem frectResult : Obligations.FrectResult := by
  intro c x0 x1 y0 y1 s hs
  exact State.draw_result (exec_frect c s x0 x1 y0 y1) (Canvas.fills_block min_le_max) hs

/-- A framebuffer byte is its eight pixels (R41). -/
theorem Memory.read_eq_of_pixels {m m' : Memory} (h : ∀ x y, OnScreen x y → m.pixel x y = m'.pixel x y) {i : Nat}
    (hi : i < FBSIZE) : m.read i = m'.read i := by
  refine BitVec.eq_of_getLsbD_eq fun b hb => ?_
  obtain ⟨hon, hindex, hbit⟩ := pixelIndex_surj hi b hb
  simpa only [Memory.pixel, hindex, hbit] using h _ _ hon

/-- Filling a shape that already has the colour leaves the framebuffer as it is. -/
theorem Canvas.Fills.mem_eq_of_filled {shape : Nat → Nat → Prop} {c : Colour} {p : Canvas → Canvas} {cv : Canvas}
    (h : Canvas.Fills shape c p) (hwf : cv.mem.wf)
    (hfilled : ∀ x y, OnScreen x y → shape x y → cv.mem.pixel x y = c) : (p cv).mem = cv.mem := by
  have hp := h cv hwf
  have hpixel : ∀ x y, OnScreen x y → (p cv).mem.pixel x y = cv.mem.pixel x y := fun x y hon => by
    by_cases hxy : shape x y
    · rw [hp.inside x y hon hxy, hfilled x y hon hxy]
    · exact hp.outside x y hon hxy
  refine Memory.ext_read hp.wf hwf fun i => ?_
  by_cases hi : i < FBSIZE
  · exact Memory.read_eq_of_pixels hpixel hi
  · refine hp.bytes i fun ⟨x, y, hon, _, hindex⟩ => hi ?_
    exact hindex ▸ pixelIndex_lt hon

/-- Settles O33: after the first FRECT every pixel of the block has the colour (`Canvas.Fills.mem_eq_of_filled`). -/
theorem frectIsIdempotent : Obligations.FrectIsIdempotent := by
  intro c x0 x1 y0 y1 s hs
  have hfills := Canvas.fills_block (c := c) (xl := min x0.toNat x1.toNat) (xr := max x0.toNat x1.toNat)
    (min_le_max (a := y0.toNat) (b := y1.toNat))
  have hfirst := hfills s.canvas hs
  exact ⟨_, _, exec_frect c s x0 x1 y0 y1, exec_frect c _ x0 x1 y0 y1,
    hfills.mem_eq_of_filled (cv := ⟨_, []⟩) hfirst.wf hfirst.inside⟩

/-! ## LINE -/

/-- `minorSteps` is the count of steps that brings the error term back into the range from 0 to `dmaj - 1`. -/
theorem minorSteps_eq_iff {dmaj dmin i k : Nat} (h : 0 < dmaj) :
    minorSteps dmaj dmin i = k ↔
      0 ≤ ((dmaj / 2 : Nat) : Int) - i * dmin + dmaj * k ∧ ((dmaj / 2 : Nat) : Int) - i * dmin + dmaj * k < dmaj := by
  rw [minorSteps, Nat.div_eq_iff h, Nat.mul_comm k, ← Nat.cast_mul, ← Nat.cast_mul]
  omega

/-- A line parallel to its major axis makes no perpendicular step. -/
theorem minorSteps_zero (dmaj i : Nat) : minorSteps dmaj 0 i = 0 := by
  rw [minorSteps, Nat.mul_zero, Nat.zero_add, Nat.div_eq_zero_iff]
  omega

/-- The error term of the Bresenham loop before major step `i` (R126). -/
def lineError (dmaj dmin i : Nat) : Int := ((dmaj / 2 : Nat) : Int) - i * dmin + dmaj * minorSteps dmaj dmin i

section
variable {dmaj dmin : Nat} (h : 0 < dmaj) (i : Nat)
include h

theorem lineError_range : 0 ≤ lineError dmaj dmin i ∧ lineError dmaj dmin i < dmaj := (minorSteps_eq_iff h).1 rfl

/-- Where the decremented error term is negative, the perpendicular coordinate steps (R126). -/
theorem minorSteps_succ_of_neg (hle : dmin ≤ dmaj) (hneg : lineError dmaj dmin i - dmin < 0) :
    minorSteps dmaj dmin (i + 1) = minorSteps dmaj dmin i + 1 := by
  have hrange := lineError_range h i (dmin := dmin)
  rw [minorSteps_eq_iff h, Nat.cast_succ, Nat.cast_succ]
  unfold lineError at hrange hneg
  constructor <;> linarith

/-- Where it is not negative, the perpendicular coordinate stays (R126). -/
theorem minorSteps_succ_of_not_neg (hneg : ¬ lineError dmaj dmin i - dmin < 0) :
    minorSteps dmaj dmin (i + 1) = minorSteps dmaj dmin i := by
  have hrange := lineError_range h i (dmin := dmin)
  rw [minorSteps_eq_iff h, Nat.cast_succ]
  unfold lineError at hrange hneg
  constructor <;> linarith

end

/-- `PutPixel` with the roles of the coordinates exchanged for a steep line (R126). -/
def Canvas.putMajor (steep : Bool) (x y : Int) (c : Colour) (cv : Canvas) : Canvas :=
  if steep then cv.putPixel y x c else cv.putPixel x y c

section
variable {steep : Bool} {dx dy : Nat} {ystep : Int} {c : Colour} {x : Nat} {l : LineWalk}

theorem LineWalk.step_of_neg (h : l.err - dy < 0) : LineWalk.step steep dx dy ystep c x l =
    ⟨l.y + ystep, l.err - dy + dx, l.canvas.putMajor steep x l.y c⟩ := if_pos h

theorem LineWalk.step_of_not_neg (h : ¬ l.err - dy < 0) : LineWalk.step steep dx dy ystep c x l =
    ⟨l.y, l.err - dy, l.canvas.putMajor steep x l.y c⟩ := if_neg h

end

/-- The walk before major step `n`: the rounded perpendicular coordinate and its error term (R126). -/
def LineWalk.atStep (dx dy y0 : Nat) (ystep : Int) (n : Nat) (cv : Canvas) : LineWalk :=
  ⟨y0 + ystep * minorSteps dx dy n, lineError dx dy n, cv⟩

/-- One iteration puts the rounded pixel and goes on to the next (R126). -/
theorem LineWalk.step_atStep (steep : Bool) {dx dy : Nat} (h : 0 < dx) (hle : dy ≤ dx) (ystep : Int) (c : Colour)
    (x y0 n : Nat) (cv : Canvas) :
    LineWalk.step steep dx dy ystep c x (.atStep dx dy y0 ystep n cv) =
      .atStep dx dy y0 ystep (n + 1) (cv.putMajor steep x (y0 + ystep * minorSteps dx dy n) c) := by
  by_cases hneg : lineError dx dy n - dy < 0
  · refine (LineWalk.step_of_neg hneg).trans ?_
    simp only [LineWalk.atStep, lineError, minorSteps_succ_of_neg h n hle hneg]
    congr 1 <;> push_cast <;> ring
  · refine (LineWalk.step_of_not_neg hneg).trans ?_
    simp only [LineWalk.atStep, lineError, minorSteps_succ_of_not_neg h n hneg]
    congr 1
    push_cast
    ring

/-- The Bresenham loop puts the rounded pixel of each major step (R126). -/
theorem LineWalk.forUp_step (steep : Bool) {dx dy : Nat} (h : 0 < dx) (hle : dy ≤ dx) (ystep : Int) (c : Colour)
    (x0 y0 n : Nat) (cv : Canvas) :
    forUp n (fun i => LineWalk.step steep dx dy ystep c (x0 + i)) ⟨y0, (dx / 2 : Nat), cv⟩ =
      LineWalk.atStep dx dy y0 ystep n
        (forUp n (fun i => Canvas.putMajor steep (x0 + i : Nat) (y0 + ystep * minorSteps dx dy i) c) cv) := by
  induction n with
  | zero =>
    have hzero : minorSteps dx dy 0 = 0 := (minorSteps_eq_iff h).2 (by omega)
    simp [forUp, LineWalk.atStep, lineError, hzero]
  | succ n ih => rw [forUp, ih, LineWalk.step_atStep steep h hle, forUp]

/-- `(x, y)` is on the line with the major coordinate first, or second when `steep`. -/
abbrev OnRoleLine (steep : Bool) (x0 y0 x1 y1 x y : Nat) : Prop :=
  if steep then OnMajorLine x0 y0 x1 y1 y x else OnMajorLine x0 y0 x1 y1 x y

theorem Canvas.fills_putMajor (steep : Bool) (px py : Int) (c : Colour) :
    Canvas.Fills (fun x y => if steep then (y : Int) = px ∧ (x : Int) = py else (x : Int) = px ∧ (y : Int) = py) c
      (Canvas.putMajor steep px py c) := by
  cases steep with
  | false => exact Canvas.paints_putPixel px py c
  | true => exact Canvas.Fills.congr (Canvas.paints_putPixel py px c) fun x y _ => and_comm

/-- The pixel of major step `i` for some `i` up to `x1 - x0` is a pixel of the line. -/
theorem onMajorLine_iff {x0 y0 x1 y1 : Nat} (h : x0 ≤ x1) (x y : Nat) :
    OnMajorLine x0 y0 x1 y1 x y ↔
      ∃ i < x1 - x0 + 1, (x : Int) = (x0 + i : Nat) ∧
        (y : Int) = y0 + (if y0 < y1 then 1 else -1) * minorSteps (x1 - x0) (distance y0 y1) i := by
  have hside : ∀ k : Nat, (if y0 < y1 then y = y0 + k else y + k = y0) ↔
      (y : Int) = y0 + (if y0 < y1 then 1 else -1) * (k : Int) := fun k => by
    split <;> omega
  constructor
  · rintro ⟨h0, h1, hy⟩
    exact ⟨x - x0, by omega, by omega, (hside _).1 hy⟩
  · rintro ⟨i, hi, hx, hy⟩
    obtain rfl : x = x0 + i := Int.natCast_inj.1 hx
    refine ⟨by omega, by omega, (hside _).2 ?_⟩
    rwa [Nat.add_sub_cancel_left]

/-- The Bresenham loop draws the rounded line (R126). -/
theorem Canvas.fills_bresenham (steep : Bool) {x0 y0 x1 y1 : Nat} (h : x0 < x1) (hle : distance y0 y1 ≤ x1 - x0)
    (c : Colour) :
    Canvas.Fills (OnRoleLine steep x0 y0 x1 y1) c (Canvas.bresenham steep x0 y0 x1 y1 c) := by
  have hloop : Canvas.bresenham steep x0 y0 x1 y1 c = forUp (x1 - x0 + 1) fun i =>
      Canvas.putMajor steep (x0 + i : Nat)
        (y0 + (if y0 < y1 then 1 else -1) * minorSteps (x1 - x0) (distance y0 y1) i) c := by
    funext cv
    rw [Canvas.bresenham, LineWalk.forUp_step steep (by omega) hle, LineWalk.atStep]
  rw [hloop]
  refine Canvas.fills_forUp (fun i _ => Canvas.fills_putMajor steep _ _ c) fun x y _ => ?_
  cases steep with
  | false => exact (onMajorLine_iff h.le x y).symm
  | true => exact (onMajorLine_iff h.le y x).symm

/-- The line with its endpoints put in ascending order of the major coordinate (R126). -/
theorem Canvas.fills_bresenhamOrdered (steep : Bool) {x0 y0 x1 y1 : Nat} (hne : x0 ≠ x1)
    (hle : distance y0 y1 ≤ distance x0 x1) (c : Colour) :
    Canvas.Fills (fun x y => if x1 < x0 then OnRoleLine steep x1 y1 x0 y0 x y else OnRoleLine steep x0 y0 x1 y1 x y) c
      (Canvas.bresenhamOrdered steep x0 y0 x1 y1 c) := by
  unfold Canvas.bresenhamOrdered
  by_cases hlt : x1 < x0
  · simp only [if_pos hlt]
    exact Canvas.fills_bresenham steep hlt (by simp only [distance] at *; omega) c
  · simp only [if_neg hlt]
    exact Canvas.fills_bresenham steep (by omega) (by simp only [distance] at *; omega) c

/-- A line parallel to its major axis is the run between its endpoints. -/
theorem onMajorLine_parallel {xa ya xb x y : Nat} : OnMajorLine xa ya xb ya x y ↔ xa ≤ x ∧ x ≤ xb ∧ y = ya := by
  rw [OnMajorLine, if_neg (lt_irrefl _), distance, max_self, min_self, Nat.sub_self, minorSteps_zero, Nat.add_zero]

/-- Two points of one row: their line is the run between them. -/
theorem onLine_row {x0 x1 y0 x y : Nat} :
    OnLine x0 y0 x1 y0 x y ↔ y = y0 ∧ min x0 x1 ≤ x ∧ x ≤ max x0 x1 := by
  rw [OnLine, if_neg (by simp only [distance]; omega), onMajorLine_parallel, onMajorLine_parallel]
  split <;> omega

/-- Two points of one column: their line is the run between them. -/
theorem onLine_column {x0 y0 y1 x y : Nat} (hne : y0 ≠ y1) :
    OnLine x0 y0 x0 y1 x y ↔ x = x0 ∧ min y0 y1 ≤ y ∧ y ≤ max y0 y1 := by
  rw [OnLine, if_pos (by simp only [distance]; omega), onMajorLine_parallel, onMajorLine_parallel]
  split <;> omega

/-- `Line` draws exactly the pixels of the line: the run of an axis-aligned one, the rounded pixels of any other
(R126). -/
theorem Canvas.fills_line (x0 y0 x1 y1 : Nat) (c : Colour) :
    Canvas.Fills (OnLine x0 y0 x1 y1) c (Canvas.line x0 y0 x1 y1 c) := by
  unfold Canvas.line
  by_cases hy : y0 = y1
  · subst hy
    simp only [if_true]
    refine (Canvas.fills_hLine (min x0 x1) y0 _).congr fun x y _ => ?_
    rw [onLine_row, distance]
    omega
  by_cases hx : x0 = x1
  · subst hx
    simp only [if_neg hy, if_true]
    refine (Canvas.fills_vLine x0 (min y0 y1) _).congr fun x y _ => ?_
    rw [onLine_column hy, distance]
    omega
  simp only [if_neg hy, if_neg hx]
  by_cases hsteep : distance x0 x1 < distance y0 y1
  · simp only [if_pos hsteep]
    refine (Canvas.fills_bresenhamOrdered true hy hsteep.le c).congr fun x y _ => ?_
    rw [OnLine, if_pos hsteep]
    rfl
  · simp only [if_neg hsteep]
    refine (Canvas.fills_bresenhamOrdered false hx (by omega) c).congr fun x y _ => ?_
    rw [OnLine, if_neg hsteep]
    rfl

/-- Settles O29, by `Canvas.fills_line`. -/
theorem lineResult : Obligations.LineResult := by
  intro c x0 y0 x1 y1 s hs
  exact State.draw_result (exec_line c s x0 y0 x1 y1) (Canvas.fills_line _ _ _ _ c) hs

theorem distance_comm (a b : Nat) : distance a b = distance b a := by
  rw [distance, distance, max_comm, min_comm]

/-- Endpoints with different major coordinates have one order (R126). -/
theorem Canvas.bresenhamOrdered_comm (steep : Bool) {x0 x1 : Nat} (h : x0 ≠ x1) (y0 y1 : Nat) (c : Colour)
    (cv : Canvas) : cv.bresenhamOrdered steep x0 y0 x1 y1 c = cv.bresenhamOrdered steep x1 y1 x0 y0 c := by
  unfold Canvas.bresenhamOrdered
  rcases Nat.lt_or_gt_of_ne h with hlt | hlt
  · rw [if_neg hlt.not_gt, if_pos hlt]
  · rw [if_pos hlt, if_neg hlt.not_gt]

/-- `Line` does not depend on the order of its endpoints (R126). -/
theorem Canvas.line_comm (x0 y0 x1 y1 : Nat) (c : Colour) (cv : Canvas) :
    cv.line x0 y0 x1 y1 c = cv.line x1 y1 x0 y0 c := by
  unfold Canvas.line
  by_cases hy : y0 = y1
  · rw [if_pos hy, if_pos hy.symm, min_comm, distance_comm, hy]
  rw [if_neg hy, if_neg (Ne.symm hy)]
  by_cases hx : x0 = x1
  · rw [if_pos hx, if_pos hx.symm, min_comm, distance_comm, hx]
  rw [if_neg hx, if_neg (Ne.symm hx), distance_comm x1, distance_comm y1, Canvas.bresenhamOrdered_comm true hy,
    Canvas.bresenhamOrdered_comm false hx]

/-- Settles O30, by `Canvas.line_comm`. -/
theorem lineIsSymmetric : Obligations.LineIsSymmetric := by
  intro c x0 y0 x1 y1 s
  rw [exec_line, exec_line, funext (Canvas.line_comm x0.toNat y0.toNat x1.toNat y1.toNat c)]

/-! ## TRI -/

/-- The outline of a triangle is its three lines (R130). -/
theorem Canvas.fills_triangle (x0 y0 x1 y1 x2 y2 : Nat) (c : Colour) :
    Canvas.Fills (fun x y => OnLine x0 y0 x1 y1 x y ∨ OnLine x1 y1 x2 y2 x y ∨ OnLine x2 y2 x0 y0 x y) c
      (Canvas.triangle x0 y0 x1 y1 x2 y2 c) := by
  have hfirstTwo := (Canvas.fills_line x0 y0 x1 y1 c).comp (Canvas.fills_line x1 y1 x2 y2 c) fun _ _ _ => Iff.rfl
  exact hfirstTwo.comp (Canvas.fills_line x2 y2 x0 y0 c) fun _ _ _ => or_assoc

/-- Settles O34, by `Canvas.fills_triangle`. -/
theorem triResult : Obligations.TriResult := by
  intro c x0 y0 x1 y1 x2 y2 s hs
  exact State.draw_result (exec_tri c s x0 y0 x1 y1 x2 y2) (Canvas.fills_triangle _ _ _ _ _ _ c) hs

end Sys2Proof.Machine
end

section
/-! PROOFS. The filled triangle (spec/41_rasterizer.md R131): the rows of the closed triangle (`InTriangle`), seen from
one vertex, are the spans between the two edges that meet there, and the two scan-fill loops draw these spans. -/

namespace Sys2Proof.Machine

open Config

/-! ## The closed triangle -/

/-- A point between two numbers is their weighted mean for some natural weights, not both 0. -/
theorem exists_weights_of_between {p q x : Nat} (hp : p ≤ x) (hq : x ≤ q) :
    ∃ a b : Nat, 0 < a + b ∧ (a + b) * x = a * p + b * q := by
  rcases (hp.trans hq).eq_or_lt with rfl | hlt
  · obtain rfl := le_antisymm hp hq
    exact ⟨1, 0, by decide, by ring⟩
  · refine ⟨q - x, x - p, by omega, ?_⟩
    zify [hp, hq]
    ring

/-- The closed triangle of three vertices given as pairs. -/
abbrev InHull (p q r : Nat × Nat) (x y : Nat) : Prop := InTriangle p.1 p.2 q.1 q.2 r.1 r.2 x y

theorem InHull.swap_first {p q r : Nat × Nat} {x y : Nat} (h : InHull p q r x y) : InHull q p r x y := by
  obtain ⟨a, b, d, hpos, hx, hy⟩ := h
  exact ⟨b, a, d, by omega, by linarith, by linarith⟩

theorem InHull.swap_last {p q r : Nat × Nat} {x y : Nat} (h : InHull p q r x y) : InHull p r q x y := by
  obtain ⟨a, b, d, hpos, hx, hy⟩ := h
  exact ⟨a, d, b, by omega, by linarith, by linarith⟩

section
variable {a b d x x0 x1 x2 m : Nat} (hpos : 0 < a + b + d) (hx : (a + b + d) * x = a * x0 + b * x1 + d * x2)
include hpos hx

theorem weightedMean_le (h0 : x0 ≤ m) (h1 : x1 ≤ m) (h2 : x2 ≤ m) : x ≤ m := by
  refine Nat.le_of_mul_le_mul_left (c := a + b + d) ?_ hpos
  linarith [Nat.mul_le_mul_left a h0, Nat.mul_le_mul_left b h1, Nat.mul_le_mul_left d h2]

theorem le_weightedMean (h0 : m ≤ x0) (h1 : m ≤ x1) (h2 : m ≤ x2) : m ≤ x := by
  refine Nat.le_of_mul_le_mul_left (c := a + b + d) ?_ hpos
  linarith [Nat.mul_le_mul_left a h0, Nat.mul_le_mul_left b h1, Nat.mul_le_mul_left d h2]

end

/-- The rows of a triangle lie between those of its outer vertices. -/
theorem InTriangle.row_range {x0 y0 x1 y1 x2 y2 x y : Nat} (h : InTriangle x0 y0 x1 y1 x2 y2 x y) (h01 : y0 ≤ y1)
    (h12 : y1 ≤ y2) : y0 ≤ y ∧ y ≤ y2 := by
  obtain ⟨a, b, d, hpos, -, hy⟩ := h
  exact ⟨le_weightedMean hpos hy le_rfl h01 (h01.trans h12), weightedMean_le hpos hy (h01.trans h12) h12 le_rfl⟩

/-- A triangle with all vertices on one row is the run between the outer ones (R131, the degenerate case). -/
theorem inTriangle_row {x0 x1 x2 y0 x y : Nat} :
    InTriangle x0 y0 x1 y0 x2 y0 x y ↔ y = y0 ∧ min x0 (min x1 x2) ≤ x ∧ x ≤ max x0 (max x1 x2) := by
  constructor
  · intro h
    have hrow := h.row_range le_rfl le_rfl
    obtain ⟨a, b, d, hpos, hx, -⟩ := h
    exact ⟨le_antisymm hrow.2 hrow.1, le_weightedMean hpos hx (by omega) (by omega) (by omega),
      weightedMean_le hpos hx (by omega) (by omega) (by omega)⟩
  · rintro ⟨rfl, hmin, hmax⟩
    have hside : (x0 ≤ x ∧ x ≤ x1 ∨ x1 ≤ x ∧ x ≤ x0) ∨ (x1 ≤ x ∧ x ≤ x2 ∨ x2 ≤ x ∧ x ≤ x1) := by omega
    rcases hside with (⟨hp, hq⟩ | ⟨hp, hq⟩) | (⟨hp, hq⟩ | ⟨hp, hq⟩) <;>
      obtain ⟨a, b, hpos, hx⟩ := exists_weights_of_between hp hq
    · exact ⟨a, b, 0, by omega, by linarith, by ring⟩
    · exact ⟨b, a, 0, by omega, by linarith, by ring⟩
    · exact ⟨0, a, b, by omega, by linarith, by ring⟩
    · exact ⟨0, b, a, by omega, by linarith, by ring⟩

/-! ## Sorting the vertices -/

theorem orderByY_eq (p q : Nat × Nat) :
    orderByY p q = (p, q) ∧ p.2 ≤ q.2 ∨ orderByY p q = (q, p) ∧ q.2 ≤ p.2 := by
  unfold orderByY
  by_cases h : q.2 < p.2
  · exact .inr ⟨if_pos h, h.le⟩
  · exact .inl ⟨if_neg h, not_lt.1 h⟩

theorem orderByY_fst_snd (p q : Nat × Nat) : (orderByY p q).1.2 = min p.2 q.2 := by
  rcases orderByY_eq p q with ⟨he, h⟩ | ⟨he, h⟩ <;> rw [he] <;> simp [h]

theorem orderByY_snd_snd (p q : Nat × Nat) : (orderByY p q).2.2 = max p.2 q.2 := by
  rcases orderByY_eq p q with ⟨he, h⟩ | ⟨he, h⟩ <;> rw [he] <;> simp [h]

theorem inHull_orderByY_first (p q r : Nat × Nat) (x y : Nat) :
    InHull (orderByY p q).1 (orderByY p q).2 r x y ↔ InHull p q r x y := by
  rcases orderByY_eq p q with ⟨he, -⟩ | ⟨he, -⟩ <;> rw [he]
  exact ⟨.swap_first, .swap_first⟩

theorem inHull_orderByY_last (p q r : Nat × Nat) (x y : Nat) :
    InHull p (orderByY q r).1 (orderByY q r).2 x y ↔ InHull p q r x y := by
  rcases orderByY_eq q r with ⟨he, -⟩ | ⟨he, -⟩ <;> rw [he]
  exact ⟨.swap_last, .swap_last⟩

/-- Sorting the vertices orders them by `y` and keeps the triangle (R131). -/
theorem sortVertices_spec (p0 p1 p2 : Nat × Nat) : ∃ v0 v1 v2, sortVertices p0 p1 p2 = (v0, v1, v2) ∧
    v0.2 ≤ v1.2 ∧ v1.2 ≤ v2.2 ∧ ∀ x y, InHull v0 v1 v2 x y ↔ InHull p0 p1 p2 x y := by
  refine ⟨_, _, _, rfl, ?_, ?_, fun x y => ?_⟩
  · simp only [orderByY_fst_snd, orderByY_snd_snd]
    omega
  · simp only [orderByY_fst_snd, orderByY_snd_snd]
    omega
  · rw [inHull_orderByY_first, inHull_orderByY_last, inHull_orderByY_first]

/-! ## The row of a triangle seen from one vertex -/

/-- With one vertex as the origin: natural weights, not all 0, give the point at height `t` and abscissa `x` as the mean
of the origin and the vertices at heights `hq`, `hr` and abscissas `dq`, `dr`. -/
def Weighted (x t dq hq dr hr : Int) : Prop :=
  ∃ a b d : Nat, 0 < a + b + d ∧ (a + b + d : Int) * x = b * dq + d * dr ∧ (a + b + d : Int) * t = b * hq + d * hr

/-- The point at abscissa `x` and height `t` lies between the points of that height on the two edges from the origin. -/
def BetweenEdges (x t dq hq dr hr : Int) : Prop :=
  (0 ≤ x * hq - t * dq ∧ x * hr - t * dr ≤ 0) ∨ (0 ≤ x * hr - t * dr ∧ x * hq - t * dq ≤ 0)

/-- A weighted mean lies between the two edges: its two edge functions are the weights of the two vertices, times the
triangle's area with opposite signs. -/
theorem Weighted.betweenEdges {x t dq hq dr hr : Int} (h : Weighted x t dq hq dr hr) :
    BetweenEdges x t dq hq dr hr := by
  obtain ⟨a, b, d, hpos, hx, ht⟩ := h
  have hn : (0 : Int) < a + b + d := by exact_mod_cast hpos
  have hq' : (a + b + d : Int) * (x * hq - t * dq) = d * (dr * hq - hr * dq) := by
    linear_combination hq * hx - dq * ht
  have hr' : (a + b + d : Int) * (x * hr - t * dr) = b * (-(dr * hq - hr * dq)) := by
    linear_combination hr * hx - dr * ht
  rcases le_total 0 (dr * hq - hr * dq) with harea | harea
  · refine .inl ⟨?_, ?_⟩
    · exact nonneg_of_mul_nonneg_right (hq' ▸ by positivity) hn
    · refine nonpos_of_mul_nonpos_right (hr' ▸ ?_) hn
      exact mul_nonpos_of_nonneg_of_nonpos (by positivity) (by linarith)
  · refine .inr ⟨?_, ?_⟩
    · exact nonneg_of_mul_nonneg_right (hr' ▸ mul_nonneg (by positivity) (by linarith)) hn
    · exact nonpos_of_mul_nonpos_right (hq' ▸ mul_nonpos_of_nonneg_of_nonpos (by positivity) harea) hn

/-- Integer weights that are not negative are natural weights. -/
theorem Weighted.of_int {x t dq hq dr hr : Int} (a b d : Int) (ha : 0 ≤ a) (hb : 0 ≤ b) (hd : 0 ≤ d)
    (hpos : 0 < a + b + d) (hx : (a + b + d) * x = b * dq + d * dr) (ht : (a + b + d) * t = b * hq + d * hr) :
    Weighted x t dq hq dr hr := by
  lift a to Nat using ha
  lift b to Nat using hb
  lift d to Nat using hd
  exact ⟨a, b, d, by exact_mod_cast hpos, hx, ht⟩

section
variable {x t dq hq dr hr : Int}

theorem Weighted.swap (h : Weighted x t dr hr dq hq) : Weighted x t dq hq dr hr := by
  obtain ⟨a, b, d, hpos, hx, ht⟩ := h
  exact ⟨a, d, b, by omega, by linear_combination hx, by linear_combination ht⟩

/-- A point with the first edge on its left and the second on its right is the mean of the two edges' points of its
height, with the distances from them as weights. -/
theorem Weighted.of_between (hq0 : 0 < hq) (hr0 : 0 < hr) (ht : 0 ≤ t) (htq : t ≤ hq) (htr : t ≤ hr)
    (hleft : 0 ≤ x * hq - t * dq) (hright : x * hr - t * dr ≤ 0) : Weighted x t dq hq dr hr := by
  have hβ0 : 0 ≤ t * dr - x * hr := by linarith
  generalize hα : x * hq - t * dq = α at hleft
  generalize hβ : t * dr - x * hr = β at hβ0
  have htotal : 0 ≤ β * hq + α * hr := by positivity
  rcases htotal.eq_or_lt with hzero | hpos
  · have hαzero : α = 0 := by nlinarith
    exact .of_int (hq - t) t 0 (by linarith) ht le_rfl (by linarith) (by linear_combination hα + hαzero) (by ring)
  · refine .of_int (β * (hq - t) + α * (hr - t)) (β * t) (α * t) ?_ (mul_nonneg hβ0 ht) (mul_nonneg hleft ht) ?_ ?_ ?_
    · exact add_nonneg (mul_nonneg hβ0 (by linarith)) (mul_nonneg hleft (by linarith))
    · linarith
    · rw [← hα, ← hβ]; ring
    · ring

/-- Up to the lower of the two other vertices, the points of a row in the triangle are those between the two edges. -/
theorem weighted_iff_betweenEdges (hq0 : 0 < hq) (hr0 : 0 < hr) (ht : 0 ≤ t) (htq : t ≤ hq) (htr : t ≤ hr) :
    Weighted x t dq hq dr hr ↔ BetweenEdges x t dq hq dr hr := by
  refine ⟨fun h => h.betweenEdges, ?_⟩
  rintro (⟨hl, hr'⟩ | ⟨hl, hr'⟩)
  · exact .of_between hq0 hr0 ht htq htr hl hr'
  · exact .swap (.of_between hr0 hq0 ht htr htq hl hr')

end

/-- The triangle seen from its first vertex, heights counted downward. -/
theorem inTriangle_iff_weighted_first (x0 y0 x1 y1 x2 y2 x y : Nat) : InTriangle x0 y0 x1 y1 x2 y2 x y ↔
    Weighted ((x : Int) - x0) ((y : Int) - y0) ((x1 : Int) - x0) ((y1 : Int) - y0) ((x2 : Int) - x0)
      ((y2 : Int) - y0) := by
  refine exists_congr fun a => exists_congr fun b => exists_congr fun d => and_congr_right fun _ => ?_
  zify
  constructor <;> rintro ⟨hx, hy⟩ <;> constructor <;> linarith

/-- The triangle seen from its last vertex, heights counted upward. -/
theorem inTriangle_iff_weighted_last (x0 y0 x1 y1 x2 y2 x y : Nat) : InTriangle x0 y0 x1 y1 x2 y2 x y ↔
    Weighted ((x : Int) - x2) ((y2 : Int) - y) ((x1 : Int) - x2) ((y2 : Int) - y1) ((x0 : Int) - x2)
      ((y2 : Int) - y0) := by
  constructor
  · rintro ⟨a, b, d, hpos, hx, hy⟩
    zify at hx hy
    exact ⟨d, b, a, by omega, by linarith, by linarith⟩
  · rintro ⟨d, b, a, hpos, hx, hy⟩
    refine ⟨a, b, d, by omega, ?_, ?_⟩ <;> zify <;> linarith

/-! ## The two scan-fill loops -/

/-- The edge from a vertex at abscissa `o` that runs over `dq` columns and `hq` rows meets the row at height `t`, and
both its ends lie on columns from 0 on. -/
abbrev EdgeMeetsRow (o t dq hq : Int) : Prop := 0 < hq ∧ (0 ≤ t ∧ t ≤ hq) ∧ 0 ≤ o ∧ 0 ≤ o + dq

theorem EdgeMeetsRow.bound_nonneg {o t dq hq : Int} (h : EdgeMeetsRow o t dq hq) : 0 ≤ o * hq + t * dq := by
  obtain ⟨-, ⟨ht, htq⟩, ho, hoq⟩ := h
  have hmean : o * hq + t * dq = o * (hq - t) + t * (o + dq) := by ring
  rw [hmean]
  exact add_nonneg (mul_nonneg ho (by linarith)) (mul_nonneg ht hoq)

/-- `Span` between two edges from one vertex draws the row of their triangle. -/
theorem Canvas.fills_span_edges {y : Nat} {o t dq hq dr hr pa na pb nb : Int} (hedge : EdgeMeetsRow o t dq hq)
    (hedge' : EdgeMeetsRow o t dr hr) (ha : pa * hq + na = o * hq + t * dq) (hb : pb * hr + nb = o * hr + t * dr)
    (c : Colour) :
    Canvas.Fills (fun px py => py = y ∧ Weighted (px - o) t dq hq dr hr) c (Canvas.span y pa na hq pb nb hr c) := by
  refine (Canvas.fills_scanRow hedge.1 hedge'.1 (ha ▸ hedge.bound_nonneg) (hb ▸ hedge'.bound_nonneg) c).congr
    fun px py _ => and_congr_right fun _ => ?_
  obtain ⟨hq0, ⟨ht, htq⟩, -⟩ := hedge
  obtain ⟨hr0, ⟨-, htr⟩, -⟩ := hedge'
  rw [weighted_iff_betweenEdges hq0 hr0 ht htq htr, BetweenEdges, ha, hb, sub_mul, sub_mul]
  refine or_congr (and_congr ?_ ?_) (and_congr ?_ ?_) <;> constructor <;> intro h <;> linarith

section
variable {x0 y0 x1 y1 x2 y2 y : Nat} {na nb : Int} (c : Colour)

/-- A row of the upper loop, between the edges from the first vertex (R131). -/
theorem Canvas.fills_upperRow (h0 : y0 < y1) (h12 : y1 ≤ y2) (hy0 : y0 ≤ y) (hy1 : y ≤ y1)
    (hna : na = ((y : Int) - y0) * (x1 - x0)) (hnb : nb = ((y : Int) - y0) * (x2 - x0)) :
    Canvas.Fills (fun px py => py = y ∧ InTriangle x0 y0 x1 y1 x2 y2 px py) c
      (Canvas.span y x0 na (y1 - y0) x0 nb (y2 - y0) c) := by
  have hshort : EdgeMeetsRow x0 (y - y0) (x1 - x0) (y1 - y0) := by omega
  have hlong : EdgeMeetsRow x0 (y - y0) (x2 - x0) (y2 - y0) := by omega
  refine (Canvas.fills_span_edges hshort hlong (by rw [hna]) (by rw [hnb]) c).congr fun px py _ =>
    and_congr_right ?_
  rintro rfl
  exact (inTriangle_iff_weighted_first ..).symm

/-- A row of the lower loop, between the edges to the last vertex (R131). -/
theorem Canvas.fills_lowerRow (h01 : y0 ≤ y1) (h12 : y1 < y2) (hy1 : y1 ≤ y) (hy2 : y ≤ y2)
    (hna : na = ((y : Int) - y1) * (x2 - x1)) (hnb : nb = ((y : Int) - y0) * (x2 - x0)) :
    Canvas.Fills (fun px py => py = y ∧ InTriangle x0 y0 x1 y1 x2 y2 px py) c
      (Canvas.span y x1 na (y2 - y1) x0 nb (y2 - y0) c) := by
  have hshort : EdgeMeetsRow x2 (y2 - y) (x1 - x2) (y2 - y1) := by omega
  have hlong : EdgeMeetsRow x2 (y2 - y) (x0 - x2) (y2 - y0) := by omega
  refine (Canvas.fills_span_edges hshort hlong (by rw [hna]; ring) (by rw [hnb]; ring) c).congr fun px py _ =>
    and_congr_right ?_
  rintro rfl
  exact (inTriangle_iff_weighted_last ..).symm

end

/-- Row `y` of a scan-fill loop draws `Span` between the bounds its accumulators have reached (R131). -/
theorem Scan.forUp_row (pa dxa da pb dxb db : Int) (c : Colour) (y0 n : Nat) (sa sb : Int) (cv : Canvas) :
    forUp n (fun i => Scan.row pa dxa da pb dxb db c (y0 + i)) ⟨sa, sb, cv⟩ =
      ⟨sa + n * dxa, sb + n * dxb,
        forUp n (fun i => Canvas.span (y0 + i) pa (sa + i * dxa) da pb (sb + i * dxb) db c) cv⟩ := by
  induction n with
  | zero => simp [forUp]
  | succ n ih =>
    rw [forUp, ih, Scan.row, forUp]
    congr 1 <;> push_cast <;> ring

section
variable (x0 y0 x1 y1 x2 y2 : Nat) (c : Colour)

/-- The number of rows of the upper loop: it takes the row of the middle vertex when the triangle is flat-bottomed
(R131). -/
def upperRows (y0 y1 y2 : Nat) : Nat := if y1 = y2 then y1 + 1 - y0 else y1 - y0

/-- The first `n` rows of the upper loop, its accumulators written out (R131). -/
def Canvas.scanUpper (n : Nat) : Canvas → Canvas :=
  forUp n fun i => Canvas.span (y0 + i) x0 (0 + i * (x1 - x0)) (y1 - y0) x0 (0 + i * (x2 - x0)) (y2 - y0) c

/-- The first `n` rows of the lower loop from row `yb` on, its accumulators written out (R131). -/
def Canvas.scanLower (yb n : Nat) : Canvas → Canvas :=
  forUp n fun i => Canvas.span (yb + i) x1 ((x2 - x1) * (yb - y1) + i * (x2 - x1)) (y2 - y1) x0
    ((x2 - x0) * (yb - y0) + i * (x2 - x0)) (y2 - y0) c

theorem Canvas.scanTriangle_eq : Canvas.scanTriangle x0 y0 x1 y1 x2 y2 c = fun cv =>
    Canvas.scanLower x0 y0 x1 y1 x2 y2 c (y0 + upperRows y0 y1 y2) (y2 + 1 - (y0 + upperRows y0 y1 y2))
      (Canvas.scanUpper x0 y0 x1 y1 x2 y2 c (upperRows y0 y1 y2) cv) := by
  funext cv
  simp only [Canvas.scanTriangle, Scan.forUp_row, Canvas.scanUpper, Canvas.scanLower, upperRows]

variable {x0 y0 x1 y1 x2 y2} (h01 : y0 ≤ y1) (h12 : y1 ≤ y2)
include h01 h12

/-- The upper loop draws the triangle's rows down to the middle vertex's (R131). -/
theorem Canvas.fills_scanUpper {n : Nat} (h0 : 0 < n → y0 < y1) (hn : y0 + n ≤ y1 + 1) :
    Canvas.Fills (fun x y => y < y0 + n ∧ InTriangle x0 y0 x1 y1 x2 y2 x y) c
      (Canvas.scanUpper x0 y0 x1 y1 x2 y2 c n) := by
  refine Canvas.fills_forUp (shapes := fun i x y => y = y0 + i ∧ InTriangle x0 y0 x1 y1 x2 y2 x y)
    (fun i hi => ?_) fun x y _ => ?_
  · exact Canvas.fills_upperRow c (h0 (by omega)) h12 (by omega) (by omega) (by push_cast; ring) (by push_cast; ring)
  · constructor
    · rintro ⟨i, hi, rfl, htri⟩
      exact ⟨by omega, htri⟩
    · rintro ⟨hy, htri⟩
      obtain ⟨hlow, -⟩ := htri.row_range h01 h12
      exact ⟨y - y0, by omega, by omega, htri⟩

/-- The lower loop draws the triangle's rows from `yb` on (R131). -/
theorem Canvas.fills_scanLower {yb n : Nat} (h1 : 0 < n → y1 < y2) (hyb : y1 ≤ yb) (hn : n = y2 + 1 - yb) :
    Canvas.Fills (fun x y => yb ≤ y ∧ InTriangle x0 y0 x1 y1 x2 y2 x y) c
      (Canvas.scanLower x0 y0 x1 y1 x2 y2 c yb n) := by
  refine Canvas.fills_forUp (shapes := fun i x y => y = yb + i ∧ InTriangle x0 y0 x1 y1 x2 y2 x y)
    (fun i hi => ?_) fun x y _ => ?_
  · exact Canvas.fills_lowerRow c h01 (h1 (by omega)) (by omega) (by omega) (by push_cast; ring) (by push_cast; ring)
  · constructor
    · rintro ⟨i, hi, rfl, htri⟩
      exact ⟨by omega, htri⟩
    · rintro ⟨hy, htri⟩
      obtain ⟨-, hhigh⟩ := htri.row_range h01 h12
      exact ⟨y - yb, by omega, by omega, htri⟩

/-- The two loops together draw the triangle of three sorted vertices (R131). -/
theorem Canvas.fills_scanTriangle (h02 : y0 < y2) :
    Canvas.Fills (InTriangle x0 y0 x1 y1 x2 y2) c (Canvas.scanTriangle x0 y0 x1 y1 x2 y2 c) := by
  rw [Canvas.scanTriangle_eq]
  have hrows : upperRows y0 y1 y2 = if y1 = y2 then y1 + 1 - y0 else y1 - y0 := rfl
  generalize upperRows y0 y1 y2 = n at hrows ⊢
  have hupper := Canvas.fills_scanUpper (x0 := x0) (x1 := x1) (x2 := x2) c h01 h12 (n := n)
    (by split at hrows <;> omega) (by split at hrows <;> omega)
  have hlower := Canvas.fills_scanLower (x0 := x0) (x1 := x1) (x2 := x2) c h01 h12 (yb := y0 + n)
    (by split at hrows <;> omega) (by split at hrows <;> omega) rfl
  refine hupper.comp hlower fun x y _ => ?_
  rw [← or_and_right, and_iff_right (lt_or_ge y (y0 + n))]

end

/-! ## The command -/

/-- The filled triangle is exactly the closed triangle of its vertices, in any order (R131). -/
theorem Canvas.fills_fillTriangle (p0 p1 p2 : Nat × Nat) (c : Colour) :
    Canvas.Fills (InHull p0 p1 p2) c (Canvas.fillTriangle p0 p1 p2 c) := by
  obtain ⟨⟨x0, y0⟩, ⟨x1, y1⟩, ⟨x2, y2⟩, hsort, h01, h12, hhull⟩ := sortVertices_spec p0 p1 p2
  unfold Canvas.fillTriangle
  simp only [hsort] at h01 h12 ⊢
  by_cases hflat : y0 = y2
  · obtain rfl : y1 = y0 := by omega
    subst hflat
    simp only [if_true]
    refine (Canvas.fills_hLine _ y1 _).congr fun x y _ => ?_
    rw [← hhull, InHull, inTriangle_row]
    omega
  · simp only [if_neg hflat]
    exact (Canvas.fills_scanTriangle c h01 h12 (by omega)).congr fun x y _ => hhull x y

/-- FTRI draws the closed triangle of its vertices (R131). -/
theorem ftri_result (c : Colour) (x0 y0 x1 y1 x2 y2 : Byte) {s : State} (hs : s.fb.wf) :
    ∃ t, exec (.ftri c x0 y0 x1 y1 x2 y2) s = .next t ∧ OnlyDrew s t ∧
      Drew s t (InTriangle x0.toNat y0.toNat x1.toNat y1.toNat x2.toNat y2.toNat) fun _ _ => c :=
  State.draw_result (exec_ftri c s x0 y0 x1 y1 x2 y2) (Canvas.fills_fillTriangle (_, _) (_, _) (_, _) c) hs

/-- Settles O35, by `ftri_result`. -/
theorem ftriStaysInTheTriangle : Obligations.FtriStaysInTheTriangle := by
  intro c x0 y0 x1 y1 x2 y2 s hs
  obtain ⟨t, hexec, honly, hdrew⟩ := ftri_result c x0 y0 x1 y1 x2 y2 hs
  refine ⟨t, hexec, honly, hdrew.outside, fun px py hon => ?_, hdrew.bytes, hdrew.transmit⟩
  by_cases htri : InTriangle x0.toNat y0.toNat x1.toNat y1.toNat x2.toNat y2.toNat px py
  · exact .inr (hdrew.inside px py hon htri)
  · exact .inl (hdrew.outside px py hon htri)

/-- Settles O36, by `ftri_result`. -/
theorem ftriCoversTheTriangle : Obligations.FtriCoversTheTriangle := by
  intro c x0 y0 x1 y1 x2 y2 s hs
  obtain ⟨t, hexec, -, hdrew⟩ := ftri_result c x0 y0 x1 y1 x2 y2 hs
  exact ⟨t, hexec, hdrew.inside⟩

end Sys2Proof.Machine
end

section
/-! PROOFS. The circle commands (spec/41_rasterizer.md R132 to R134): the midpoint walk keeps an invariant
(`OctantWalk`), by which it visits each octant point of the circle once. -/

namespace Sys2Proof.Machine

open Config

/-! ## The octant points -/

/-- `(x, y)` is one of the symmetric pixels of the octant point `(a, b)` in a quadrant that the mask enables (R132). -/
abbrev InEnabledQuadrant (xc yc : Int) (q : BitVec 4) (a b x y : Nat) : Prop :=
  (q.getLsbD 0 = true ∧ InQuadrant xc yc (-1) (-1) a b x y) ∨
  (q.getLsbD 1 = true ∧ InQuadrant xc yc 1 (-1) a b x y) ∨
  (q.getLsbD 2 = true ∧ InQuadrant xc yc 1 1 a b x y) ∨
  (q.getLsbD 3 = true ∧ InQuadrant xc yc (-1) 1 a b x y)

/-- The ordinates of octant points do not rise with the abscissa. -/
theorem OnOctant.le_of_le {r a b a' b' : Nat} (h : OnOctant r a b) (h' : OnOctant r a' b') (ha : a ≤ a') :
    b' ≤ b := by
  obtain ⟨-, hlow, -⟩ := h
  obtain ⟨-, -, hhigh | ⟨rfl, rfl⟩⟩ := h'
  · by_contra hlt
    nlinarith [Nat.mul_le_mul ha ha, Nat.mul_le_mul (Nat.lt_of_not_le hlt) (Nat.lt_of_not_le hlt)]
  · exact Nat.zero_le b

/-- Each abscissa has at most one octant point. -/
theorem OnOctant.unique {r a b b' : Nat} (h : OnOctant r a b) (h' : OnOctant r a b') : b' = b :=
  le_antisymm (h.le_of_le h' le_rfl) (h'.le_of_le h le_rfl)

/-! ## The walk -/

/-- The walk of R132 at `(x, y)`: the discriminant is that of the midpoint below the next point, `(x, y)` is the octant
point of `x` until `x` passes `y`, and no octant point from `x` on lies above `y`. -/
structure OctantWalk (r x : Nat) (y d : Int) : Prop where
  discriminant : d = (x + 1) * (x + 1) + y * y - y - r * r
  here : ∀ b : Nat, y = b → x ≤ b → OnOctant r x b
  ahead : ∀ a b, x ≤ a → OnOctant r a b → (b : Int) ≤ y

theorem OctantWalk.start (r : Nat) : OctantWalk r 0 r (1 - r) where
  discriminant := by push_cast; ring
  here := by
    intro b hb _
    obtain rfl : r = b := Int.natCast_inj.1 hb
    refine ⟨Nat.zero_le r, by omega, ?_⟩
    omega
  ahead := by
    rintro a b - ⟨-, -, hhigh | ⟨rfl, rfl⟩⟩
    · by_contra hlt
      nlinarith
    · exact le_rfl

/-- A negative discriminant: the next octant point has the same ordinate (R132). -/
theorem OctantWalk.next_of_neg {r x : Nat} {y d : Int} (h : OctantWalk r x y d) (hxy : x ≤ y) (hd : d < 0) :
    OctantWalk r (x + 1) y (d + 2 * x + 3) where
  discriminant := by rw [h.discriminant]; push_cast; ring
  here := by
    rintro b rfl hb
    obtain ⟨-, hlow, -⟩ := h.here b rfl (by omega)
    have hneg := h.discriminant ▸ hd
    refine ⟨hb, by nlinarith, .inl ?_⟩
    zify
    linarith
  ahead := fun a b ha hab => h.ahead a b (by omega) hab

/-- A discriminant that is not negative: the next octant point lies one lower (R132). -/
theorem OctantWalk.next_of_not_neg {r x : Nat} {y d : Int} (h : OctantWalk r x y d) (hxy : x ≤ y) (hd : ¬ d < 0) :
    OctantWalk r (x + 1) (y - 1) (d + 2 * (x - y) + 5) where
  discriminant := by rw [h.discriminant]; push_cast; ring
  here := by
    intro b hb hxb
    obtain rfl : y = (b + 1 : Nat) := by omega
    obtain ⟨-, -, hhigh | ⟨-, hzero⟩⟩ := h.here (b + 1) rfl (by omega)
    · have hge := h.discriminant ▸ hd
      push_cast at hge
      refine ⟨hxb, ?_, .inl ?_⟩
      · zify; linarith
      · nlinarith
    · omega
  ahead := by
    intro a b ha hab
    have hle := h.ahead a b (by omega) hab
    by_contra hlt
    obtain rfl : y = b := by omega
    obtain ⟨hle', -, hhigh | ⟨-, rfl⟩⟩ := hab
    · have hge := h.discriminant ▸ hd
      zify at hhigh ha
      nlinarith
    · omega

/-! ## What the walk draws -/

/-- The pixels of the octant points from abscissa `x` on, in the enabled quadrants. -/
abbrev OnCircleFrom (xc yc r : Nat) (q : BitVec 4) (x px py : Nat) : Prop :=
  ∃ a b, x ≤ a ∧ OnOctant r a b ∧ InEnabledQuadrant xc yc q a b px py

/-- Past the diagonal no octant point is left. -/
theorem OctantWalk.not_onCircleFrom {r x : Nat} {y d : Int} (h : OctantWalk r x y d) (hxy : ¬ x ≤ y)
    (xc yc : Nat) (q : BitVec 4) (px py : Nat) : ¬ OnCircleFrom xc yc r q x px py := by
  rintro ⟨a, b, ha, hab, -⟩
  have hle := h.ahead a b ha hab
  have hdiag := hab.1
  omega

/-- The pixels from `x` on are those of the octant point of `x` and those from `x + 1` on. -/
theorem OnOctant.onCircleFrom_iff {r x y : Nat} (h : OnOctant r x y) (xc yc : Nat) (q : BitVec 4) (px py : Nat) :
    InEnabledQuadrant xc yc q x y px py ∨ OnCircleFrom xc yc r q (x + 1) px py ↔ OnCircleFrom xc yc r q x px py := by
  constructor
  · rintro (hpx | ⟨a, b, ha, hab, hpx⟩)
    · exact ⟨x, y, le_rfl, h, hpx⟩
    · exact ⟨a, b, by omega, hab, hpx⟩
  · rintro ⟨a, b, ha, hab, hpx⟩
    rcases ha.eq_or_lt with rfl | hlt
    · obtain rfl := h.unique hab
      exact .inl hpx
    · exact .inr ⟨a, b, hlt, hab, hpx⟩

section
variable (xc yc : Int) (q : BitVec 4) (c : Colour) {fuel : Nat} {x y d : Int}

theorem Canvas.circleFrom_of_neg (hxy : x ≤ y) (hd : d < 0) : Canvas.circleFrom xc yc q c (fuel + 1) x y d =
    fun cv => Canvas.circleFrom xc yc q c fuel (x + 1) y (d + 2 * x + 3) (cv.circlePoints xc yc x y q c) := by
  funext cv
  simp only [Canvas.circleFrom, if_pos hxy, if_pos hd]

theorem Canvas.circleFrom_of_not_neg (hxy : x ≤ y) (hd : ¬ d < 0) : Canvas.circleFrom xc yc q c (fuel + 1) x y d =
    fun cv => Canvas.circleFrom xc yc q c fuel (x + 1) (y - 1) (d + 2 * (x - y) + 5)
      (cv.circlePoints xc yc x y q c) := by
  funext cv
  simp only [Canvas.circleFrom, if_pos hxy, if_neg hd]

theorem Canvas.circleFrom_of_lt (hxy : ¬ x ≤ y) : Canvas.circleFrom xc yc q c fuel x y d = id := by
  funext cv
  cases fuel with
  | zero => rfl
  | succ fuel => rw [Canvas.circleFrom, if_neg hxy]; rfl

end

/-- The walk from `(x, y)` draws the pixels of the octant points from `x` on (R132). -/
theorem Canvas.fills_circleFrom {xc yc r x fuel : Nat} {y d : Int} (q : BitVec 4) (c : Colour)
    (h : OctantWalk r x y d) (hfuel : y < x + fuel) :
    Canvas.Fills (OnCircleFrom xc yc r q x) c (Canvas.circleFrom xc yc q c fuel x y d) := by
  induction fuel generalizing x y d with
  | zero => exact Canvas.fills_id fun px py _ => h.not_onCircleFrom (by omega) xc yc q px py
  | succ fuel ih =>
    by_cases hxy : x ≤ y
    · obtain ⟨b, rfl⟩ := Int.eq_ofNat_of_zero_le (show 0 ≤ y by omega)
      have hpoint := h.here b rfl (by omega)
      have hpoints := Canvas.fills_circlePoints xc yc x b q c
      by_cases hd : d < 0
      · rw [Canvas.circleFrom_of_neg _ _ _ _ hxy hd]
        exact hpoints.comp (ih (h.next_of_neg hxy hd) (by push_cast; omega)) fun px py _ =>
          hpoint.onCircleFrom_iff xc yc q px py
      · rw [Canvas.circleFrom_of_not_neg _ _ _ _ hxy hd]
        exact hpoints.comp (ih (h.next_of_not_neg hxy hd) (by push_cast; omega)) fun px py _ =>
          hpoint.onCircleFrom_iff xc yc q px py
    · rw [Canvas.circleFrom_of_lt _ _ _ _ hxy]
      exact Canvas.fills_id fun px py _ => h.not_onCircleFrom hxy xc yc q px py

/-- `CircleWalk` draws the circle in the enabled quadrants (R132). -/
theorem Canvas.fills_circleWalk (xc yc r : Nat) (q : BitVec 4) (c : Colour) :
    Canvas.Fills (OnCircle xc yc r q) c (Canvas.circleWalk xc yc r q c) := by
  refine (Canvas.fills_circleFrom q c (.start r) (by omega)).congr fun px py _ => ?_
  simp only [OnCircle, OnCircleFrom, Nat.zero_le, true_and]

/-! ## CIRCLE and PCIRCLE -/

/-- Settles O37, by `Canvas.fills_circleWalk` with all four quadrants enabled. -/
theorem circleResult : Obligations.CircleResult := by
  intro c xc yc r s hs
  exact State.draw_result (exec_circle c s xc yc r) (Canvas.fills_circleWalk _ _ _ _ c) hs

/-- Settles O38, by `Canvas.fills_circleWalk`. -/
theorem pcircleResult : Obligations.PcircleResult := by
  intro c xc yc r corners s hs
  exact State.draw_result (exec_pcircle c s xc yc r corners) (Canvas.fills_circleWalk _ _ _ _ c) hs

end Sys2Proof.Machine
end

section
/-! PROOFS. The family of the blitter (spec/42_blitter.md R160 to R164): BLIT and BLITF, both said as painting the same
bitmap, and the one glyph of PRINTAT (spec/43_text.md R180), which is a blit at the position after the wrap. -/

namespace Sys2Proof.Machine

open Config

/-! ## From a painted shape to a command -/

/-- Pixel `(x, y)` is in the bitmap of the given size at `(x0, y0)`. -/
abbrev InBitmap (x0 y0 width height x y : Nat) : Prop := x0 ≤ x ∧ x < x0 + width ∧ y0 ≤ y ∧ y < y0 + height

section
variable {shape : Nat → Nat → Prop} {colour : Nat → Nat → Colour}

/-- `State.draw_result` with a colour for each pixel. -/
theorem State.paint_result {i : Instr} {s : State} {p : Canvas → Canvas}
    (hexec : exec i s = .next ((s.draw p).respond .ok 0x00)) (hpaints : Canvas.Paints (Holds shape) shape colour p)
    (hs : s.fb.wf) : ∃ t, exec i s = .next t ∧ OnlyDrew s t ∧ Drew s t shape colour :=
  ⟨_, hexec, State.draw_onlyDrew s p, hpaints.drew hs⟩

theorem not_holds_of_ge {i : Nat} (hi : FBSIZE ≤ i) : ¬ Holds shape i := fun ⟨_, _, hon, _, hindex⟩ =>
  (hindex ▸ pixelIndex_lt hon).not_ge hi

/-- What a shape is painted with decides the framebuffer: it does not matter by which procedure. -/
theorem Canvas.Painted.mem_unique {cv cv₁ cv₂ : Canvas} (h₁ : Canvas.Painted (Holds shape) shape colour cv cv₁)
    (h₂ : Canvas.Painted (Holds shape) shape colour cv cv₂) : cv₁.mem = cv₂.mem := by
  have hpixel : ∀ x y, OnScreen x y → cv₁.mem.pixel x y = cv₂.mem.pixel x y := fun x y hon => by
    by_cases hxy : shape x y
    · rw [h₁.inside x y hon hxy, h₂.inside x y hon hxy]
    · rw [h₁.outside x y hon hxy, h₂.outside x y hon hxy]
  refine Memory.ext_read h₁.wf h₂.wf fun i => ?_
  rcases Nat.lt_or_ge i FBSIZE with hi | hi
  · exact Memory.read_eq_of_pixels hpixel hi
  · exact (h₁.bytes i (not_holds_of_ge hi)).trans (h₂.bytes i (not_holds_of_ge hi)).symm

end

/-! ## BLIT -/

/-- Settles O39, by `Canvas.paints_blitPixels`; `State.srcBit` is the bit of R162. -/
theorem blitResult : Obligations.BlitResult := by
  intro addr x0 y0 width height s hs
  exact State.paint_result (exec_blit s addr x0 y0 width height)
    (Canvas.paints_blitPixels (s.srcBit addr.toNat width.toNat) _ _ _ _) hs

/-! ## BLITF -/

/-- Byte `i` of bank row `k` of the bitmap of width `w` at `base` in SRC (R163). -/
def State.srcByte (s : State) (base w k i : Nat) : Byte := s.memRead (base + k * w + i)

/-- BLIT reads its bits from the bytes that BLITF copies (R49, R163). -/
theorem State.srcBit_eq (s : State) (base w i j : Nat) :
    s.srcBit base w i j = (s.srcByte base w (j / 8) i).getLsbD (j % 8) := rfl

theorem exec_blitf_srcByte (s : State) (addr : SrcAddr) (x0 y0 w h : Byte) : exec (.blitf addr x0 y0 w h) s =
    .next ((s.draw (Canvas.blitAligned (s.srcByte addr.toNat w.toNat) x0.toNat y0.toNat w.toNat h.toNat)).respond
      .ok 0x00) := exec_blitf s addr x0 y0 w h

section
variable {x0 y0 width height : Nat}

theorem clip_of_onScreen (h : OnScreen x0 y0) :
    clip x0 y0 width height = (min width (W - x0), min height (H - y0)) :=
  if_neg fun hoff => hoff.elim h.1.not_ge h.2.not_ge

theorem clip_of_not_onScreen (h : ¬ OnScreen x0 y0) : clip x0 y0 width height = (0, 0) :=
  if_pos (by simpa only [not_and_or, not_lt] using h)

theorem Canvas.blitAligned_of_aligned (get : Nat → Nat → Byte) (hy0 : y0 % 8 = 0) (hheight : height % 8 = 0) :
    Canvas.blitAligned get x0 y0 width height = Canvas.blitBytes get x0 y0 (clip x0 y0 width height) :=
  funext fun _ => if_neg fun h => h.elim (· hy0) (· hheight)

theorem Canvas.blitAligned_of_unaligned (get : Nat → Nat → Byte) (h : ¬ (y0 % 8 = 0 ∧ height % 8 = 0)) :
    Canvas.blitAligned get x0 y0 width height = id := funext fun _ => if_pos (not_and_or.1 h)

/-- Aligned, the whole-byte copy paints the bitmap as BLIT does: rows `8k` to `8k + 7` of its column `i` hold the byte
`get k i` (R163, R164). -/
theorem Canvas.paints_blitAligned (get : Nat → Nat → Byte) (hy0 : y0 % 8 = 0) (hheight : height % 8 = 0) :
    Canvas.Paints (Holds (InBitmap x0 y0 width height)) (InBitmap x0 y0 width height)
      (fun x y => (get ((y - y0) / 8) (x - x0)).getLsbD ((y - y0) % 8))
      (Canvas.blitAligned get x0 y0 width height) := by
  rw [Canvas.blitAligned_of_aligned get hy0 hheight]
  by_cases hon : OnScreen x0 y0
  · have hx := hon.1
    rw [clip_of_onScreen hon]
    refine (Canvas.paints_blitBytes get x0 y0 _ (by simp only [W] at *; omega)).congr ?_ ?_ ?_
    · rintro a ⟨k, hk, i, hi, rfl⟩
      refine ⟨x0 + i, y0 + 8 * k, ?_, ?_, ?_⟩ <;> simp only [OnScreen, InBitmap, pixelIndex, W, H] at * <;> omega
    · rintro x y ⟨hx', hy'⟩
      simp only [W, H] at *
      omega
    · rintro x y - ⟨-, -, hle, -⟩
      rw [show (y - y0) / 8 = y / 8 - y0 / 8 by omega, show (y - y0) % 8 = y % 8 by omega]
  · rw [clip_of_not_onScreen hon]
    exact Canvas.paints_id fun x y hxy hin => hon ⟨hin.1.trans_lt hxy.1, hin.2.2.1.trans_lt hxy.2⟩

/-- Byte `i` of bank row `k` of the aligned bitmap is in it and lands on the screen (R163). -/
abbrev ByteLands (x0 y0 width height k i : Nat) : Prop :=
  k < height / 8 ∧ i < width ∧ y0 / 8 + k < NBANK ∧ x0 + i < W

/-- Each framebuffer byte with a pixel of the aligned bitmap is one of the bytes BLITF copies to. -/
theorem exists_byteLands_of_holds (hy0 : y0 % 8 = 0) (hheight : height % 8 = 0) {a : Nat}
    (h : Holds (InBitmap x0 y0 width height) a) :
    ∃ k i, ByteLands x0 y0 width height k i ∧ a = (y0 / 8 + k) * W + x0 + i := by
  obtain ⟨x, y, ⟨hx, hy⟩, hin, rfl⟩ := h
  refine ⟨y / 8 - y0 / 8, x - x0, ?_, ?_⟩ <;> simp only [ByteLands, pixelIndex, W, H, NBANK] at * <;> omega

/-- A byte that lands is the eight pixels of its column and bank (R41). -/
theorem ByteLands.pixel {k i b : Nat} (h : ByteLands x0 y0 width height k i) (hy0 : y0 % 8 = 0) (hb : b < 8) :
    OnScreen (x0 + i) (y0 + (8 * k + b)) ∧ InBitmap x0 y0 width height (x0 + i) (y0 + (8 * k + b)) ∧
      pixelIndex (x0 + i) (y0 + (8 * k + b)) = (y0 / 8 + k) * W + x0 + i ∧ (y0 + (8 * k + b)) % 8 = b := by
  obtain ⟨hk, hi, hbank, hx⟩ := h
  simp only [OnScreen, W, H, NBANK, pixelIndex] at *
  omega

/-- After the aligned bitmap has been drawn, a byte of it that lands stands in the framebuffer as it is. -/
theorem Drew.byte_of_lands {s t : State} {get : Nat → Nat → Byte} {k i : Nat}
    (h : Drew s t (InBitmap x0 y0 width height) fun x y => (get ((y - y0) / 8) (x - x0)).getLsbD ((y - y0) % 8))
    (hlands : ByteLands x0 y0 width height k i) (hy0 : y0 % 8 = 0) :
    t.fbByte ((y0 / 8 + k) * W + x0 + i) = get k i := by
  refine BitVec.eq_of_getLsbD_eq fun b hb => ?_
  obtain ⟨hon, hin, hindex, hbit⟩ := hlands.pixel hy0 hb
  have hpixel := h.inside _ _ hon hin
  rwa [State.pixel, Memory.pixel, hindex, hbit, Nat.add_sub_cancel_left, Nat.add_sub_cancel_left,
    Nat.mul_add_div (by decide), Nat.mul_add_mod, Nat.div_eq_of_lt hb, Nat.mod_eq_of_lt hb] at hpixel

end

/-- Settles O40: aligned, by `Canvas.paints_blitAligned` read byte by byte; else BLITF writes nothing, so a data frame
in flight keeps its bytes too (R243). -/
theorem blitfResult : Obligations.BlitfResult := by
  intro addr x0 y0 width height s hs
  refine ⟨_, exec_blitf_srcByte s addr x0 y0 width height, State.draw_onlyDrew s _, ?_⟩
  split
  next haligned =>
    obtain ⟨hy0, hheight⟩ := haligned
    have hdrew := (Canvas.paints_blitAligned (x0 := x0.toNat) (width := width.toNat)
      (s.srcByte addr.toNat width.toNat) hy0 hheight).drew hs
    refine ⟨fun k i hlands => hdrew.byte_of_lands hlands hy0, fun a hnot => hdrew.bytes a fun hholds => ?_,
      hdrew.transmit.mono fun a => exists_byteLands_of_holds hy0 hheight⟩
    obtain ⟨k, i, hlands, ha⟩ := exists_byteLands_of_holds hy0 hheight hholds
    exact hnot k i hlands ha
  next hunaligned =>
    rw [Canvas.blitAligned_of_unaligned _ hunaligned]
    exact ⟨rfl, s.txAfterWrites_nil⟩

/-- Settles O41: both commands paint the bitmap with the same bits (`Canvas.Painted.mem_unique`). -/
theorem alignedBlitsAgree : Obligations.AlignedBlitsAgree := by
  intro addr x0 y0 width height s hs hy0 hheight
  refine ⟨_, _, exec_blit s addr x0 y0 width height, exec_blitf_srcByte s addr x0 y0 width height, ?_⟩
  have hblit := Canvas.paints_blitPixels (s.srcBit addr.toNat width.toNat) x0.toNat y0.toNat width.toNat height.toNat
  have hblitf := Canvas.paints_blitAligned (x0 := x0.toNat) (width := width.toNat)
    (s.srcByte addr.toNat width.toNat) hy0 hheight
  simp only [State.srcBit_eq] at hblit
  exact (hblit s.canvas hs).mem_unique (hblitf s.canvas hs)

/-! ## PRINTAT of one glyph -/

/-- A printable character is no line break: it is drawn, after a wrap where needed (R180). -/
theorem Placer.char_of_printable {ch : Byte} (hprint : printable ch = true) (fw : Nat) (glyph : Nat → List Byte)
    (p : Placer) : p.char fw glyph ch = (p.wrap fw).putGlyph fw (glyph (ch.toNat - 0x20)) := by
  have hne : ch ≠ NEWLINE := by
    rintro rfl
    exact absurd hprint (by decide)
  rw [Placer.char, if_neg hne, if_pos hprint]

/-- The position after the wrap test, and the canvas as it was (R180). -/
theorem Placer.wrap_eq (fw : Nat) (p : Placer) : p.wrap fw = ⟨p.canvas, if W < p.px + fw then 0 else p.px,
    if W < p.px + fw then (if H ≤ p.py + 8 then 0 else p.py + 8) else p.py⟩ := by
  rw [Placer.wrap]
  split <;> rfl

theorem State.memRead_toNat (s : State) (addr : SrcAddr) : s.memRead addr.toNat = s.src.read addr.toNat := by
  rw [State.memRead, Nat.mod_eq_of_lt addr.isLt]

/-- The blit of a glyph's columns paints the opaque cell `fw` wide and 8 high at `(px, py)` (R161, R180). -/
theorem Canvas.paints_cell (cols : List Byte) (px py fw : Nat) :
    Canvas.Paints (Holds (InBitmap px py fw 8)) (InBitmap px py fw 8)
      (fun i j => (cols.getD (i - px) 0).getLsbD (j - py))
      (Canvas.blitPixels (fun i r => (cols.getD i 0).getLsbD r) px py (clip px py fw 8)) :=
  Canvas.paints_blitPixels (fun i r => (cols.getD i 0).getLsbD r) px py fw 8

/-- A text of one printable character is one blit of its glyph's cell at the wrapped position (R180). -/
theorem State.placeText_one {s : State} {addr : SrcAddr} (hprint : printable (s.src.read addr.toNat) = true) {f : Font}
    {x y px py : Nat} (hwrap : Placer.wrap f.width ⟨s.canvas, x, y⟩ = ⟨s.canvas, px, py⟩) (inv : Bool) :
    s.placeText f inv addr.toNat 1 x y =
      (s.draw (Canvas.blitPixels
        (fun i r => ((decodeGlyph s.cfg f ((s.src.read addr.toNat).toNat - 0x20) 0 inv).getD i 0).getLsbD r)
        px py (clip px py f.width 8))).respond .ok 0x00 := by
  have htext : s.text addr.toNat 1 = [s.src.read addr.toNat] := by rw [State.text_succ, State.memRead_toNat]; rfl
  rw [State.placeText, htext, Placer.print, List.foldl_cons, List.foldl_nil, Placer.char_of_printable hprint, hwrap]
  rfl

/-- Settles O51: one glyph is one cell (`Canvas.paints_cell`) at the position of `Placer.wrap_eq`. -/
theorem printatBlitsOneGlyph : Obligations.PrintatBlitsOneGlyph := by
  intro tinv font addr x y s f hs hf hlow hhigh wraps px py
  have hprint := (printable_iff _).2 ⟨hlow, hhigh⟩
  have hwrap : Placer.wrap f.width ⟨s.canvas, x.toNat, y.toNat⟩ = ⟨s.canvas, px, py⟩ := Placer.wrap_eq _ _
  have hexec := exec_printat s hf tinv addr 1 x y
  rw [show (1 : Byte).toNat = 1 from rfl, State.placeText_one hprint hwrap] at hexec
  exact State.paint_result hexec (Canvas.paints_cell _ px py f.width) hs

end Sys2Proof.Machine
end

section
/-! PROOFS. The family of the text engine (spec/43_text.md R170 to R182): the glyph decoder, SETCUR, PRINTC and PRINTAT.
What one character does to the printer and to the placer is said once for each kind of character; a text is its
characters one after another. -/

namespace Sys2Proof.Machine

open Config

/-! ## The glyph decoder -/

/-- Column `k` of a small glyph is the 6-bit group `k` of the stream, lowest group first (R172). -/
theorem unpackSmall_getD (b0 b1 b2 : Byte) {k : Nat} (hk : k < 4) :
    (unpackSmall b0 b1 b2).getD k 0 = (b2 ++ b1 ++ b0).extractLsb' (6 * k) 6 := by
  interval_cases k <;> rfl

/-- The stream's number: `b0` is least significant (R172). -/
theorem stream_toNat (b0 b1 b2 : Byte) :
    (b2 ++ b1 ++ b0).toNat = b0.toNat + 256 * b1.toNat + 65536 * b2.toNat := by
  rw [BitVec.toNat_append, append_bytes_toNat, ← Nat.shiftLeft_add_eq_or_of_lt b0.isLt, Nat.shiftLeft_eq]
  ring

/-- The packing of R172 puts the four columns into the stream one after another, the first one lowest. -/
theorem stream_of_packed (c0 c1 c2 c3 : BitVec 6) :
    ((c2.setWidth 8 >>> 4) ||| (c3.setWidth 8 <<< 2) : Byte) ++
      ((c1.setWidth 8 >>> 2) ||| ((c2.setWidth 8 &&& 0x0F) <<< 4) : Byte) ++
      (c0.setWidth 8 ||| ((c1.setWidth 8 &&& 0x03) <<< 6) : Byte) = c3 ++ c2 ++ c1 ++ c0 := by
  refine BitVec.eq_of_getLsbD_eq fun i hi => ?_
  change _ = (c3 ++ c2 ++ c1 ++ c0).getLsbD i
  simp only [BitVec.getLsbD_append]
  interval_cases i <;> simp [-BitVec.getLsbD_eq_getElem]

/-- The 6-bit groups of a stream of four columns are the columns. -/
theorem groups_of_stream (c0 c1 c2 c3 : BitVec 6) :
    (c3 ++ c2 ++ c1 ++ c0).extractLsb' 0 6 = c0 ∧ (c3 ++ c2 ++ c1 ++ c0).extractLsb' 6 6 = c1 ∧
      (c3 ++ c2 ++ c1 ++ c0).extractLsb' 12 6 = c2 ∧ (c3 ++ c2 ++ c1 ++ c0).extractLsb' 18 6 = c3 := by
  refine ⟨BitVec.extractLsb'_append_eq_right, ?_, ?_, ?_⟩
  · exact (BitVec.extractLsb'_append_eq_of_le (by decide)).trans BitVec.extractLsb'_append_eq_right
  · exact (BitVec.extractLsb'_append_eq_of_le (by decide)).trans
      ((BitVec.extractLsb'_append_eq_of_le (by decide)).trans BitVec.extractLsb'_append_eq_right)
  · exact (BitVec.extractLsb'_append_eq_of_le (by decide)).trans
      ((BitVec.extractLsb'_append_eq_of_le (by decide)).trans BitVec.extractLsb'_append_eq_left)

/-- Settles O42: a column is a group of the stream (`unpackSmall_getD`), and packed columns are the stream's groups. -/
theorem unpackFollowsTheStream : Obligations.UnpackFollowsTheStream := by
  refine ⟨fun b0 b1 b2 => ⟨rfl, fun k b hk hb => ?_⟩, fun c0 c1 c2 c3 => ?_⟩
  · rw [unpackSmall_getD b0 b1 b2 hk, BitVec.getLsbD_extractLsb', decide_eq_true hb, Bool.true_and, ← stream_toNat]
    rfl
  · obtain ⟨h0, h1, h2, h3⟩ := groups_of_stream c0 c1 c2 c3
    rw [unpackSmall, stream_of_packed, h0, h1, h2, h3]

/-- Bit `b` of a decoded column: the stored column shifted, then complemented (R174 to R176). -/
theorem decodeGlyph_getLsbD (cfg : Config) (f : Font) (g sh : Nat) (inv : Bool) {k b : Nat} (hk : k < f.width)
    (hb : b < 8) : ((decodeGlyph cfg f g sh inv).getD k 0).getLsbD b =
      (inv ^^ (decide (sh ≤ b) && ((glyphColumns cfg f g).getD k 0).getLsbD (b - sh))) := by
  rw [← glyphColumns_length cfg f g] at hk
  rw [decodeGlyph, List.getD_eq_getElem _ _ (by rwa [List.length_map]), List.getElem_map, List.getD_eq_getElem _ _ hk]
  have hshift (col : Byte) : (col <<< sh).getLsbD b = (decide (sh ≤ b) && col.getLsbD (b - sh)) := by
    rw [BitVec.getLsbD_shiftLeft]
    grind
  cases inv with
  | false => exact (hshift _).trans (Bool.false_xor _).symm
  | true =>
    rw [if_pos rfl, show (0xFF : Byte) = BitVec.allOnes 8 from rfl, BitVec.xor_allOnes, BitVec.getLsbD_not, hshift]
    simp [hb]

/-- Bit `b` of a small glyph's stored column is that of the unpacked group (R172). -/
theorem glyphColumns_small_getLsbD (cfg : Config) (g : Nat) {k : Nat} (hk : k < 4) {b : Nat} (hb : b < 8) :
    ((glyphColumns cfg .small g).getD k 0).getLsbD b = ((unpackSmall (fontRead cfg .small g 0)
      (fontRead cfg .small g 1) (fontRead cfg .small g 2)).getD k 0).getLsbD b := by
  have hlen : k < (unpackSmall (fontRead cfg .small g 0) (fontRead cfg .small g 1)
      (fontRead cfg .small g 2)).length := hk
  rw [glyphColumns, List.getD_eq_getElem _ _ (by rwa [List.length_map]), List.getElem_map,
    List.getD_eq_getElem _ _ hlen, BitVec.getLsbD_setWidth, decide_eq_true hb, Bool.true_and]

theorem glyphColumns_medium_getLsbD (cfg : Config) (g : Nat) {k : Nat} (hk : k < 5) (b : Nat) :
    ((glyphColumns cfg .medium g).getD k 0).getLsbD b = (decide (b < 7) && (fontRead cfg .medium g k).getLsbD b) := by
  have hmask : (0x7F : Byte).getLsbD b = decide (b < 7) := by
    rw [show (0x7F : Byte) = BitVec.ofNat 8 (2 ^ 7 - 1) from rfl, BitVec.getLsbD_ofNat, Nat.testBit_two_pow_sub_one]
    grind
  rw [glyphColumns, List.getD_eq_getElem _ _ (by simpa using hk), List.getElem_map, List.getElem_range,
    BitVec.getLsbD_and, hmask, Bool.and_comm]

theorem glyphColumns_large_getD (cfg : Config) (g : Nat) {k : Nat} (hk : k < 6) :
    (glyphColumns cfg .large g).getD k 0 = fontRead cfg .large g k := by
  rw [glyphColumns, List.getD_eq_getElem _ _ (by simpa using hk), List.getElem_map, List.getElem_range]

/-- Settles O44, by `decodeGlyph_getLsbD` and what each font stores. -/
theorem decodeGlyphShiftsThenInverts : Obligations.DecodeGlyphShiftsThenInverts := by
  intro cfg f g sh inv
  refine ⟨decodeGlyph_length cfg f g sh inv, fun k b hk hb => ?_⟩
  rw [decodeGlyph_getLsbD cfg f g sh inv hk hb]
  cases f with
  | small => rw [glyphColumns_small_getLsbD cfg g hk (by omega)]
  | medium => rw [glyphColumns_medium_getLsbD cfg g hk]
  | large => rw [glyphColumns_large_getD cfg g hk]

/-! ## SETCUR and the rejected options -/

/-- Settles O45: a position on the screen fits `CUR_X` and `CUR_Y`, any other is ignored (R177). -/
theorem setcurResult : Obligations.SetcurResult := by
  intro x y s
  rw [exec_setcur]
  split
  · rw [State.setCursor, BitVec.ofNat_toNat, BitVec.ofNat_toNat]
    rfl
  · rfl

/-- Settles O53: only PRINTC and PRINTAT have unsupported options, and both answer them with REJECTED (R181). -/
theorem unsupportedOptionsRejected : Obligations.UnsupportedOptionsRejected := by
  intro i s hwf
  cases i with
  | printc tinv font align addr len => exact exec_printc_of_not_wellFormed hwf s
  | printat tinv font addr len x y =>
    have hfont : fontOfCode font = none :=
      Option.isNone_iff_eq_none.1 (Option.isSome_eq_false_iff.1 ((fontOfCode_isSome font).trans hwf))
    exact exec_printat_unsupported s hfont tinv addr len x y
  | _ => cases hwf

/-! ## The text -/

/-- A text of one character (R182). -/
theorem State.text_one (s : State) (addr : SrcAddr) : s.text addr.toNat 1 = [s.src.read addr.toNat] := by
  rw [State.text_succ, State.memRead_toNat]
  rfl

theorem State.mem_text {s : State} {addr len : Nat} {ch : Byte} :
    ch ∈ s.text addr len ↔ ∃ j < len, s.src.read ((addr + j) % 65536) = ch := by
  simp [State.text, State.memRead]

/-- A character without a glyph (R171). -/
theorem not_printable_iff (ch : Byte) : printable ch = false ↔ ch.toNat < 0x20 ∨ 0x7E < ch.toNat := by
  rw [Bool.eq_false_iff, Ne, printable_iff]
  omega

/-! ## Drawing nothing -/

/-- A canvas that was not written leaves `FB` and `TX` as they were (R243). -/
theorem State.commit_canvas (s : State) : s.commit s.canvas = { s with draws := s.drawsAfterWrites } := by
  rw [State.commit, State.canvas_touched, State.txAfterWrites_nil]
  rfl

/-- A text procedure that draws nothing only moves the cursor. -/
theorem State.printWith_of_canvas {s : State} {p : Printer → Printer} (h : (p s.printer).canvas = s.canvas) :
    s.printWith p = (State.setCursor { s with draws := s.drawsAfterWrites } (p s.printer).x (p s.printer).y).respond
      .ok 0x00 := by
  rw [State.printWith, h, State.commit_canvas]

/-- A text procedure that does nothing only answers OK. -/
theorem State.printWith_of_self {s : State} {p : Printer → Printer} (h : p s.printer = s.printer) :
    s.printWith p = State.respond { s with draws := s.drawsAfterWrites } .ok 0x00 := by
  rw [State.printWith_of_canvas (congrArg Printer.canvas h), h, State.setCursor]
  simp [State.printer]

/-! ## PRINTC -/

section
variable (fw : Nat) (glyph : Nat → List Byte) (p : Printer)

/-- A line break goes to the next line (R178). -/
theorem Printer.char_newline : p.char fw glyph NEWLINE = p.nextLine := if_pos rfl

variable {ch : Byte}

/-- A printable character is drawn, after a wrap where needed (R178, R179). -/
theorem Printer.char_of_printable (hprint : printable ch = true) :
    p.char fw glyph ch = (p.wrap fw).putGlyph fw (glyph (ch.toNat - 0x20)) := by
  have hne : ch ≠ NEWLINE := by
    rintro rfl
    exact absurd hprint (by decide)
  rw [Printer.char, if_neg hne, if_pos hprint]

/-- An unprintable character is skipped (R171). -/
theorem Printer.char_of_skipped (hprint : printable ch = false) (hne : ch ≠ NEWLINE) : p.char fw glyph ch = p := by
  rw [Printer.char, if_neg hne, if_neg (by simp [hprint])]

/-- A character without a glyph draws nothing (R171, R178). -/
theorem Printer.char_canvas (hprint : printable ch = false) : (p.char fw glyph ch).canvas = p.canvas := by
  by_cases hne : ch = NEWLINE
  · rw [hne, Printer.char_newline]
    rfl
  · rw [Printer.char_of_skipped fw glyph p hprint hne]

variable {text : List Byte}

/-- A text without glyphs draws nothing. -/
theorem Printer.print_canvas (htext : ∀ ch ∈ text, printable ch = false) :
    (p.print fw glyph text).canvas = p.canvas :=
  List.foldlRecOn (motive := fun q : Printer => q.canvas = p.canvas) text _ rfl fun q hq _ hch =>
    (q.char_canvas fw glyph (htext _ hch)).trans hq

/-- A text of skipped characters only does nothing (R171). -/
theorem Printer.print_of_skipped (htext : ∀ ch ∈ text, printable ch = false) (hne : ∀ ch ∈ text, ch ≠ NEWLINE) :
    p.print fw glyph text = p :=
  List.foldlRecOn (motive := (· = p)) text _ rfl fun q hq _ hch =>
    (q.char_of_skipped fw glyph (htext _ hch) (hne _ hch)).trans hq

/-- The position after the wrap test, and the canvas as it was (R178). -/
theorem Printer.wrap_eq : p.wrap fw = ⟨p.canvas, if W < p.x + fw then 0 else p.x,
    if W < p.x + fw then (if NBANK ≤ p.y + 1 then 0 else p.y + 1) else p.y⟩ := by
  rw [Printer.wrap]
  split <;> rfl

end

/-- From `cv` to `cv'` the `n` bytes from index `base` on got the values of `v`, and nothing else was written. -/
structure Canvas.StoredRun (base n : Nat) (v : Nat → Byte) (cv cv' : Canvas) : Prop where
  wf : cv'.mem.wf
  inside : ∀ k < n, cv'.byte (base + k) = v k
  outside : ∀ i, ¬ (base ≤ i ∧ i < base + n) → cv'.byte i = cv.byte i
  touched : ∀ i ∈ cv'.touched, i ∈ cv.touched ∨ (base ≤ i ∧ i < base + n)

theorem Canvas.storedRun_forUp {cv : Canvas} (h : cv.mem.wf) (base n : Nat) (v : Nat → Byte) :
    Canvas.StoredRun base n v cv (forUp n (fun k => Canvas.store (base + k) (v k)) cv) := by
  induction n with
  | zero => exact ⟨h, nofun, fun _ _ => rfl, fun _ => .inl⟩
  | succ n ih =>
    refine ⟨Memory.wf_write ih.wf _ _, fun k hk => ?_, fun i hi => ?_, fun i hi => ?_⟩
    · rw [forUp, Canvas.byte_store ih.wf]
      by_cases hkn : k = n
      · rw [if_pos (by omega), hkn]
      · rw [if_neg (by omega), ih.inside k (by omega)]
    · rw [forUp, Canvas.byte_store ih.wf, if_neg (by omega), ih.outside i (by omega)]
    · rcases List.mem_cons.1 hi with rfl | hi
      · exact .inr (by omega)
      · exact (ih.touched i hi).imp_right fun hi => by omega

/-- PRINTC of one character is that character's step at the state's cursor (R179). -/
theorem exec_printc_one (s : State) {font align : BitVec 2} {f : Font} {sh : Nat} (hf : fontOfCode font = some f)
    (hs : alignShift f align = some sh) (tinv : Bool) (addr : SrcAddr) :
    exec (.printc tinv font align addr 1) s = .next (s.printWith
      (Printer.char f.width (fun g => decodeGlyph s.cfg f g sh tinv) (s.src.read addr.toNat))) := by
  rw [exec_printc s hf hs, State.printText_eq, show (1 : Byte).toNat = 1 from rfl, State.text_one]
  rfl

/-- The row after a line break, as a register value (R178). -/
theorem State.nextLine_row (s : State) :
    BitVec.ofNat 3 s.printer.nextLine.y = if 5 ≤ s.curY.toNat then 0 else s.curY + 1 := by
  change BitVec.ofNat 3 (if NBANK ≤ s.curY.toNat + 1 then 0 else s.curY.toNat + 1) = _
  by_cases hlast : 5 ≤ s.curY.toNat
  · rw [if_pos hlast, if_pos (Nat.succ_le_succ hlast)]
    rfl
  · rw [if_neg hlast, if_neg fun h => hlast (Nat.le_of_succ_le_succ h), BitVec.ofNat_add, BitVec.ofNat_toNat,
      BitVec.setWidth_eq]
    rfl

/-- Settles O48: each of the two characters draws nothing (`State.printWith_of_canvas`). -/
theorem printcLineBreakAndSkip : Obligations.PrintcLineBreakAndSkip := by
  intro tinv font align addr s hwf
  obtain ⟨f, sh, hf, hs⟩ := options_of_wellFormed hwf
  refine ⟨fun hbreak => ⟨_, exec_printc_one s hf hs tinv addr, ?_⟩,
    fun hne hskip => ⟨_, exec_printc_one s hf hs tinv addr, ?_⟩⟩
  · have hchar := s.printer.char_newline f.width fun g => decodeGlyph s.cfg f g sh tinv
    rw [hbreak, State.printWith_of_canvas (congrArg Printer.canvas hchar), hchar, State.setCursor, s.nextLine_row]
    rfl
  · have hchar := s.printer.char_of_skipped f.width (fun g => decodeGlyph s.cfg f g sh tinv)
      ((not_printable_iff _).2 hskip) hne
    rw [State.printWith_of_self hchar]
    rfl

/-- Settles O47: the glyph's columns are stored at the wrapped cursor (`Printer.wrap_eq`, `Canvas.storedRun_forUp`). -/
theorem printcStoresOneGlyph : Obligations.PrintcStoresOneGlyph := by
  intro tinv font align addr s f sh hwf hx hy hf hs hlow hhigh wraps x y
  have hprint := (printable_iff _).2 ⟨hlow, hhigh⟩
  have hwrap : s.printer.wrap f.width = ⟨s.canvas, x, y⟩ := by
    rw [Printer.wrap_eq]
    have hlast : NBANK ≤ s.curY.toNat + 1 ↔ s.curY.toNat = 5 := by
      rw [NBANK]
      omega
    simp only [State.printer, hlast]
    rfl
  obtain ⟨hfit, hrange, -⟩ := s.printer.wrap_spec f.width_le
  rw [hwrap] at hfit hrange
  have hrow : y < NBANK := (hrange ⟨hx, hy⟩).2
  have hchar := s.printer.char_of_printable f.width (fun g => decodeGlyph s.cfg f g sh tinv) hprint
  rw [hwrap, Printer.putGlyph, if_pos hrow] at hchar
  have hstored := Canvas.storedRun_forUp (cv := s.canvas) hwf (y * W + x) f.width
    fun k => (decodeGlyph s.cfg f ((s.src.read addr.toNat).toNat - 0x20) sh tinv).getD k 0
  have hexec := exec_printc_one s hf hs tinv addr
  rw [State.printWith, hchar] at hexec
  refine ⟨_, hexec, rfl, ?_, ?_, hstored.inside, hstored.outside, (State.commit_transmit s _).mono fun i hi =>
    (hstored.touched i hi).resolve_left List.not_mem_nil⟩
  · exact Nat.mod_eq_of_lt (hfit.trans_lt (by decide))
  · exact Nat.mod_eq_of_lt (hrow.trans (by decide))

/-! ## PRINTAT -/

section
variable (fw : Nat) (glyph : Nat → List Byte) (p : Placer)

/-- A line break goes to the next line (R180). -/
theorem Placer.char_newline : p.char fw glyph NEWLINE = p.nextLine := if_pos rfl

variable {ch : Byte}

/-- An unprintable character is skipped (R171). -/
theorem Placer.char_of_skipped (hprint : printable ch = false) (hne : ch ≠ NEWLINE) : p.char fw glyph ch = p := by
  rw [Placer.char, if_neg hne, if_neg (by simp [hprint])]

/-- A character without a glyph draws nothing (R171, R180). -/
theorem Placer.char_canvas (hprint : printable ch = false) : (p.char fw glyph ch).canvas = p.canvas := by
  by_cases hne : ch = NEWLINE
  · rw [hne, Placer.char_newline]
    rfl
  · rw [Placer.char_of_skipped fw glyph p hprint hne]

/-- A text without glyphs draws nothing. -/
theorem Placer.print_canvas {text : List Byte} (htext : ∀ ch ∈ text, printable ch = false) :
    (p.print fw glyph text).canvas = p.canvas :=
  List.foldlRecOn (motive := fun q : Placer => q.canvas = p.canvas) text _ rfl fun q hq _ hch =>
    (q.char_canvas fw glyph (htext _ hch)).trans hq

end

/-- Settles O49: a text without glyphs leaves the canvas as it was (`Printer.print_canvas`, `Placer.print_canvas`). -/
theorem textWithoutGlyphsDrawsNothing : Obligations.TextWithoutGlyphsDrawsNothing := by
  intro tinv font align addr len x y s hskip
  have htext : ∀ ch ∈ s.text addr.toNat len.toNat, printable ch = false := by
    intro ch hch
    obtain ⟨j, hj, rfl⟩ := State.mem_text.1 hch
    exact (not_printable_iff _).2 (hskip j hj)
  refine ⟨fun hwf => ?_, fun hwf => ?_⟩
  · obtain ⟨f, sh, hf, hs⟩ := options_of_wellFormed hwf
    have hcanvas := Printer.print_canvas f.width (fun g => decodeGlyph s.cfg f g sh tinv) s.printer htext
    refine ⟨_, exec_printc s hf hs tinv addr len, ?_, fun hbreak => ?_⟩
    · rw [State.printText_eq, State.printWith_of_canvas hcanvas]
      rfl
    · have hne : ∀ ch ∈ s.text addr.toNat len.toNat, ch ≠ NEWLINE := by
        intro ch hch
        obtain ⟨j, hj, rfl⟩ := State.mem_text.1 hch
        exact hbreak j hj
      rw [State.printText_eq, State.printWith_of_self (Printer.print_of_skipped _ _ _ htext hne)]
      exact ⟨rfl, rfl⟩
  · obtain ⟨f, hf⟩ := Option.isSome_iff_exists.1 ((fontOfCode_isSome font).trans hwf)
    refine ⟨_, exec_printat s hf tinv addr len x y, ?_⟩
    rw [State.placeText, Placer.print_canvas _ _ _ htext, State.commit_canvas]
    rfl

/-! ## A text placed character by character -/

/-- What the procedure makes of the framebuffer's bytes does not depend on which indices were written before. -/
def Canvas.IgnoresTouched (p : Canvas → Canvas) : Prop := ∀ cv cv', cv.mem = cv'.mem → (p cv).mem = (p cv').mem

theorem Canvas.ignoresTouched_forUp {n : Nat} {f : Nat → Canvas → Canvas}
    (h : ∀ k < n, Canvas.IgnoresTouched (f k)) : Canvas.IgnoresTouched (forUp n f) := by
  induction n with
  | zero => exact fun _ _ => id
  | succ n ih =>
    exact fun cv cv' hcv => h n n.lt_succ_self _ _ (ih (fun k hk => h k (hk.trans n.lt_succ_self)) cv cv' hcv)

theorem Canvas.ignoresTouched_putPixel (x y : Int) (c : Colour) : Canvas.IgnoresTouched (Canvas.putPixel x y c) := by
  intro cv cv' h
  unfold Canvas.putPixel
  split
  · rw [Canvas.applyMask, Canvas.applyMask, Canvas.store, Canvas.store, Canvas.byte, Canvas.byte, h]
  · exact h

theorem Canvas.ignoresTouched_blitPixels (get : Nat → Nat → Bool) (x0 y0 : Nat) (e : Nat × Nat) :
    Canvas.IgnoresTouched (Canvas.blitPixels get x0 y0 e) :=
  Canvas.ignoresTouched_forUp fun _ _ => Canvas.ignoresTouched_forUp fun _ _ => Canvas.ignoresTouched_putPixel _ _ _

/-- Two placers with the same framebuffer and position; which indices they have written may differ. -/
structure Placer.Same (p q : Placer) : Prop where
  mem : p.canvas.mem = q.canvas.mem
  px : p.px = q.px
  py : p.py = q.py

/-- A character does the same to both, drawn or not. -/
theorem Placer.Same.char {p q : Placer} (h : p.Same q) (fw : Nat) (glyph : Nat → List Byte) (ch : Byte) :
    (p.char fw glyph ch).Same (q.char fw glyph ch) := by
  obtain ⟨hmem, hpx, hpy⟩ := h
  by_cases hbreak : ch = NEWLINE
  · rw [hbreak, Placer.char_newline, Placer.char_newline, Placer.nextLine, Placer.nextLine, hpy]
    exact ⟨hmem, rfl, rfl⟩
  cases hprint : printable ch with
  | false =>
    rw [p.char_of_skipped fw glyph hprint hbreak, q.char_of_skipped fw glyph hprint hbreak]
    exact ⟨hmem, hpx, hpy⟩
  | true =>
    rw [Placer.char_of_printable hprint, Placer.char_of_printable hprint, Placer.wrap_eq, Placer.wrap_eq, hpx, hpy]
    exact ⟨Canvas.ignoresTouched_blitPixels _ _ _ _ _ _ hmem, rfl, rfl⟩

theorem Placer.Same.print (fw : Nat) (glyph : Nat → List Byte) (text : List Byte) {p q : Placer} (h : p.Same q) :
    (p.print fw glyph text).Same (q.print fw glyph text) := by
  unfold Placer.print
  induction text generalizing p q with
  | nil => exact h
  | cons ch rest ih => exact ih (h.char fw glyph ch)

/-- `LocalNextLine()` of a row given as a byte (R180). -/
def rowBelow (y : Byte) : Byte := if 48 ≤ y.toNat + 8 then 0 else y + 8

theorem rowBelow_toNat (y : Byte) : (rowBelow y).toNat = if H ≤ y.toNat + 8 then 0 else y.toNat + 8 := by
  rw [rowBelow]
  split
  · rfl
  · rw [BitVec.toNat_add]
    exact Nat.mod_eq_of_lt (show y.toNat + 8 < 256 by omega)

/-- The position that a character printed at `(x, y)` leaves, as operand bytes of the next PRINTAT (R171, R180). -/
def positionAfter (fw : Nat) (ch x y : Byte) : Byte × Byte :=
  if ch.toNat = 0x0A then (0, rowBelow y)
  else if ch.toNat < 0x20 ∨ 0x7E < ch.toNat then (x, y)
  else if 84 < x.toNat + fw then (BitVec.ofNat 8 fw, rowBelow y) else (x + BitVec.ofNat 8 fw, y)

theorem Placer.char_position {fw : Nat} (hfw : fw ≤ W) (glyph : Nat → List Byte) (ch : Byte) (cv : Canvas)
    (x y : Byte) : (Placer.char fw glyph ch ⟨cv, x.toNat, y.toNat⟩).px = (positionAfter fw ch x y).1.toNat ∧
      (Placer.char fw glyph ch ⟨cv, x.toNat, y.toNat⟩).py = (positionAfter fw ch x y).2.toNat := by
  rw [W] at hfw
  by_cases hbreak : ch = NEWLINE
  · rw [hbreak, Placer.char_newline, positionAfter, if_pos (by rfl), rowBelow_toNat]
    exact ⟨rfl, rfl⟩
  have hcode : ¬ ch.toNat = 0x0A := fun h => hbreak (BitVec.eq_of_toNat_eq h)
  rw [positionAfter, if_neg hcode]
  cases hprint : printable ch with
  | false =>
    rw [Placer.char_of_skipped fw glyph _ hprint hbreak, if_pos ((not_printable_iff ch).1 hprint)]
    exact ⟨rfl, rfl⟩
  | true =>
    have hglyph : ¬ (ch.toNat < 0x20 ∨ 0x7E < ch.toNat) := by
      rw [← not_printable_iff, hprint]
      nofun
    rw [Placer.char_of_printable hprint, Placer.wrap_eq, Placer.putGlyph, if_neg hglyph]
    by_cases hwraps : W < x.toNat + fw
    · simp only [if_pos hwraps]
      exact ⟨(Nat.zero_add fw).trans (Nat.mod_eq_of_lt (by omega)).symm, (rowBelow_toNat y).symm⟩
    · have hfit : x.toNat + fw ≤ 84 := Nat.not_lt.1 hwraps
      simp only [if_neg hwraps, BitVec.toNat_add, BitVec.toNat_ofNat, Nat.add_mod_mod]
      exact ⟨(Nat.mod_eq_of_lt (by omega)).symm, trivial⟩

/-- A text of one character more is its first character, then the rest from where that left the position (R180). -/
theorem State.placeText_succ (s : State) (f : Font) (inv : Bool) (addr : SrcAddr) (n : Nat) (x y : Byte)
    {t u v : State} {next : Byte × Byte} (hnext : next = positionAfter f.width (s.src.read addr.toNat) x y)
    (ht : t = s.placeText f inv addr.toNat (n + 1) x.toNat y.toNat)
    (hu : u = s.placeText f inv addr.toNat 1 x.toNat y.toNat)
    (hv : v = u.placeText f inv (addr + 1).toNat n next.1.toNat next.2.toNat) : v.fb = t.fb := by
  have hcfg : u.cfg = s.cfg := by rw [hu]; rfl
  have hsrc : u.src = s.src := by rw [hu]; rfl
  have htext : u.text (addr + 1).toNat n = s.text (addr.toNat + 1) n := by
    rw [show addr + 1 = addr + (1 : Byte).setWidth 16 from rfl, State.text_add_addr]
    simp only [State.text, State.memRead, hsrc]
    rfl
  have hfirst : Placer.Same ⟨u.canvas, next.1.toNat, next.2.toNat⟩ (Placer.char f.width
      (fun g => decodeGlyph s.cfg f g 0 inv) (s.src.read addr.toNat) ⟨s.canvas, x.toNat, y.toNat⟩) := by
    obtain ⟨hpx, hpy⟩ := Placer.char_position f.width_le (fun g => decodeGlyph s.cfg f g 0 inv)
      (s.src.read addr.toNat) s.canvas x y
    rw [hnext]
    refine ⟨?_, hpx.symm, hpy.symm⟩
    rw [State.canvas_mem, hu, State.placeText, State.text_one]
    rfl
  rw [hv, ht, State.placeText, State.placeText, hcfg, htext, State.text_succ, State.memRead_toNat]
  exact (Placer.Same.print _ _ _ hfirst).mem

/-- Settles O52: the frame by `Placer.print_written`, the characters by `State.placeText_succ`. -/
theorem printatRunsCharByChar : Obligations.PrintatRunsCharByChar := by
  intro tinv font addr n x y s f hwf hf hn _ _ _ _
  have hlen : (n + 1).toNat = n.toNat + 1 := by
    rw [BitVec.toNat_add]
    exact Nat.mod_eq_of_lt (Nat.succ_lt_succ hn)
  have hwritten := Placer.print_written f.width (fun g => decodeGlyph s.cfg f g 0 tinv)
    (s.text addr.toNat (n + 1).toNat) (p := ⟨s.canvas, x.toNat, y.toNat⟩) hwf
  obtain ⟨htransmit, hbytes⟩ := hwritten.frame
  refine ⟨_, _, _, exec_printat s hf .., rfl, htransmit, hbytes, exec_printat s hf .., exec_printat _ hf .., ?_⟩
  exact s.placeText_succ f tinv addr n.toNat x y rfl (by rw [hlen]) rfl rfl

end Sys2Proof.Machine
end

section
/-! PROOFS. The family of device control (spec/44_device_control.md R200 to R209): the clamps, and what INIT, INVERT,
SLEEP, CONTRAST and BIAS send. A command that does not fail fast is its register write followed by `State.afterSend`;
the rule common to all sending commands (R209) goes over the six of them. -/

namespace Sys2Proof.Machine

/-! ## The clamps -/

theorem clampContrast_toNat (v : Byte) : (clampContrast v).toNat = min v.toNat 0x7F := by
  have hfits : min v.toNat 0x7F < 2 ^ 7 := by omega
  rw [clampContrast, BitVec.toNat_ofNat, Nat.mod_eq_of_lt hfits]

theorem clampBias_toNat (v : Byte) : (clampBias v).toNat = min v.toNat 7 := by
  have hfits : min v.toNat 7 < 2 ^ 3 := by omega
  rw [clampBias, BitVec.toNat_ofNat, Nat.mod_eq_of_lt hfits]

/-- Settles O59: the minimum fits the register, so storing it loses nothing (R208). -/
theorem clampsSaturate : Obligations.ClampsSaturate := by
  intro v
  rw [clampContrast_toNat, clampBias_toNat]
  exact ⟨Nat.min_def, Nat.min_def⟩

/-! ## The frames -/

/-- The two address bytes of the sequence carry the argument 0 (R202). -/
theorem State.initSequence_eq (s : State) : s.initSequence = initBytes s.cfg.cmd s.bias s.contrast := by
  simp [State.initSequence, State.biasByte, State.vopByte, initBytes]

/-- A command frame sent after the busy test and the write of a register: the write leaves `BUSY` and the parameters,
so the second busy test of the guarded send passes like the first (R203, R206, R207). -/
theorem State.unlessBusy_send_of_not_failsFast {s : State} (idle : ¬ s.FailsFast) (write : State → State)
    (hbusy : (write s).busy = s.busy) (hcfg : (write s).cfg = s.cfg) (bytes : State → List Byte) :
    s.unlessBusy (fun s => (write s).sendAndRespond .command (bytes (write s))) =
      (write s).afterSend .command (bytes (write s)) := by
  have idle' : ¬ (write s).FailsFast := by rwa [State.failsFast_congr hbusy hcfg]
  rw [State.unlessBusy_of_not_failsFast idle, State.sendAndRespond_of_not_failsFast idle']

/-! ## The commands, not failing fast -/

/-- Settles O54: both registers are written, and the sequence is built from them. -/
theorem initResult : Obligations.InitResult := by
  intro contrast bias s idle ct bs
  have hsend := State.unlessBusy_send_of_not_failsFast idle (fun s => { s with contrast := ct, bias := bs }) rfl rfl
    State.initSequence
  rw [State.initSequence_eq] at hsend
  exact (exec_init s contrast bias).trans (congrArg _ hsend)

/-- Settles O55: INVERT is one guarded send. -/
theorem invertResult : Obligations.InvertResult := by
  intro v s idle
  rw [exec_invert, State.sendAndRespond_of_not_failsFast idle]

/-- Settles O56: SLEEP is one guarded send, of the sequence with the stored registers where it wakes. -/
theorem sleepResult : Obligations.SleepResult := by
  intro v s idle
  rw [exec_sleep, State.sendAndRespond_of_not_failsFast idle, State.initSequence_eq]

/-- Settles O57: the register is written, and the argument byte is built from it. -/
theorem contrastResult : Obligations.ContrastResult := by
  intro value s idle ct
  have hsend := State.unlessBusy_send_of_not_failsFast idle (fun s => { s with contrast := ct }) rfl rfl
    (fun s => [s.cfg.cmd.ext, s.vopByte, s.cfg.cmd.normal])
  exact (exec_contrast s value).trans (congrArg _ hsend)

/-- Settles O58: the register is written, and the argument byte is built from it. -/
theorem biasResult : Obligations.BiasResult := by
  intro value s idle bs
  have hsend := State.unlessBusy_send_of_not_failsFast idle (fun s => { s with bias := bs }) rfl rfl
    (fun s => [s.cfg.cmd.ext, s.biasByte, s.cfg.cmd.normal])
  exact (exec_bias s value).trans (congrArg _ hsend)

/-! ## The rule common to all sending commands -/

/-- The sending commands are REFRESH and the five of device control (R209). -/
theorem sends_cases {i : Instr} (h : Sends i = true) :
    i = .refresh ∨ (∃ contrast bias, i = .init contrast bias) ∨ (∃ v, i = .invert v) ∨ (∃ v, i = .sleep v) ∨
      (∃ value, i = .contrast value) ∨ ∃ value, i = .bias value := by
  cases i <;> simp [Sends, mnemonicOf] at h ⊢

section
variable {i : Instr} {s : State} (sends : Sends i = true)
include sends

/-- The busy test comes before every other effect of a sending command (R209). -/
theorem exec_of_failsFast (busy : s.FailsFast) : exec i s = .next (s.respond .fail 0x00) := by
  rcases sends_cases sends with rfl | ⟨contrast, bias, rfl⟩ | ⟨v, rfl⟩ | ⟨v, rfl⟩ | ⟨value, rfl⟩ | ⟨value, rfl⟩
  · rw [exec_refresh, State.sendAndRespond_of_failsFast busy]
  · rw [exec_init, State.unlessBusy_of_failsFast busy]
  · rw [exec_invert, State.sendAndRespond_of_failsFast busy]
  · rw [exec_sleep, State.sendAndRespond_of_failsFast busy]
  · rw [exec_contrast, State.unlessBusy_of_failsFast busy]
  · rw [exec_bias, State.unlessBusy_of_failsFast busy]

/-- A sending command that does not fail fast sends one frame, and writes nothing into `TX` before it. -/
theorem exec_of_not_failsFast (idle : ¬ s.FailsFast) :
    ∃ (u : State) (kind : FrameKind) (bytes : List Byte),
      exec i s = .next (u.afterSend kind bytes) ∧ u.tx = s.tx := by
  rcases sends_cases sends with rfl | ⟨contrast, bias, rfl⟩ | ⟨v, rfl⟩ | ⟨v, rfl⟩ | ⟨value, rfl⟩ | ⟨value, rfl⟩
  · exact ⟨_, _, _, refreshResult s idle, rfl⟩
  · exact ⟨_, _, _, initResult contrast bias s idle, rfl⟩
  · exact ⟨_, _, _, invertResult v s idle, rfl⟩
  · exact ⟨_, _, _, sleepResult v s idle, rfl⟩
  · exact ⟨_, _, _, contrastResult value s idle, rfl⟩
  · exact ⟨_, _, _, biasResult value s idle, rfl⟩

end

/-- Settles O18: in the blocking configuration no state fails fast, so the frame is sent. -/
theorem busyCommandsFailFast : Obligations.BusyCommandsFailFast := by
  intro i s sends
  refine ⟨exec_of_failsFast sends, fun blocking => ?_⟩
  have idle : ¬ s.FailsFast := fun busy => Bool.false_ne_true (blocking.symm.trans busy.1)
  obtain ⟨u, kind, bytes, hexec, htx⟩ := exec_of_not_failsFast sends idle
  exact ⟨_, ⟨kind, bytes, u.answer⟩, hexec, by rw [State.afterSend, htx]⟩

end Sys2Proof.Machine
end

section
/-! PROOFS. The family of the exceptions (spec/60_exceptions.md R220, R226): the completion notification, and that no
step and no command ever stops. The step is said once for each kind of input; a command is `exec_responds`. -/

namespace Sys2Proof.Machine

/-! ## The step that takes a completion or a reset -/

section
variable {s : State} {rest : List Input}

theorem step_of_completion (h : s.inputs = .completion :: rest) :
    step s = .next (State.completeTransfer { s with inputs := rest }) := by
  rw [← State.takeInput_of_inputs h, step, h]

theorem step_of_reset {d : ResetDraw} (h : s.inputs = .reset d :: rest) :
    step s = .next (State.hardwareReset { s with inputs := rest } d) := by
  rw [← State.takeInput_of_inputs h, step, h]

/-! ## Every command and every step completes -/

/-- A command completes, with one response, and takes no further input (R58, R220). -/
theorem exec_completes (i : Instr) (s : State) :
    ∃ t r, exec i s = .next t ∧ t.inputs = s.inputs ∧ t.responses = s.responses ++ [r] := by
  obtain ⟨t, r, hrun, hresponses, _⟩ := exec_responds i s
  obtain ⟨_, _, hinputs, _⟩ := commandsChangeOnlyTheirState i s t hrun
  exact ⟨t, r, hrun, hinputs, hresponses⟩

/-- A presented word is answered once, by its command or, where it is undefined, by REJECTED (R77, R220). -/
theorem step_of_command {w : CommandWord} (h : s.inputs = .command w :: rest) :
    ∃ t r, step s = .next t ∧ t.inputs = rest ∧ t.responses = s.responses ++ [r] := by
  cases hd : decode w with
  | ok i =>
    rw [step_of_decode_ok h hd]
    exact exec_completes i { s with inputs := rest }
  | error e => exact ⟨_, _, step_of_decode_error h hd, rfl, rfl⟩

end

/-- Every step completes, whatever the environment does next (R220). -/
theorem step_completes (s : State) : ∃ t, step s = .next t := by
  cases hin : s.inputs with
  | nil => exact ⟨s, step_of_no_input hin⟩
  | cons input rest =>
    cases input with
    | command w =>
      obtain ⟨t, _, hstep, _⟩ := step_of_command hin
      exact ⟨t, hstep⟩
    | srcWrite addr v => exact ⟨_, step_of_srcWrite hin⟩
    | completion => exact ⟨_, step_of_completion hin⟩
    | reset d => exact ⟨_, step_of_reset hin⟩

/-- Settles O13: steps by `step_completes`, commands by `exec_completes`, presented words by `step_of_command`. -/
theorem stepsAndCommandsNeverStop : Obligations.StepsAndCommandsNeverStop := by
  intro s
  refine ⟨step_completes s, fun i => ?_, fun _ _ => step_of_command⟩
  obtain ⟨t, r, hrun, _, hresponses⟩ := exec_completes i s
  exact ⟨t, r, hrun, hresponses⟩

/-! ## The completion notification -/

/-- Settles O7: taking the notification leaves `FailsFast` as it was, and that is when the notification is enabled. -/
theorem completionClearsBusyOnly : Obligations.CompletionClearsBusyOnly := by
  intro s rest hin
  rw [step_of_completion hin]
  refine ⟨fun enabled => ?_, fun disabled => ?_⟩
  · rw [State.completeTransfer_of_failsFast (s := { s with inputs := rest }) enabled]
  · rw [State.completeTransfer_of_not_failsFast (s := { s with inputs := rest }) disabled]

end Sys2Proof.Machine
end

section
/-! PROOFS. The family of reset and hazards (spec/70_reset_and_hazards.md R240, R243): the data frame in flight while
commands run, and the reset input. Every command leaves the frame as `Frame.unsettle` of the indices it wrote
(`exec_unsettles`); O20 reads that frame byte by byte. -/

namespace Sys2Proof.Machine

open Config

/-! ## The data frame in flight (R243) -/

/-- A byte of an unsettled frame is the free value at a written index and as it was elsewhere. -/
theorem Frame.unsettle_getElem? {f : Frame} {j : Nat} (hj : j < f.bytes.length) (touched : List Nat) (draw : Nat) :
    (f.unsettle touched draw).bytes[j]? = if j ∈ touched then some (flightByte draw j) else f.bytes[j]? := by
  by_cases hmem : j ∈ touched <;> simp [Frame.unsettle, hj, hmem]

theorem State.commit_getElem?_inFlight {s : State} {k : Nat} {f : Frame} (hk : s.dataInFlight = some k)
    (hf : s.tx[k]? = some f) (cv : Canvas) :
    (s.commit cv).tx[k]? = some (f.unsettle cv.touched s.draws) := by
  simp [State.txAfterWrites, hk, hf]

/-- In `t`, entry `k` of `TX` is the frame `f` with free values at indices that include every byte of the framebuffer
in which `t` differs from `s`. -/
def State.Unsettles (s t : State) (k : Nat) (f : Frame) : Prop :=
  ∃ touched : List Nat, t.tx[k]? = some (f.unsettle touched s.draws) ∧ ∀ j, t.fbByte j ≠ s.fbByte j → j ∈ touched

section
variable {s : State} {k : Nat} {f : Frame}

/-- A command that draws writes the frame at every index it records, and records every byte it changes. -/
theorem Canvas.Written.unsettles {cv : Canvas} (h : Canvas.Written s.canvas cv) (hk : s.dataInFlight = some k)
    (hf : s.tx[k]? = some f) : s.Unsettles (s.commit cv) k f :=
  ⟨cv.touched, State.commit_getElem?_inFlight hk hf cv, h.changed⟩

/-- With the framebuffer and the frame unchanged no index is written. -/
theorem State.Unsettles.of_kept {t : State} (hfb : t.fb = s.fb) (hf : t.tx[k]? = some f) : s.Unsettles t k f :=
  ⟨[], by rw [Frame.unsettle_nil, hf], fun j hne => absurd (by rw [State.fbByte, hfb, State.fbByte]) hne⟩

/-- A sending command appends to `TX`, so that the entries before stay (R28, R56). -/
theorem Transmitted.getElem?_tx {i : Instr} {t : State} (h : Transmitted i s t) (hf : s.tx[k]? = some f) :
    t.tx[k]? = some f := by
  cases h with
  | failed _ => exact hf
  | sent _ _ _ _ _ _ _ _ => exact (List.getElem?_append_left (List.getElem?_eq_some_iff.1 hf).1).trans hf

/-- Every command, whatever its kind, unsettles the data frame in flight at least wherever it changes the framebuffer. -/
theorem exec_unsettles {i : Instr} {t : State} (hwf : s.fb.wf) (hk : s.dataInFlight = some k) (hf : s.tx[k]? = some f)
    (ht : exec i s = .next t) : s.Unsettles t k f := by
  cases exec_effect i s with
  | draw p _ writes run =>
    obtain rfl := exec_next_unique ht (run s (.refl s))
    exact (writes s.canvas hwf).unsettles hk hf
  | print p _ _ safe run =>
    obtain rfl := exec_next_unique ht (run s (.refl s))
    exact (safe s.printer hwf).1.unsettles hk hf
  | move x y _ _ run =>
    obtain rfl := exec_next_unique ht (run s)
    exact .of_kept rfl hf
  | answer st v run =>
    obtain rfl := exec_next_unique ht (run s (.refl s))
    exact .of_kept rfl hf
  | send _ run =>
    obtain ⟨u, hu, htr⟩ := run s
    obtain rfl := exec_next_unique ht hu
    obtain ⟨⟨hfb, _⟩, _⟩ := htr.frame
    exact .of_kept hfb (htr.getElem?_tx hf)

end

/-- Settles O20: each byte of the frame `exec_unsettles` gives is read by `Frame.unsettle_getElem?`. -/
theorem inFlightBytesBecomeFree : Obligations.InFlightBytesBecomeFree := by
  intro i s t k f hwf hk hf ht
  obtain ⟨touched, hg, hchanged⟩ := exec_unsettles hwf hk hf ht
  refine ⟨_, hg, fun j hj => ?_⟩
  rw [Frame.unsettle_getElem? hj]
  refine ⟨?_, fun hne => if_pos (hchanged j hne)⟩
  by_cases hmem : j ∈ touched
  · exact .inr (if_pos hmem)
  · exact .inl (if_neg hmem)

/-! ## The reset input (R240, R31) -/

/-- The framebuffer after a reset holds the drawn bytes in order, and 0x00 where none was drawn
(notes/assumptions/12.md) or no framebuffer byte is. -/
theorem State.hardwareReset_fbByte (s : State) (d : ResetDraw) (i : Nat) :
    (s.hardwareReset d).fbByte i = if i < FBSIZE then d.fb.getD i 0x00 else 0x00 := by
  have hread : (s.hardwareReset d).fbByte i = (d.fb.take FBSIZE).getD i 0x00 := by
    rw [State.fbByte, State.hardwareReset_fb, Memory.read_load Memory.wf_nil, if_pos i.zero_le]
    rfl
  rw [hread, List.getD_eq_getElem?_getD, List.getElem?_take]
  split
  · rw [List.getD_eq_getElem?_getD]
  · rfl

/-- Settles O8: the step is `State.hardwareReset` once the input is taken (`step_of_reset`). -/
theorem resetInputResets : Obligations.ResetInputResets := by
  intro s d rest hin
  exact ⟨_, step_of_reset hin, rfl, rfl, rfl, rfl, rfl, rfl, rfl, rfl, rfl, rfl, rfl, rfl, rfl,
    Memory.wf_load Memory.wf_nil _ _, State.hardwareReset_fbByte _ d⟩

end Sys2Proof.Machine
end
